-- ==== Sys2Proof/Word.lean ====
section
/-! DEFINITION. The word types of the core (spec/00_scope.md R9 to R11): every register, address and
instruction is 32 bits, bit 0 least significant, and arithmetic on a word wraps modulo 2^32. -/

namespace Sys2Proof

/-- `u32` of R11: a 32-bit word. -/
abbrev Word := BitVec 32

/-- One byte of a memory. -/
abbrev Byte := BitVec 8

/-- `RegIdx` of R26: a 5-bit register index 0..31. -/
abbrev RegIdx := BitVec 5

end Sys2Proof
end

