-- ==== Sys2Proof/Config.lean ====
section
/-! DEFINITION. The implementation parameters of spec/00_scope.md R9 that a clock cycle depends on.
They are plain data and are carried in `State.params`, which no step changes, so that a statement
about every state holds for every value of them (notes/assumptions/3.md). -/

namespace Sys2Proof

/-- HAZARD_SOURCES (R9, R99, D10): which source fields decode checks and reads. -/
inductive HazardSources where
  /-- only the sources the format has (the spec's choice) -/
  | used
  /-- bits [19:15] and [24:20] of every word -/
  | raw
deriving DecidableEq, Repr

/-- MISALIGNED_FETCH (R9, R77, D12): a fetch at a PC whose low two bits are not 00. -/
inductive MisalignedFetch where
  /-- fetch word PC >> 2 and keep the low bits (the spec's choice) -/
  | truncate
  /-- abort the run with FetchMisaligned -/
  | fatal
deriving DecidableEq, Repr

/-- NARROW_MEM (R9, R101, D13): the LB, LH, LBU, LHU, SB and SH encodings. -/
inductive NarrowMem where
  /-- they are no-operations (the spec's choice) -/
  | nop
  /-- they decode as LW or SW with the same fields -/
  | asWord
deriving DecidableEq, Repr

/-- The parameters of R9 that a cycle reads. N_CORES, IMEM_INIT, SP_INIT and RF_INIT are launch
inputs only (`State.launch`, `Run.launch`). COMPLETION_DELAY admits the one value `register` (D11). -/
structure Params where
  /-- IMEM_WORDS: the size of instruction memory in words -/
  imemWords       : Nat
  /-- DMEM_WORDS: the size of data memory in words -/
  dmemWords       : Nat
  /-- DMEM_INIT: the initial data memory, word 0 first; a word past the list's end is 0 -/
  dmemInit        : List Word
  /-- WAW_INTERLOCK: decode also stalls when its destination is locked -/
  wawInterlock    : Bool
  hazardSources   : HazardSources
  misalignedFetch : MisalignedFetch
  narrowMem       : NarrowMem
deriving DecidableEq, Repr

/-- The bounds R9 puts on the sizes (D3): IMEM_WORDS > 0 and 0 < DMEM_WORDS ≤ 2^30. -/
def Params.legal (p : Params) : Bool :=
  decide (0 < p.imemWords) && decide (0 < p.dmemWords) && decide (p.dmemWords ≤ 2 ^ 30)

/-- The parameters of the machine after `State.reset`: the spec's choice for each behaviour
(R9), and for the OPEN sizes and DMEM_INIT the launch conventions of spec/95_test_vectors.md,
IMEM_WORDS = 64, DMEM_WORDS = 16 and DMEM[i] = 16 - i.
DESIGN CHOICE (unsafe): the sizes and DMEM_INIT are OPEN (notes/assumptions/3.md, 4.md). -/
def Params.conventional : Params where
  imemWords       := 64
  dmemWords       := 16
  dmemInit        := [16, 15, 14, 13, 12, 11, 10, 9, 8, 7, 6, 5, 4, 3, 2, 1]
  wawInterlock    := true
  hazardSources   := .used
  misalignedFetch := .truncate
  narrowMem       := .nop

end Sys2Proof
end

