-- ==== Sys2Proof/Machine/State.lean ====
section
/-! DEFINITION. The state of one core (spec/10_state.md R26), its payload records (R33 to R40), the reasons
a cycle can stop (spec/60_exceptions.md R241), and the state at launch (R51). -/

namespace Sys2Proof.Machine

/-! ## Payload records -/

/-- AluOp: exactly these twelve values (R36). -/
inductive AluOp where
  | add | sub | and | or | xor | sll | srl | sra | slt | sltu | passImm | pcPlusImm
deriving DecidableEq, Repr

/-- BrKind: exactly these nine values (R37). -/
inductive BrKind where
  | none | beq | bne | blt | bge | bltu | bgeu | jal | jalr
deriving DecidableEq, Repr

/-- MemOp: exactly these three values (R38). -/
inductive MemOp where
  | none | load | store
deriving DecidableEq, Repr

/-- FDPayload, fetch to decode (R33); also what SAVED holds (R34). -/
structure FDPayload where
  inst : Word
  pc   : Word
deriving DecidableEq, Repr

/-- DEPayload, decode to execute (R35). -/
structure DEPayload where
  dest : Option RegIdx
  alu  : AluOp
  br   : BrKind
  mem  : MemOp
  imm  : Option Word
  v1   : Word
  v2   : Word
  pc   : Word
deriving DecidableEq, Repr

/-- EMPayload, execute to memory (R39). -/
structure EMPayload where
  /-- the computed address or ALU result -/
  res   : Word
  /-- the store value -/
  sdata : Word
  /-- the non-load write-back value -/
  wbv   : Word
  mem   : MemOp
  dest  : Option RegIdx
deriving DecidableEq, Repr

/-- MWPayload, memory to write-back (R40). -/
structure MWPayload where
  val  : Word
  dest : Option RegIdx
deriving DecidableEq, Repr

/-- The control fields decode derives from an instruction (spec/30_encoding.md R98): those of the
DE payload, and the source fields the instruction uses. -/
structure Control where
  dest : Option RegIdx
  alu  : AluOp
  br   : BrKind
  mem  : MemOp
  imm  : Option Word
  /-- `some rs1` iff the instruction uses rs1 -/
  src1 : Option RegIdx
  /-- `some rs2` iff the instruction uses rs2 -/
  src2 : Option RegIdx
deriving DecidableEq, Repr

/-! ## The core's state -/

/-- The register file: 32 registers of 32 bits (R27). -/
abbrev RegFile := Vector Word 32

/-- A memory object, as the cells that differ from what an unlisted address reads as, addresses
strictly rising (`Memory.wf`, notes/assumptions/14.md). Word `i` is bytes `4i` to `4i+3` (R71). -/
abbrev Memory := List Host.Cell

/-- One core's state (R26: "Nothing else is state"), and the launch parameters (R9), which no step
changes. The wires `stall` and `redirect` hold no state across cycles (R21); they are functions of
the state (`stallWire`, `redirectWire`). -/
structure State where
  params : Params
  /-- PC: the byte address of the next fetch (R30) -/
  pc     : Word
  /-- FD: fetch to decode (R33) -/
  fd     : Option FDPayload
  /-- SAVED: decode's own slot that holds an instruction across a hazard stall (R34) -/
  saved  : Option FDPayload
  /-- DE: decode to execute (R35) -/
  de     : Option DEPayload
  /-- EM: execute to memory (R39) -/
  em     : Option EMPayload
  /-- MW: memory to write-back (R40) -/
  mw     : Option MWPayload
  /-- WBC: the write-back completion, read one cycle later (R42) -/
  wbc    : Option RegIdx
  /-- SB: the hazard scoreboard, bit r set iff register r is locked (R43) -/
  sb     : BitVec 32
  /-- RF (R27) -/
  rf     : RegFile
  /-- IMEM, read-only after launch (R47) -/
  imem   : Memory
  /-- DMEM (R48) -/
  dmem   : Memory
deriving DecidableEq, Repr

/-! ## Stops -/

/-- Why a fetch aborts (R241): one condition, or both at once (R244). -/
inductive FetchAbort where
  /-- the fetch stage, under MISALIGNED_FETCH = fatal only: PC[1:0] ≠ 00; records the PC -/
  | misaligned (pc : Word)
  /-- the fetch stage: (PC >> 2) ≥ IMEM_WORDS; records the PC -/
  | outOfBounds (pc : Word)
  /-- the fetch stage, under MISALIGNED_FETCH = fatal only: both conditions hold of the PC -/
  | misalignedOutOfBounds (pc : Word)
deriving DecidableEq, Repr

/-- One abort reason of R241, with the value it records. -/
inductive AbortReason where
  | dataOutOfBounds (ea : Word)
  | fetchMisaligned (pc : Word)
  | fetchOutOfBounds (pc : Word)
deriving DecidableEq, Repr

/-- The terminal fault of a cycle (R241, R243): the run is over and the cycle commits nothing.
Each constructor is an abort the spec itself describes, so stopping here is what the hardware does
(safe). A cycle in which two conditions hold carries both (R244). -/
inductive Fault where
  /-- raised by the memory stage for an LW or SW whose word index is outside DMem (safe) -/
  | dataOutOfBounds (ea : Word)
  /-- raised by the fetch stage when it reads outside IMem, or at a misaligned PC under
  MISALIGNED_FETCH = fatal (safe) -/
  | fetch (r : FetchAbort)
  /-- raised when the memory stage and the fetch stage abort in the same cycle (safe) -/
  | dataAndFetch (ea : Word) (r : FetchAbort)
deriving DecidableEq, Repr

/-- Why the model has no meaning to give. No step of this model answers a refusal. -/
inductive Refusal where
  /-- raised by `exec` alone, for an instruction the model does not have (safe: the machine stops
  where the hardware goes on); no arm of `exec` uses it -/
  | notModelled (mnemonic : String)
deriving DecidableEq, Repr

/-- The outcome of a cycle. -/
abbrev Result := Host.Outcome State Fault Refusal

/-! ## Reset -/

/-- SP_INIT: the byte address one past the last DMem word, modulo 2^32 (R51, R274, D7). -/
def spInitOf (p : Params) : Word := BitVec.ofNat 32 (4 * p.dmemWords)

/-- The state at launch (R51) with the conventional parameters and no program image: PC 0, an
empty pipeline, no lock, x2 = SP_INIT, every other register RF_INIT = 0 (D8, DESIGN CHOICE,
notes/assumptions/5.md), IMEM all zero (R272) and DMEM as DMEM_INIT. -/
def State.reset : State where
  params := Params.conventional
  pc     := 0#32
  fd     := none
  saved  := none
  de     := none
  em     := none
  mw     := none
  wbc    := none
  sb     := 0#32
  rf     := (Vector.replicate 32 0#32).set 2 (spInitOf Params.conventional)
  imem   := []
  dmem   := []

end Sys2Proof.Machine
end

