-- ==== Sys2Proof/Machine/Flags.lean ====
section
/-! DEFINITION. The core has no flags, condition codes or predicates (spec/10_state.md R31): a comparison is
made where it is used. This file holds the comparisons: the branch conditions (spec/40_pipeline.md R143)
and the result of set-less-than (R142). -/

namespace Sys2Proof.Machine

/-- `signed(a) < signed(b)` (R11). -/
def signedLess (a b : Word) : Bool := decide (a.toInt < b.toInt)

/-- `unsigned(a) < unsigned(b)` (R11). -/
def unsignedLess (a b : Word) : Bool := decide (a.toNat < b.toNat)

/-- The `taken` column of R143; the comparison is of the two source values. -/
def taken : BrKind → Word → Word → Bool
  | .none, _, _   => false
  | .beq,  v1, v2 => v1 == v2
  | .bne,  v1, v2 => v1 != v2
  | .blt,  v1, v2 => signedLess v1 v2
  | .bge,  v1, v2 => !signedLess v1 v2
  | .bltu, v1, v2 => unsignedLess v1 v2
  | .bgeu, v1, v2 => !unsignedLess v1 v2
  | .jal,  _, _   => true
  | .jalr, _, _   => true

/-- SLT and SLTU return exactly 0 or 1 (R142). -/
def boolWord (b : Bool) : Word := if b then 1#32 else 0#32

end Sys2Proof.Machine
end

