-- ==== Sys2Proof/Syntax.lean ====
section
/-! DEFINITION. The instructions: one constructor per row of spec/opcode_table.json (spec/30_encoding.md
R96), with the operands in the assembler's order (R111). -/

namespace Sys2Proof

/-- The 31 recognised instructions (R2) and NOP, every other word (R235). -/
inductive Instr where
  -- R-type (R171 to R180)
  | add   (rd rs1 rs2 : RegIdx)
  | sub   (rd rs1 rs2 : RegIdx)
  | sll   (rd rs1 rs2 : RegIdx)
  | slt   (rd rs1 rs2 : RegIdx)
  | sltu  (rd rs1 rs2 : RegIdx)
  | xor   (rd rs1 rs2 : RegIdx)
  | srl   (rd rs1 rs2 : RegIdx)
  | sra   (rd rs1 rs2 : RegIdx)
  | or    (rd rs1 rs2 : RegIdx)
  | and   (rd rs1 rs2 : RegIdx)
  -- I-type (R181 to R186); `imm` is the 12-bit field, before sign extension
  | addi  (rd rs1 : RegIdx) (imm : BitVec 12)
  | slti  (rd rs1 : RegIdx) (imm : BitVec 12)
  | sltiu (rd rs1 : RegIdx) (imm : BitVec 12)
  | xori  (rd rs1 : RegIdx) (imm : BitVec 12)
  | ori   (rd rs1 : RegIdx) (imm : BitVec 12)
  | andi  (rd rs1 : RegIdx) (imm : BitVec 12)
  -- I-shift (R187 to R189); the shift amount 0..31
  | slli  (rd rs1 : RegIdx) (shamt : BitVec 5)
  | srli  (rd rs1 : RegIdx) (shamt : BitVec 5)
  | srai  (rd rs1 : RegIdx) (shamt : BitVec 5)
  -- loads and stores (R201, R202): `LW rd, imm(rs1)` and `SW rs2, imm(rs1)`
  | lw    (rd rs1 : RegIdx) (imm : BitVec 12)
  | sw    (rs2 rs1 : RegIdx) (imm : BitVec 12)
  -- conditional branches (R211 to R216); the 13-bit offset of R93, whose bit 0 is 0
  | beq   (rs1 rs2 : RegIdx) (offset : BitVec 13)
  | bne   (rs1 rs2 : RegIdx) (offset : BitVec 13)
  | blt   (rs1 rs2 : RegIdx) (offset : BitVec 13)
  | bge   (rs1 rs2 : RegIdx) (offset : BitVec 13)
  | bltu  (rs1 rs2 : RegIdx) (offset : BitVec 13)
  | bgeu  (rs1 rs2 : RegIdx) (offset : BitVec 13)
  -- jumps (R221, R222); JAL's 21-bit offset has bit 0 = 0
  | jal   (rd : RegIdx) (offset : BitVec 21)
  | jalr  (rd rs1 : RegIdx) (imm : BitVec 12)
  -- upper immediates (R231, R232): the 20 bits that go to [31:12]
  | lui   (rd : RegIdx) (imm20 : BitVec 20)
  | auipc (rd : RegIdx) (imm20 : BitVec 20)
  -- every word that matches no row of R96 (R235), with the word itself
  | nop   (word : Word)
deriving DecidableEq, Repr

end Sys2Proof
end

