-- ==== Sys2Proof/WellFormed.lean ====
section
/-! DEFINITION. The match table of spec/30_encoding.md R96, and which terms of `Instr` stand for an
instruction word: a branch or JAL offset is even (R93), and the word of a NOP matches no row (R235). -/

namespace Sys2Proof

/-- One row of R96: a word `w` is the row's instruction iff `w &&& mask = pattern`. -/
structure MatchRow where
  mnemonic : String
  pattern  : Word
  mask     : Word
deriving DecidableEq, Repr

/-- The complete match table of R96, less NOP, in the table's order. -/
def matchTable : List MatchRow :=
  [ ⟨"ADD",  0x00000033, 0xFE00707F⟩, ⟨"SUB",  0x40000033, 0xFE00707F⟩,
    ⟨"SLL",  0x00001033, 0xFE00707F⟩, ⟨"SLT",  0x00002033, 0xFE00707F⟩,
    ⟨"SLTU", 0x00003033, 0xFE00707F⟩, ⟨"XOR",  0x00004033, 0xFE00707F⟩,
    ⟨"SRL",  0x00005033, 0xFE00707F⟩, ⟨"SRA",  0x40005033, 0xFE00707F⟩,
    ⟨"OR",   0x00006033, 0xFE00707F⟩, ⟨"AND",  0x00007033, 0xFE00707F⟩ ] ++
  [ ⟨"ADDI",  0x00000013, 0x0000707F⟩, ⟨"SLTI", 0x00002013, 0x0000707F⟩,
    ⟨"SLTIU", 0x00003013, 0x0000707F⟩, ⟨"XORI", 0x00004013, 0x0000707F⟩,
    ⟨"ORI",   0x00006013, 0x0000707F⟩, ⟨"ANDI", 0x00007013, 0x0000707F⟩,
    ⟨"SLLI",  0x00001013, 0xFE00707F⟩, ⟨"SRLI", 0x00005013, 0xFE00707F⟩,
    ⟨"SRAI",  0x40005013, 0xFE00707F⟩ ] ++
  [ ⟨"LW",   0x00002003, 0x0000707F⟩, ⟨"SW",   0x00002023, 0x0000707F⟩,
    ⟨"BEQ",  0x00000063, 0x0000707F⟩, ⟨"BNE",  0x00001063, 0x0000707F⟩,
    ⟨"BLT",  0x00004063, 0x0000707F⟩, ⟨"BGE",  0x00005063, 0x0000707F⟩,
    ⟨"BLTU", 0x00006063, 0x0000707F⟩, ⟨"BGEU", 0x00007063, 0x0000707F⟩,
    ⟨"JAL",  0x0000006F, 0x0000007F⟩, ⟨"JALR", 0x00000067, 0x0000707F⟩,
    ⟨"LUI",  0x00000037, 0x0000007F⟩, ⟨"AUIPC", 0x00000017, 0x0000007F⟩ ]

/-- `(w & mask) == match` of R96. -/
def MatchRow.hits (r : MatchRow) (w : Word) : Bool := w &&& r.mask == r.pattern

/-- Some row of R96 matches the word: it is one of the 31 recognised instructions. -/
def recognised (w : Word) : Bool := matchTable.any (·.hits w)

/-- The term is an instruction: R93 (bit 0 of a B or J offset is always 0) and R235 (a NOP's word
matches no row). Every other operand is bounded by its type. -/
def Instr.wellFormed : Instr → Bool
  | .add _ _ _ | .sub _ _ _ | .sll _ _ _ | .slt _ _ _ | .sltu _ _ _ => true
  | .xor _ _ _ | .srl _ _ _ | .sra _ _ _ | .or _ _ _ | .and _ _ _ => true
  | .addi _ _ _ | .slti _ _ _ | .sltiu _ _ _ | .xori _ _ _ | .ori _ _ _ | .andi _ _ _ => true
  | .slli _ _ _ | .srli _ _ _ | .srai _ _ _ => true
  | .lw _ _ _ | .sw _ _ _ => true
  | .beq _ _ o | .bne _ _ o | .blt _ _ o | .bge _ _ o | .bltu _ _ o | .bgeu _ _ o => !o.getLsbD 0
  | .jal _ o => !o.getLsbD 0
  | .jalr _ _ _ => true
  | .lui _ _ | .auipc _ _ => true
  | .nop w => !recognised w

/-- The row's mnemonic in spec/opcode_table.json. -/
def Instr.mnemonic : Instr → String
  | .add _ _ _ => "ADD" | .sub _ _ _ => "SUB" | .sll _ _ _ => "SLL" | .slt _ _ _ => "SLT"
  | .sltu _ _ _ => "SLTU" | .xor _ _ _ => "XOR" | .srl _ _ _ => "SRL" | .sra _ _ _ => "SRA"
  | .or _ _ _ => "OR" | .and _ _ _ => "AND"
  | .addi _ _ _ => "ADDI" | .slti _ _ _ => "SLTI" | .sltiu _ _ _ => "SLTIU"
  | .xori _ _ _ => "XORI" | .ori _ _ _ => "ORI" | .andi _ _ _ => "ANDI"
  | .slli _ _ _ => "SLLI" | .srli _ _ _ => "SRLI" | .srai _ _ _ => "SRAI"
  | .lw _ _ _ => "LW" | .sw _ _ _ => "SW"
  | .beq _ _ _ => "BEQ" | .bne _ _ _ => "BNE" | .blt _ _ _ => "BLT"
  | .bge _ _ _ => "BGE" | .bltu _ _ _ => "BLTU" | .bgeu _ _ _ => "BGEU"
  | .jal _ _ => "JAL" | .jalr _ _ _ => "JALR"
  | .lui _ _ => "LUI" | .auipc _ _ => "AUIPC"
  | .nop _ => "NOP"

end Sys2Proof
end

