-- ==== Sys2Proof/Decode.lean ====
section
/-! DEFINITION. Decoding and encoding (spec/30_encoding.md). The decoder is total on words: a word that
matches no row of R96 is a NOP (R100, R235). On bytes it rejects, by name, a sequence shorter than
one instruction. The encoder is written from the same formats (R92). The encodings are the standard
RV32I ones, which the spec itself marks as general knowledge (notes/assumptions/23.md). -/

namespace Sys2Proof

/-! ## Fields (R91) -/

/-- opcode, bits [6:0] -/
def opcodeOf (w : Word) : BitVec 7 := w.extractLsb' 0 7
/-- rd, bits [11:7] -/
def rdOf (w : Word) : RegIdx := w.extractLsb' 7 5
/-- funct3, bits [14:12] -/
def funct3Of (w : Word) : BitVec 3 := w.extractLsb' 12 3
/-- rs1, bits [19:15] -/
def rs1Of (w : Word) : RegIdx := w.extractLsb' 15 5
/-- rs2, bits [24:20] (the shift amount of an I-shift) -/
def rs2Of (w : Word) : RegIdx := w.extractLsb' 20 5
/-- funct7, bits [31:25] -/
def funct7Of (w : Word) : BitVec 7 := w.extractLsb' 25 7

/-! ## Immediate fields (R93), before sign extension -/

/-- I: w[31:20] -/
def immIOf (w : Word) : BitVec 12 := w.extractLsb' 20 12
/-- S: w[31:25], w[11:7] -/
def immSOf (w : Word) : BitVec 12 := w.extractLsb' 25 7 ++ w.extractLsb' 7 5
/-- B: w[31], w[7], w[30:25], w[11:8], 0 -/
def immBOf (w : Word) : BitVec 13 :=
  w.extractLsb' 31 1 ++ w.extractLsb' 7 1 ++ w.extractLsb' 25 6 ++ w.extractLsb' 8 4 ++ 0#1
/-- U: w[31:12] -/
def immUOf (w : Word) : BitVec 20 := w.extractLsb' 12 20
/-- J: w[31], w[19:12], w[20], w[30:21], 0 -/
def immJOf (w : Word) : BitVec 21 :=
  w.extractLsb' 31 1 ++ w.extractLsb' 12 8 ++ w.extractLsb' 20 1 ++ w.extractLsb' 21 10 ++ 0#1

/-! ## The decoder (R95 to R97) -/

/-- OP, 0110011: the R-type instructions. -/
def decodeOp (w : Word) : Instr :=
  let rd := rdOf w; let rs1 := rs1Of w; let rs2 := rs2Of w
  let f3 := funct3Of w
  if funct7Of w = 0b0000000#7 then
    if f3 = 0b000#3 then .add rd rs1 rs2
    else if f3 = 0b001#3 then .sll rd rs1 rs2
    else if f3 = 0b010#3 then .slt rd rs1 rs2
    else if f3 = 0b011#3 then .sltu rd rs1 rs2
    else if f3 = 0b100#3 then .xor rd rs1 rs2
    else if f3 = 0b101#3 then .srl rd rs1 rs2
    else if f3 = 0b110#3 then .or rd rs1 rs2
    else .and rd rs1 rs2
  else if funct7Of w = 0b0100000#7 then
    if f3 = 0b000#3 then .sub rd rs1 rs2
    else if f3 = 0b101#3 then .sra rd rs1 rs2
    else .nop w
  else .nop w

/-- OP-IMM, 0010011: the I-type ALU instructions; the shifts check bits [31:25] (R94). -/
def decodeOpImm (w : Word) : Instr :=
  let rd := rdOf w; let rs1 := rs1Of w; let imm := immIOf w
  let f3 := funct3Of w
  if f3 = 0b000#3 then .addi rd rs1 imm
  else if f3 = 0b010#3 then .slti rd rs1 imm
  else if f3 = 0b011#3 then .sltiu rd rs1 imm
  else if f3 = 0b100#3 then .xori rd rs1 imm
  else if f3 = 0b110#3 then .ori rd rs1 imm
  else if f3 = 0b111#3 then .andi rd rs1 imm
  else if f3 = 0b001#3 then
    if funct7Of w = 0b0000000#7 then .slli rd rs1 (rs2Of w) else .nop w
  else
    if funct7Of w = 0b0000000#7 then .srli rd rs1 (rs2Of w)
    else if funct7Of w = 0b0100000#7 then .srai rd rs1 (rs2Of w)
    else .nop w

/-- LOAD, 0000011: funct3 010 is LW (R97); LB, LH, LBU and LHU follow NARROW_MEM (R101). -/
def decodeLoad (nm : NarrowMem) (w : Word) : Instr :=
  let f3 := funct3Of w
  let narrow := f3 = 0b000#3 ∨ f3 = 0b001#3 ∨ f3 = 0b100#3 ∨ f3 = 0b101#3
  if f3 = 0b010#3 ∨ (nm = .asWord ∧ narrow) then .lw (rdOf w) (rs1Of w) (immIOf w)
  else .nop w

/-- STORE, 0100011: funct3 010 is SW (R97); SB and SH follow NARROW_MEM (R101). -/
def decodeStore (nm : NarrowMem) (w : Word) : Instr :=
  let f3 := funct3Of w
  let narrow := f3 = 0b000#3 ∨ f3 = 0b001#3
  if f3 = 0b010#3 ∨ (nm = .asWord ∧ narrow) then .sw (rs2Of w) (rs1Of w) (immSOf w)
  else .nop w

/-- BRANCH, 1100011: funct3 010 and 011 are no-operations (R97). -/
def decodeBranch (w : Word) : Instr :=
  let rs1 := rs1Of w; let rs2 := rs2Of w; let off := immBOf w
  let f3 := funct3Of w
  if f3 = 0b000#3 then .beq rs1 rs2 off
  else if f3 = 0b001#3 then .bne rs1 rs2 off
  else if f3 = 0b100#3 then .blt rs1 rs2 off
  else if f3 = 0b101#3 then .bge rs1 rs2 off
  else if f3 = 0b110#3 then .bltu rs1 rs2 off
  else if f3 = 0b111#3 then .bgeu rs1 rs2 off
  else .nop w

/-- Decoding of one word, by major opcode (R95); every other word is a NOP (R235). -/
def decodeWord (nm : NarrowMem) (w : Word) : Instr :=
  let op := opcodeOf w
  if op = 0b0110011#7 then decodeOp w
  else if op = 0b0010011#7 then decodeOpImm w
  else if op = 0b0000011#7 then decodeLoad nm w
  else if op = 0b0100011#7 then decodeStore nm w
  else if op = 0b1100011#7 then decodeBranch w
  else if op = 0b1101111#7 then .jal (rdOf w) (immJOf w)
  else if op = 0b1100111#7 then
    if funct3Of w = 0b000#3 then .jalr (rdOf w) (rs1Of w) (immIOf w) else .nop w
  else if op = 0b0110111#7 then .lui (rdOf w) (immUOf w)
  else if op = 0b0010111#7 then .auipc (rdOf w) (immUOf w)
  else .nop w

/-! ## Bytes (R73: little-endian, bit 0 the least significant bit of the first byte) -/

/-- Why a byte sequence holds no instruction. -/
inductive DecodeError where
  /-- fewer than the four bytes of one instruction (R90) -/
  | truncated
deriving DecidableEq, Repr

/-- Byte `k` (0..3) of a word: bits [8k+7:8k] (R73). -/
def byteOf (w : Word) (k : Nat) : Byte := w.extractLsb' (8 * k) 8

/-- The word whose bytes are `b0` (lowest address) to `b3` (R73). -/
def wordOfBytes (b0 b1 b2 b3 : Byte) : Word := b3 ++ b2 ++ b1 ++ b0

/-- The four bytes of a word, lowest address first (R73). -/
def bytesOfWord (w : Word) : List Byte := [byteOf w 0, byteOf w 1, byteOf w 2, byteOf w 3]

/-- The instruction at the head of a byte sequence, with the rest of the sequence. -/
def decodeBytes (nm : NarrowMem) : List Byte → Except DecodeError (Instr × List Byte)
  | b0 :: b1 :: b2 :: b3 :: rest => .ok (decodeWord nm (wordOfBytes b0 b1 b2 b3), rest)
  | _ => .error .truncated

/-- The host's question: the instruction the decoder reads from the instruction whose low `nbits`
bits are `w` and whose other bits are 0 (32 bits in all, R90), laid out in the image's byte order,
under the spec's NARROW_MEM = nop. -/
def decodeTableWord (nbits w : Nat) : Option Instr :=
  match decodeBytes .nop (bytesOfWord (BitVec.ofNat 32 (w % 2 ^ nbits))) with
  | .ok (i, _) => some i
  | .error _ => none

/-! ## The encoder (R92) -/

/-- A field put at bit `k` of a word. -/
def place (k : Nat) {n : Nat} (v : BitVec n) : Word := v.setWidth 32 <<< k

/-- Format R, and I-shift with the shift amount in rs2's place. -/
def encodeR (f7 : BitVec 7) (f3 : BitVec 3) (op : BitVec 7) (rd rs1 rs2 : RegIdx) : Word :=
  place 25 f7 ||| place 20 rs2 ||| place 15 rs1 ||| place 12 f3 ||| place 7 rd ||| place 0 op

/-- Format I. -/
def encodeI (f3 : BitVec 3) (op : BitVec 7) (rd rs1 : RegIdx) (imm : BitVec 12) : Word :=
  place 20 imm ||| place 15 rs1 ||| place 12 f3 ||| place 7 rd ||| place 0 op

/-- Format S. -/
def encodeS (f3 : BitVec 3) (op : BitVec 7) (rs2 rs1 : RegIdx) (imm : BitVec 12) : Word :=
  place 25 (imm.extractLsb' 5 7) ||| place 20 rs2 ||| place 15 rs1 ||| place 12 f3 |||
    place 7 (imm.extractLsb' 0 5) ||| place 0 op

/-- Format B: bit 31 is imm[12], [30:25] imm[10:5], [11:8] imm[4:1], bit 7 imm[11]. -/
def encodeB (f3 : BitVec 3) (op : BitVec 7) (rs1 rs2 : RegIdx) (imm : BitVec 13) : Word :=
  place 31 (imm.extractLsb' 12 1) ||| place 25 (imm.extractLsb' 5 6) ||| place 20 rs2 |||
    place 15 rs1 ||| place 12 f3 ||| place 8 (imm.extractLsb' 1 4) |||
    place 7 (imm.extractLsb' 11 1) ||| place 0 op

/-- Format U. -/
def encodeU (op : BitVec 7) (rd : RegIdx) (imm : BitVec 20) : Word :=
  place 12 imm ||| place 7 rd ||| place 0 op

/-- Format J: bit 31 is imm[20], [30:21] imm[10:1], bit 20 imm[11], [19:12] imm[19:12]. -/
def encodeJ (op : BitVec 7) (rd : RegIdx) (imm : BitVec 21) : Word :=
  place 31 (imm.extractLsb' 20 1) ||| place 21 (imm.extractLsb' 1 10) |||
    place 20 (imm.extractLsb' 11 1) ||| place 12 (imm.extractLsb' 12 8) ||| place 7 rd |||
    place 0 op

/-- The word of an instruction (R92, R96); a NOP is its own word. -/
def encode : Instr → Word
  | .add rd rs1 rs2  => encodeR 0b0000000 0b000 0b0110011 rd rs1 rs2
  | .sub rd rs1 rs2  => encodeR 0b0100000 0b000 0b0110011 rd rs1 rs2
  | .sll rd rs1 rs2  => encodeR 0b0000000 0b001 0b0110011 rd rs1 rs2
  | .slt rd rs1 rs2  => encodeR 0b0000000 0b010 0b0110011 rd rs1 rs2
  | .sltu rd rs1 rs2 => encodeR 0b0000000 0b011 0b0110011 rd rs1 rs2
  | .xor rd rs1 rs2  => encodeR 0b0000000 0b100 0b0110011 rd rs1 rs2
  | .srl rd rs1 rs2  => encodeR 0b0000000 0b101 0b0110011 rd rs1 rs2
  | .sra rd rs1 rs2  => encodeR 0b0100000 0b101 0b0110011 rd rs1 rs2
  | .or rd rs1 rs2   => encodeR 0b0000000 0b110 0b0110011 rd rs1 rs2
  | .and rd rs1 rs2  => encodeR 0b0000000 0b111 0b0110011 rd rs1 rs2
  | .addi rd rs1 imm  => encodeI 0b000 0b0010011 rd rs1 imm
  | .slti rd rs1 imm  => encodeI 0b010 0b0010011 rd rs1 imm
  | .sltiu rd rs1 imm => encodeI 0b011 0b0010011 rd rs1 imm
  | .xori rd rs1 imm  => encodeI 0b100 0b0010011 rd rs1 imm
  | .ori rd rs1 imm   => encodeI 0b110 0b0010011 rd rs1 imm
  | .andi rd rs1 imm  => encodeI 0b111 0b0010011 rd rs1 imm
  | .slli rd rs1 sh => encodeR 0b0000000 0b001 0b0010011 rd rs1 sh
  | .srli rd rs1 sh => encodeR 0b0000000 0b101 0b0010011 rd rs1 sh
  | .srai rd rs1 sh => encodeR 0b0100000 0b101 0b0010011 rd rs1 sh
  | .lw rd rs1 imm  => encodeI 0b010 0b0000011 rd rs1 imm
  | .sw rs2 rs1 imm => encodeS 0b010 0b0100011 rs2 rs1 imm
  | .beq rs1 rs2 off  => encodeB 0b000 0b1100011 rs1 rs2 off
  | .bne rs1 rs2 off  => encodeB 0b001 0b1100011 rs1 rs2 off
  | .blt rs1 rs2 off  => encodeB 0b100 0b1100011 rs1 rs2 off
  | .bge rs1 rs2 off  => encodeB 0b101 0b1100011 rs1 rs2 off
  | .bltu rs1 rs2 off => encodeB 0b110 0b1100011 rs1 rs2 off
  | .bgeu rs1 rs2 off => encodeB 0b111 0b1100011 rs1 rs2 off
  | .jal rd off      => encodeJ 0b1101111 rd off
  | .jalr rd rs1 imm => encodeI 0b000 0b1100111 rd rs1 imm
  | .lui rd imm   => encodeU 0b0110111 rd imm
  | .auipc rd imm => encodeU 0b0010111 rd imm
  | .nop w => w

end Sys2Proof
end

