-- ==== Sys2Proof/Machine/Operands.lean ====
section
/-! DEFINITION. The operand forms: how each format fills the control fields of spec/30_encoding.md R98, with the
immediates of R93. The `alu` of a branch, of JAL and of NOP is unused and set to ADD (R98, D19). -/

namespace Sys2Proof.Machine

/-! ## Immediates (R93) -/

/-- I and S: `sext_12`. -/
def sext12 (imm : BitVec 12) : Word := imm.signExtend 32
/-- B: `sext_13`. -/
def sext13 (imm : BitVec 13) : Word := imm.signExtend 32
/-- J: `sext_21`. -/
def sext21 (imm : BitVec 21) : Word := imm.signExtend 32
/-- U: `{imm20, 0x000}`. -/
def upper20 (imm : BitVec 20) : Word := imm.setWidth 32 <<< 12
/-- I-shift: the 12-bit immediate is funct7 over the shift amount, sign-extended as any other (R94). -/
def shiftImm (funct7 : BitVec 7) (shamt : BitVec 5) : Word := (funct7 ++ shamt).signExtend 32

/-! ## Rows of R98 -/

/-- R-type: `dest = some rd` even for rd = 0 (D15). -/
def rType (op : AluOp) (rd rs1 rs2 : RegIdx) : Control :=
  { dest := some rd, alu := op, br := .none, mem := .none, imm := none,
    src1 := some rs1, src2 := some rs2 }

/-- I-type ALU, with the assembled immediate. -/
def iType (op : AluOp) (rd rs1 : RegIdx) (imm : Word) : Control :=
  { dest := some rd, alu := op, br := .none, mem := .none, imm := some imm,
    src1 := some rs1, src2 := none }

/-- LW: address = source + immediate. -/
def loadType (rd rs1 : RegIdx) (imm : Word) : Control :=
  { dest := some rd, alu := .add, br := .none, mem := .load, imm := some imm,
    src1 := some rs1, src2 := none }

/-- SW: no destination; both sources. -/
def storeType (rs2 rs1 : RegIdx) (imm : Word) : Control :=
  { dest := none, alu := .add, br := .none, mem := .store, imm := some imm,
    src1 := some rs1, src2 := some rs2 }

/-- The six conditional branches: no destination; both sources. -/
def branchType (kind : BrKind) (rs1 rs2 : RegIdx) (imm : Word) : Control :=
  { dest := none, alu := .add, br := kind, mem := .none, imm := some imm,
    src1 := some rs1, src2 := some rs2 }

/-- JAL: no source. -/
def jalType (rd : RegIdx) (imm : Word) : Control :=
  { dest := some rd, alu := .add, br := .jal, mem := .none, imm := some imm,
    src1 := none, src2 := none }

/-- JALR: one source. -/
def jalrType (rd rs1 : RegIdx) (imm : Word) : Control :=
  { dest := some rd, alu := .add, br := .jalr, mem := .none, imm := some imm,
    src1 := some rs1, src2 := none }

/-- LUI and AUIPC: no source. -/
def uType (op : AluOp) (rd : RegIdx) (imm : Word) : Control :=
  { dest := some rd, alu := op, br := .none, mem := .none, imm := some imm,
    src1 := none, src2 := none }

/-- The no-operation: a present payload with no destination and no source (R235, D19). -/
def nopType : Control :=
  { dest := none, alu := .add, br := .none, mem := .none, imm := none,
    src1 := none, src2 := none }

/-- The table of R98, row by row. -/
def controlOf : Instr → Control
  | .add rd rs1 rs2  => rType .add rd rs1 rs2
  | .sub rd rs1 rs2  => rType .sub rd rs1 rs2
  | .sll rd rs1 rs2  => rType .sll rd rs1 rs2
  | .slt rd rs1 rs2  => rType .slt rd rs1 rs2
  | .sltu rd rs1 rs2 => rType .sltu rd rs1 rs2
  | .xor rd rs1 rs2  => rType .xor rd rs1 rs2
  | .srl rd rs1 rs2  => rType .srl rd rs1 rs2
  | .sra rd rs1 rs2  => rType .sra rd rs1 rs2
  | .or rd rs1 rs2   => rType .or rd rs1 rs2
  | .and rd rs1 rs2  => rType .and rd rs1 rs2
  | .addi rd rs1 imm  => iType .add rd rs1 (sext12 imm)
  | .slti rd rs1 imm  => iType .slt rd rs1 (sext12 imm)
  | .sltiu rd rs1 imm => iType .sltu rd rs1 (sext12 imm)
  | .xori rd rs1 imm  => iType .xor rd rs1 (sext12 imm)
  | .ori rd rs1 imm   => iType .or rd rs1 (sext12 imm)
  | .andi rd rs1 imm  => iType .and rd rs1 (sext12 imm)
  | .slli rd rs1 sh => iType .sll rd rs1 (shiftImm 0b0000000 sh)
  | .srli rd rs1 sh => iType .srl rd rs1 (shiftImm 0b0000000 sh)
  | .srai rd rs1 sh => iType .sra rd rs1 (shiftImm 0b0100000 sh)
  | .lw rd rs1 imm  => loadType rd rs1 (sext12 imm)
  | .sw rs2 rs1 imm => storeType rs2 rs1 (sext12 imm)
  | .beq rs1 rs2 off  => branchType .beq rs1 rs2 (sext13 off)
  | .bne rs1 rs2 off  => branchType .bne rs1 rs2 (sext13 off)
  | .blt rs1 rs2 off  => branchType .blt rs1 rs2 (sext13 off)
  | .bge rs1 rs2 off  => branchType .bge rs1 rs2 (sext13 off)
  | .bltu rs1 rs2 off => branchType .bltu rs1 rs2 (sext13 off)
  | .bgeu rs1 rs2 off => branchType .bgeu rs1 rs2 (sext13 off)
  | .jal rd off      => jalType rd (sext21 off)
  | .jalr rd rs1 imm => jalrType rd rs1 (sext12 imm)
  | .lui rd imm   => uType .passImm rd (upper20 imm)
  | .auipc rd imm => uType .pcPlusImm rd (upper20 imm)
  | .nop _ => nopType

/-! ## Source fields (R99) -/

/-- The register decode checks and reads as source 1 (R99): under `used` the one the instruction
uses; under `raw` bits [19:15] of every word. -/
def source1 (hs : HazardSources) (c : Control) (inst : Word) : Option RegIdx :=
  match hs with
  | .used => c.src1
  | .raw  => some (rs1Of inst)

/-- The register decode checks and reads as source 2 (R99): bits [24:20] under `raw`. -/
def source2 (hs : HazardSources) (c : Control) (inst : Word) : Option RegIdx :=
  match hs with
  | .used => c.src2
  | .raw  => some (rs2Of inst)

/-- Operand 2 of execute (spec/40_pipeline.md R141): the immediate if present, else v2. -/
def operand2 (e : DEPayload) : Word :=
  match e.imm with
  | some i => i
  | none   => e.v2

end Sys2Proof.Machine
end

