-- ==== Sys2Proof/Machine/Ops.lean ====
section
/-! DEFINITION. The named operations over memory and registers, and the five stages of the pipeline with the
commit at the cycle boundary (spec/40_pipeline.md). The core has no exceptions (spec/60_exceptions.md R240): what
other machines do by taking an exception is here the abort of R243, a fault of the cycle, written
once in `cycleWith`. -/

namespace Sys2Proof.Machine

/-! ## Memory: bytes by address (spec/20_memory.md R71 to R73) -/

/-- The listed byte at an address. -/
def Memory.find : Memory → Nat → Option Byte
  | [], _ => none
  | (k, b) :: m, a => if k = a then some b else Memory.find m a

/-- The memory without an entry at an address. -/
def Memory.remove : Memory → Nat → Memory
  | [], _ => []
  | (k, b) :: m, a => if k = a then Memory.remove m a else (k, b) :: Memory.remove m a

/-- The memory with an entry at an address, put in address order. -/
def Memory.put : Memory → Nat → Byte → Memory
  | [], a, v => [(a, v)]
  | (k, b) :: m, a, v =>
    if a < k then (a, v) :: (k, b) :: m
    else if a = k then (a, v) :: m
    else (k, b) :: Memory.put m a v

/-- The byte at an address; `d` says what an unlisted address reads as. -/
def Memory.readByte (d : Nat → Byte) (m : Memory) (a : Nat) : Byte := (m.find a).getD (d a)

/-- A byte write; writing what an unlisted address reads as removes the entry. -/
def Memory.writeByte (d : Nat → Byte) (m : Memory) (a : Nat) (v : Byte) : Memory :=
  if v = d a then m.remove a else m.put a v

/-- The canonical form: addresses strictly rising, and no entry equal to what an unlisted address
reads as. -/
abbrev Memory.wf (d : Nat → Byte) (m : Memory) : Prop :=
  m.Pairwise (fun x y => x.1 < y.1) ∧ ∀ c ∈ m, c.2 ≠ d c.1

/-- Every listed address lies in the first `words` words: the memory is an array of that size. -/
abbrev Memory.within (words : Nat) (m : Memory) : Prop := ∀ c ∈ m, c.1 < 4 * words

/-- The word at word index `i` (R13, R73). -/
def Memory.readWord (d : Nat → Byte) (m : Memory) (i : Nat) : Word :=
  wordOfBytes (m.readByte d (4 * i)) (m.readByte d (4 * i + 1))
    (m.readByte d (4 * i + 2)) (m.readByte d (4 * i + 3))

/-- A write of the word at word index `i` (R13). -/
def Memory.writeWord (d : Nat → Byte) (m : Memory) (i : Nat) (v : Word) : Memory :=
  (((m.writeByte d (4 * i) (byteOf v 0)).writeByte d (4 * i + 1) (byteOf v 1)).writeByte d
    (4 * i + 2) (byteOf v 2)).writeByte d (4 * i + 3) (byteOf v 3)

/-- IMEM: "all untouched words at zero" (R272). -/
def imemUnlisted (_ : Nat) : Byte := 0#8

/-- DMEM: an address no store has written reads as DMEM_INIT (R51, R273). -/
def dmemUnlisted (p : Params) (a : Nat) : Byte := byteOf (p.dmemInit.getD (a / 4) 0#32) (a % 4)

/-- `IMemRead(i)` (R13). -/
def imemRead (m : Memory) (i : Nat) : Word := m.readWord imemUnlisted i

/-- `MemRead(i)` (R13). -/
def dmemRead (p : Params) (m : Memory) (i : Nat) : Word := m.readWord (dmemUnlisted p) i

/-- `MemWrite(i, v)` (R13). -/
def dmemWrite (p : Params) (m : Memory) (i : Nat) (v : Word) : Memory :=
  m.writeWord (dmemUnlisted p) i v

/-! ## Registers (spec/10_state.md R27 to R29) -/

/-- `x[r]`: x0 is hardwired zero (R28). -/
def RegFile.read (rf : RegFile) (r : RegIdx) : Word := if r = 0#5 then 0#32 else rf.get r.toFin

/-- `x[r] <- v`: register 0 is never written (R28, R155). -/
def RegFile.write (rf : RegFile) (r : RegIdx) (v : Word) : RegFile :=
  if r = 0#5 then rf else rf.set r.toNat v r.isLt

/-- Register r as an instruction reads it. -/
def State.readReg (s : State) (r : RegIdx) : Word := RegFile.read s.rf r

/-! ## Indexes and bounds -/

/-- FetchIndex (R124): the word index of a PC, or the abort, which carries every condition of R241 that
holds of the PC (R244). -/
def fetchIndex (p : Params) (pc : Word) : Except FetchAbort Nat :=
  if p.misalignedFetch = .fatal ∧ pc.extractLsb' 0 2 ≠ 0#2 then
    if p.imemWords ≤ (pc >>> 2).toNat then .error (.misalignedOutOfBounds pc)
    else .error (.misaligned pc)
  else if p.imemWords ≤ (pc >>> 2).toNat then .error (.outOfBounds pc)
  else .ok (pc >>> 2).toNat

/-- DataIndex (R150, R75): the word index of an effective address, whose low two bits are ignored,
or none where it is outside DMem. -/
def dataIndex (p : Params) (ea : Word) : Option Nat :=
  if p.dmemWords ≤ (ea >>> 2).toNat then none else some (ea >>> 2).toNat

/-! ## Decode (R125 to R134) -/

/-- The word decode works on: the saved payload if one is held, else the fetched one (R126). -/
def State.candidate (s : State) : Option FDPayload :=
  match s.saved with
  | some p => some p
  | none   => s.fd

/-- `sb1` (R125): the scoreboard with the completed register's bit cleared. -/
def State.released (s : State) : BitVec 32 :=
  match s.wbc with
  | some r => s.sb &&& ~~~(1#32 <<< r.toNat)
  | none   => s.sb

/-- `locked(r)` (R128): register 0 is never locked. -/
def locked (sb : BitVec 32) (r : RegIdx) : Bool := r != 0#5 && sb.getLsbD r.toNat

/-- `locked`, where there is a register. -/
def lockedOpt (sb : BitVec 32) : Option RegIdx → Bool
  | some r => locked sb r
  | none   => false

/-- The hazard condition of R128 for an instruction with control fields `c` in payload `p`. -/
def hazard (c : Control) (p : FDPayload) (s : State) : Bool :=
  lockedOpt s.released (source1 s.params.hazardSources c p.inst) ||
  lockedOpt s.released (source2 s.params.hazardSources c p.inst) ||
  (s.params.wawInterlock && lockedOpt s.released c.dest)

/-- A source value (R130): the register as committed, or 0 for a source that is not used. -/
def sourceValue (s : State) : Option RegIdx → Word
  | some r => s.readReg r
  | none   => 0#32

/-- The scoreboard with the destination locked (R131). -/
def lockDest (sb : BitVec 32) : Option RegIdx → BitVec 32
  | some rd => if rd = 0#5 then sb else sb ||| (1#32 <<< rd.toNat)
  | none    => sb

/-- What decode drives and writes in a cycle (R134). -/
structure DecodeOut where
  stall : Bool
  de    : Option DEPayload
  saved : Option FDPayload
  sb    : BitVec 32
deriving DecidableEq, Repr

/-- No instruction in decode (R133). -/
def decodeNothing (s : State) : DecodeOut :=
  { stall := false, de := none, saved := none, sb := s.released }

/-- The payload decode issues (R130). Under HAZARD_SOURCES = raw `v1` and `v2` are the registers of bits
[19:15] and [24:20] for every word, no-operations and unused sources included, as R99 and D10 say; R130
and D19 give 0 for an unused source, and R235 cites D19 for a no-operation. DEDUCED: which of the two
holds under raw is the model's choice (notes/assumptions/19.md); no later stage uses the value. -/
def issuePayload (c : Control) (p : FDPayload) (s : State) : DEPayload :=
  { dest := c.dest, alu := c.alu, br := c.br, mem := c.mem, imm := c.imm,
    v1 := sourceValue s (source1 s.params.hazardSources c p.inst),
    v2 := sourceValue s (source2 s.params.hazardSources c p.inst),
    pc := p.pc }

/-- Decode of an instruction with control fields `c` (R128 to R132): hold it under a hazard, else
issue it, lock its destination, and stall fetch iff it is a branch or jump. -/
def decodeStage (c : Control) (p : FDPayload) (s : State) : DecodeOut :=
  if hazard c p s then
    { stall := true, de := none, saved := some p, sb := s.released }
  else
    { stall := c.br != .none, de := some (issuePayload c p s), saved := none,
      sb := lockDest s.released c.dest }

/-! ## Execute (R140 to R146) -/

/-- The ALU (R142); a shift uses the low five bits of its operand. -/
def alu (op : AluOp) (v1 op2 pc : Word) : Word :=
  match op with
  | .add       => v1 + op2
  | .sub       => v1 - op2
  | .and       => v1 &&& op2
  | .or        => v1 ||| op2
  | .xor       => v1 ^^^ op2
  | .sll       => v1 <<< (op2.extractLsb' 0 5).toNat
  | .srl       => v1 >>> (op2.extractLsb' 0 5).toNat
  | .sra       => v1.sshiftRight (op2.extractLsb' 0 5).toNat
  | .slt       => boolWord (signedLess v1 op2)
  | .sltu      => boolWord (unsignedLess v1 op2)
  | .passImm   => op2
  | .pcPlusImm => pc + op2

/-- The target of R143. R143 gives no target to a payload without an immediate; decode produces
none for a branch or jump (notes/assumptions/18.md). -/
def branchTarget (e : DEPayload) : Option Word :=
  e.imm.map fun imm =>
    match e.br with
    | .jalr => (e.v1 + imm) &&& ~~~1#32
    | .none | .beq | .bne | .blt | .bge | .bltu | .bgeu | .jal => e.pc + imm

/-- What a payload in execute drives on `redirect` (R143). -/
def redirectOf (e : DEPayload) : Option Word :=
  if taken e.br e.v1 e.v2 then branchTarget e else none

/-- The ALU result of a payload in execute (R141, R142). -/
def aluResult (e : DEPayload) : Word := alu e.alu e.v1 (operand2 e) e.pc

/-- The write-back value (R144): both jump kinds write pc + 4. -/
def linkOrResult (e : DEPayload) : Word :=
  match e.br with
  | .jal | .jalr => e.pc + 4#32
  | .none | .beq | .bne | .blt | .bge | .bltu | .bgeu => aluResult e

/-- Execute's output for a payload (R145). -/
def executePayload (e : DEPayload) : EMPayload :=
  { res := aluResult e, sdata := e.v2, wbv := linkOrResult e, mem := e.mem, dest := e.dest }

/-- The redirect wire of this cycle: none with no payload (R140, R143). -/
def State.redirectWire (s : State) : Option Word := s.de.bind redirectOf

/-- EM' (R140, R145). -/
def executeStage (s : State) : Option EMPayload := s.de.map executePayload

/-! ## Fetch (R122 to R124) -/

/-- Fetch, in priority order: redirect, stall, fetch (R122, R123). Answers (PC', FD'). -/
def fetchStage (stall : Bool) (redirect : Option Word) (s : State) :
    Except FetchAbort (Word × Option FDPayload) :=
  match redirect with
  | some t => .ok (t, none)
  | none =>
    if stall then .ok (s.pc, none)
    else
      match fetchIndex s.params s.pc with
      | .error a => .error a
      | .ok i => .ok (s.pc + 4#32, some { inst := imemRead s.imem i, pc := s.pc })

/-! ## Memory (R150 to R152) -/

/-- The memory stage's work on one payload: MW' and the DMEM write, or the address out of bounds. -/
def accessMemory (p : Params) (dmem : Memory) (m : EMPayload) :
    Except Word (MWPayload × Option (Nat × Word)) :=
  match m.mem with
  | .none => .ok ({ val := m.wbv, dest := m.dest }, none)
  | .load =>
    match dataIndex p m.res with
    | none   => .error m.res
    | some i => .ok ({ val := dmemRead p dmem i, dest := m.dest }, none)
  | .store =>
    match dataIndex p m.res with
    | none   => .error m.res
    | some i => .ok ({ val := m.wbv, dest := m.dest }, some (i, m.sdata))

/-- The memory stage (R152): MW' and the DMEM write. -/
def memoryStage (s : State) : Except Word (Option MWPayload × Option (Nat × Word)) :=
  match s.em with
  | none => .ok (none, none)
  | some m =>
    match accessMemory s.params s.dmem m with
    | .error ea    => .error ea
    | .ok (w, st) => .ok (some w, st)

/-! ## Write-back (R155, R156) -/

/-- The register write and completion of write-back: nothing without a payload, without a
destination, or with destination 0. -/
def writeBack (mw : Option MWPayload) : Option (RegIdx × Word) :=
  match mw with
  | some { val := v, dest := some r } => if r = 0#5 then none else some (r, v)
  | some { val := _, dest := none } => none
  | none => none

/-! ## Abort reasons (R241, R244) -/

/-- The reasons of a fetch abort, in the order of R244. -/
def FetchAbort.reasons : FetchAbort → List AbortReason
  | .misaligned pc            => [.fetchMisaligned pc]
  | .outOfBounds pc           => [.fetchOutOfBounds pc]
  | .misalignedOutOfBounds pc => [.fetchMisaligned pc, .fetchOutOfBounds pc]

/-- The set of reasons of an abort, in the order of R244: DataOutOfBounds, FetchMisaligned,
FetchOutOfBounds. -/
def Fault.reasons : Fault → List AbortReason
  | .dataOutOfBounds ea => [.dataOutOfBounds ea]
  | .fetch r => r.reasons
  | .dataAndFetch ea r => .dataOutOfBounds ea :: r.reasons

/-- The fetch reason to name where a single one must be named (R244). -/
def FetchAbort.named : FetchAbort → AbortReason
  | .misaligned pc            => .fetchMisaligned pc
  | .outOfBounds pc           => .fetchOutOfBounds pc
  | .misalignedOutOfBounds pc => .fetchMisaligned pc

/-- The reason to name where a single one must be named (R244). -/
def Fault.named : Fault → AbortReason
  | .dataOutOfBounds ea => .dataOutOfBounds ea
  | .fetch r => r.named
  | .dataAndFetch ea _ => .dataOutOfBounds ea

/-- The place of a reason in the order of R244. -/
def AbortReason.rank : AbortReason → Nat
  | .dataOutOfBounds _  => 0
  | .fetchMisaligned _  => 1
  | .fetchOutOfBounds _ => 2

/-! ## Commit (R160) and the cycle (R120) -/

/-- RF with the write of this cycle. -/
def commitRf (rf : RegFile) : Option (RegIdx × Word) → RegFile
  | some (r, v) => RegFile.write rf r v
  | none => rf

/-- DMEM with the write of this cycle. -/
def commitDmem (p : Params) (m : Memory) : Option (Nat × Word) → Memory
  | some (i, v) => dmemWrite p m i v
  | none => m

/-- Commit (R160): every register takes its primed value at once; IMEM is unchanged. -/
def commit (d : DecodeOut) (f : Word × Option FDPayload)
    (m : Option MWPayload × Option (Nat × Word)) (s : State) : State :=
  { params := s.params
    pc     := f.1
    fd     := f.2
    saved  := d.saved
    de     := d.de
    em     := executeStage s
    mw     := m.1
    wbc    := (writeBack s.mw).map Prod.fst
    sb     := d.sb
    rf     := commitRf s.rf (writeBack s.mw)
    imem   := s.imem
    dmem   := commitDmem s.params s.dmem m.2 }

/-- One clock cycle, given what decode does in it (R120). If a stage aborts the cycle is the abort
and commits nothing (R243); every reason of both stages is carried (R244). -/
def cycleWith (d : DecodeOut) (s : State) : Result :=
  match memoryStage s, fetchStage d.stall s.redirectWire s with
  | .ok m,     .ok f    => .next (commit d f m s)
  | .error ea, .ok _    => .fault (.dataOutOfBounds ea)
  | .ok _,     .error a => .fault (.fetch a)
  | .error ea, .error a => .fault (.dataAndFetch ea a)

/-- The cycle in which decode has no instruction (R133). -/
def idleCycle (s : State) : Result := cycleWith (decodeNothing s) s

/-- The cycle in which decode holds an instruction with control fields `c`. Where the state holds
no instruction in decode there is none to issue, and the cycle is that of R133
(notes/assumptions/2.md); `step` never calls it there. -/
def decodeCycle (c : Control) (s : State) : Result :=
  match s.candidate with
  | none   => idleCycle s
  | some p => cycleWith (decodeStage c p s) s

/-! ## Presenting a word to decode -/

/-- The state one fetch of `w` at PC leaves, as far as fetch's own outputs go (R122 case 3): IMem
holds `w` at PC, FD holds it with its address, SAVED is empty, and PC has moved on by 4. A PC
outside IMem leaves IMEM alone. -/
def State.presentWord (s : State) (w : Word) : State :=
  { s with
    imem :=
      match fetchIndex s.params s.pc with
      | .ok i => s.imem.writeWord imemUnlisted i w
      | .error _ => s.imem
    saved := none
    fd := some { inst := w, pc := s.pc }
    pc := s.pc + 4#32 }

end Sys2Proof.Machine
end

