-- ==== Sys2Proof/Machine/Branch.lean ====
section
/-! DEFINITION. The conditional branches (spec/43_branches.md R210 to R216). A meaning is the
clock cycle in which decode holds the instruction (R120, notes/assumptions/1.md); the payload it issues
carries the rest of the effect through execute, memory and write-back. -/

namespace Sys2Proof.Machine

/-- BEQ rs1, rs2, offset (R211): taken iff `v1 == v2`, to `pc + sext_13(offset)`. -/
def execBeq (rs1 rs2 : RegIdx) (offset : BitVec 13) (s : State) : Result :=
  decodeCycle (branchType .beq rs1 rs2 (sext13 offset)) s

/-- BNE rs1, rs2, offset (R212): taken iff `v1 != v2`, to `pc + sext_13(offset)`. -/
def execBne (rs1 rs2 : RegIdx) (offset : BitVec 13) (s : State) : Result :=
  decodeCycle (branchType .bne rs1 rs2 (sext13 offset)) s

/-- BLT rs1, rs2, offset (R213): taken iff `signed(v1) < signed(v2)`, to `pc + sext_13(offset)`. -/
def execBlt (rs1 rs2 : RegIdx) (offset : BitVec 13) (s : State) : Result :=
  decodeCycle (branchType .blt rs1 rs2 (sext13 offset)) s

/-- BGE rs1, rs2, offset (R214): taken iff `signed(v1) >= signed(v2)`, to `pc + sext_13(offset)`. -/
def execBge (rs1 rs2 : RegIdx) (offset : BitVec 13) (s : State) : Result :=
  decodeCycle (branchType .bge rs1 rs2 (sext13 offset)) s

/-- BLTU rs1, rs2, offset (R215): taken iff `unsigned(v1) < unsigned(v2)`, to `pc + sext_13(offset)`. -/
def execBltu (rs1 rs2 : RegIdx) (offset : BitVec 13) (s : State) : Result :=
  decodeCycle (branchType .bltu rs1 rs2 (sext13 offset)) s

/-- BGEU rs1, rs2, offset (R216): taken iff `unsigned(v1) >= unsigned(v2)`, to `pc + sext_13(offset)`. -/
def execBgeu (rs1 rs2 : RegIdx) (offset : BitVec 13) (s : State) : Result :=
  decodeCycle (branchType .bgeu rs1 rs2 (sext13 offset)) s


end Sys2Proof.Machine
end

