-- ==== Sys2Proof/Machine/IType.lean ====
section
/-! DEFINITION. The I-type ALU instructions (spec/41_alu.md R170, R181 to R189). A meaning is the
clock cycle in which decode holds the instruction (R120, notes/assumptions/1.md); the payload it issues
carries the rest of the effect through execute, memory and write-back. -/

namespace Sys2Proof.Machine

/-- ADDI rd, rs1, imm (R181): `x[rd] <- v1 + sext_12(imm)`. -/
def execAddi (rd rs1 : RegIdx) (imm : BitVec 12) (s : State) : Result :=
  decodeCycle (iType .add rd rs1 (sext12 imm)) s

/-- SLTI rd, rs1, imm (R182): `x[rd] <- if signed(v1) < signed(sext_12(imm)) then 1 else 0`. -/
def execSlti (rd rs1 : RegIdx) (imm : BitVec 12) (s : State) : Result :=
  decodeCycle (iType .slt rd rs1 (sext12 imm)) s

/-- SLTIU rd, rs1, imm (R183): `x[rd] <- if unsigned(v1) < unsigned(sext_12(imm)) then 1 else 0`. -/
def execSltiu (rd rs1 : RegIdx) (imm : BitVec 12) (s : State) : Result :=
  decodeCycle (iType .sltu rd rs1 (sext12 imm)) s

/-- XORI rd, rs1, imm (R184): `x[rd] <- v1 ^ sext_12(imm)`. -/
def execXori (rd rs1 : RegIdx) (imm : BitVec 12) (s : State) : Result :=
  decodeCycle (iType .xor rd rs1 (sext12 imm)) s

/-- ORI rd, rs1, imm (R185): `x[rd] <- v1 | sext_12(imm)`. -/
def execOri (rd rs1 : RegIdx) (imm : BitVec 12) (s : State) : Result :=
  decodeCycle (iType .or rd rs1 (sext12 imm)) s

/-- ANDI rd, rs1, imm (R186): `x[rd] <- v1 & sext_12(imm)`. -/
def execAndi (rd rs1 : RegIdx) (imm : BitVec 12) (s : State) : Result :=
  decodeCycle (iType .and rd rs1 (sext12 imm)) s

/-- SLLI rd, rs1, shamt (R187, R94): `x[rd] <- v1 << imm[4:0]`. -/
def execSlli (rd rs1 : RegIdx) (shamt : BitVec 5) (s : State) : Result :=
  decodeCycle (iType .sll rd rs1 (shiftImm 0b0000000 shamt)) s

/-- SRLI rd, rs1, shamt (R188, R94): `x[rd] <- v1 >>u imm[4:0]`. -/
def execSrli (rd rs1 : RegIdx) (shamt : BitVec 5) (s : State) : Result :=
  decodeCycle (iType .srl rd rs1 (shiftImm 0b0000000 shamt)) s

/-- SRAI rd, rs1, shamt (R189, R94): `x[rd] <- v1 >>s imm[4:0]`. -/
def execSrai (rd rs1 : RegIdx) (shamt : BitVec 5) (s : State) : Result :=
  decodeCycle (iType .sra rd rs1 (shiftImm 0b0100000 shamt)) s


end Sys2Proof.Machine
end

