-- ==== Sys2Proof/Machine/Jump.lean ====
section
/-! DEFINITION. The unconditional jumps (spec/44_jumps.md R220 to R222). A meaning is the
clock cycle in which decode holds the instruction (R120, notes/assumptions/1.md); the payload it issues
carries the rest of the effect through execute, memory and write-back. -/

namespace Sys2Proof.Machine

/-- JAL rd, offset (R221): `pc_next <- pc + sext_21(offset)`, `x[rd] <- pc + 4`. -/
def execJal (rd : RegIdx) (offset : BitVec 21) (s : State) : Result :=
  decodeCycle (jalType rd (sext21 offset)) s

/-- JALR rd, imm(rs1) (R222): `pc_next <- (v1 + sext_12(imm)) & ~1`, `x[rd] <- pc + 4`. -/
def execJalr (rd rs1 : RegIdx) (imm : BitVec 12) (s : State) : Result :=
  decodeCycle (jalrType rd rs1 (sext12 imm)) s


end Sys2Proof.Machine
end

