-- ==== Sys2Proof/Machine/LoadStore.lean ====
section
/-! DEFINITION. The load and the store (spec/42_loads_stores.md R200 to R202). A meaning is the
clock cycle in which decode holds the instruction (R120, notes/assumptions/1.md); the payload it issues
carries the rest of the effect through execute, memory and write-back. -/

namespace Sys2Proof.Machine

/-- LW rd, imm(rs1) (R201): ea = v1 + sext_12(imm); the memory stage aborts outside DMem, else
`x[rd] <- MemRead(ea >> 2)` in write-back. -/
def execLw (rd rs1 : RegIdx) (imm : BitVec 12) (s : State) : Result :=
  decodeCycle (loadType rd rs1 (sext12 imm)) s

/-- SW rs2, imm(rs1) (R202): ea = v1 + sext_12(imm); the memory stage aborts outside DMem, else
`MemWrite(ea >> 2, v2)`. -/
def execSw (rs2 rs1 : RegIdx) (imm : BitVec 12) (s : State) : Result :=
  decodeCycle (storeType rs2 rs1 (sext12 imm)) s


end Sys2Proof.Machine
end

