-- ==== Sys2Proof/Machine/Nop.lean ====
section
/-! DEFINITION. The no-operation (spec/46_unrecognized.md R235, R236). A meaning is the
clock cycle in which decode holds the instruction (R120, notes/assumptions/1.md); the payload it issues
carries the rest of the effect through execute, memory and write-back. -/

namespace Sys2Proof.Machine

/-- NOP (R235): no destination and no side effect, for every word that matches no row of R96. The
payload is present and takes one issue slot. -/
def execNop (_word : Word) (s : State) : Result :=
  decodeCycle nopType s


end Sys2Proof.Machine
end

