-- ==== Sys2Proof/Machine/RType.lean ====
section
/-! DEFINITION. The R-type instructions (spec/41_alu.md R170 to R180). A meaning is the
clock cycle in which decode holds the instruction (R120, notes/assumptions/1.md); the payload it issues
carries the rest of the effect through execute, memory and write-back. -/

namespace Sys2Proof.Machine

/-- ADD rd, rs1, rs2 (R171): `x[rd] <- v1 + v2`. -/
def execAdd (rd rs1 rs2 : RegIdx) (s : State) : Result :=
  decodeCycle (rType .add rd rs1 rs2) s

/-- SUB rd, rs1, rs2 (R172): `x[rd] <- v1 - v2`. -/
def execSub (rd rs1 rs2 : RegIdx) (s : State) : Result :=
  decodeCycle (rType .sub rd rs1 rs2) s

/-- SLL rd, rs1, rs2 (R173): `x[rd] <- v1 << v2[4:0]`. -/
def execSll (rd rs1 rs2 : RegIdx) (s : State) : Result :=
  decodeCycle (rType .sll rd rs1 rs2) s

/-- SLT rd, rs1, rs2 (R174): `x[rd] <- if signed(v1) < signed(v2) then 1 else 0`. -/
def execSlt (rd rs1 rs2 : RegIdx) (s : State) : Result :=
  decodeCycle (rType .slt rd rs1 rs2) s

/-- SLTU rd, rs1, rs2 (R175): `x[rd] <- if unsigned(v1) < unsigned(v2) then 1 else 0`. -/
def execSltu (rd rs1 rs2 : RegIdx) (s : State) : Result :=
  decodeCycle (rType .sltu rd rs1 rs2) s

/-- XOR rd, rs1, rs2 (R176): `x[rd] <- v1 ^ v2`. -/
def execXor (rd rs1 rs2 : RegIdx) (s : State) : Result :=
  decodeCycle (rType .xor rd rs1 rs2) s

/-- SRL rd, rs1, rs2 (R177): `x[rd] <- v1 >>u v2[4:0]`. -/
def execSrl (rd rs1 rs2 : RegIdx) (s : State) : Result :=
  decodeCycle (rType .srl rd rs1 rs2) s

/-- SRA rd, rs1, rs2 (R178): `x[rd] <- v1 >>s v2[4:0]`. -/
def execSra (rd rs1 rs2 : RegIdx) (s : State) : Result :=
  decodeCycle (rType .sra rd rs1 rs2) s

/-- OR rd, rs1, rs2 (R179): `x[rd] <- v1 | v2`. -/
def execOr (rd rs1 rs2 : RegIdx) (s : State) : Result :=
  decodeCycle (rType .or rd rs1 rs2) s

/-- AND rd, rs1, rs2 (R180): `x[rd] <- v1 & v2`. -/
def execAnd (rd rs1 rs2 : RegIdx) (s : State) : Result :=
  decodeCycle (rType .and rd rs1 rs2) s


end Sys2Proof.Machine
end

