-- ==== Sys2Proof/Machine/Upper.lean ====
section
/-! DEFINITION. The upper-immediate instructions (spec/45_upper_immediate.md R230 to R232). A meaning is the
clock cycle in which decode holds the instruction (R120, notes/assumptions/1.md); the payload it issues
carries the rest of the effect through execute, memory and write-back. -/

namespace Sys2Proof.Machine

/-- LUI rd, imm20 (R231): `x[rd] <- (imm20, 0x000)`. -/
def execLui (rd : RegIdx) (imm20 : BitVec 20) (s : State) : Result :=
  decodeCycle (uType .passImm rd (upper20 imm20)) s

/-- AUIPC rd, imm20 (R232): `x[rd] <- pc + (imm20, 0x000)`, pc the AUIPC's own address. -/
def execAuipc (rd : RegIdx) (imm20 : BitVec 20) (s : State) : Result :=
  decodeCycle (uType .pcPlusImm rd (upper20 imm20)) s


end Sys2Proof.Machine
end

