-- ==== Sys2Proof/Machine/Step.lean ====
section
/-! DEFINITION. One step: one clock cycle of one core (spec/00_scope.md R8, spec/40_pipeline.md R120). -/

namespace Sys2Proof.Machine

/-- One clock cycle. Decode works on the candidate of R126; the cycle is the meaning of the
instruction its word decodes to (R127), or the cycle of R133 where decode has no instruction. -/
def step (s : State) : Host.Outcome State Fault Refusal :=
  match s.candidate with
  | none   => idleCycle s
  | some p => exec (decodeWord s.params.narrowMem p.inst) s

/-- `s` with the 32-bit word whose low `nbits` bits are `w` fetched and waiting in decode, so that
the very next step runs exactly it. From `State.reset` it is the state that cycle 0 reaches when
IMem word 0 holds the word (notes/assumptions/17.md). -/
def State.withFetchWord (s : State) (nbits w : Nat) : State :=
  s.presentWord (BitVec.ofNat 32 (w % 2 ^ nbits))

end Sys2Proof.Machine
end

