-- ==== Sys2Proof/Machine/Launch.lean ====
section
/-! DEFINITION. Launch (spec/70_reset_and_hazards.md R270 to R275): the initial state of one core from the
OPEN launch inputs of spec/00_scope.md R9. -/

namespace Sys2Proof.Machine

/-- IMEM with the given words from word `i` on (R272, R73). -/
def imageFrom : Nat → List Word → Memory → Memory
  | _, [], m => m
  | i, w :: ws, m => imageFrom (i + 1) ws (m.writeWord imemUnlisted i w)

/-- IMEM_INIT: the image's words from word 0 on, every other word 0 (R272). -/
def imageOf (ws : List Word) : Memory := imageFrom 0 ws []

/-- The launch inputs (R9): the parameters, the program image, SP_INIT and RF_INIT. -/
structure LaunchInput where
  params : Params
  /-- IMEM_INIT, word 0 first -/
  image  : List Word
  /-- SP_INIT, the initial x2 -/
  spInit : Word
  /-- RF_INIT, the initial x1 and x3 to x31 (entries 0 and 2 are not used) -/
  rfInit : RegFile
deriving DecidableEq, Repr

/-- The inputs with the spec's SP_INIT and RF_INIT (D7, D8). -/
def LaunchInput.standard (p : Params) (image : List Word) : LaunchInput :=
  { params := p, image := image, spInit := spInitOf p, rfInit := Vector.replicate 32 0#32 }

/-- Inputs a run can start from: legal sizes (R9) and an image that fits (R7, R272). -/
def LaunchInput.legal (l : LaunchInput) : Bool :=
  l.params.legal && decide (l.image.length ≤ l.params.imemWords)

/-- The state at launch (R51): PC 0, an empty pipeline, no lock. -/
def State.launch (l : LaunchInput) : State where
  params := l.params
  pc     := 0#32
  fd     := none
  saved  := none
  de     := none
  em     := none
  mw     := none
  wbc    := none
  sb     := 0#32
  rf     := (l.rfInit.set 0 0#32).set 2 l.spInit
  imem   := imageOf l.image
  dmem   := []

end Sys2Proof.Machine
end

