-- ==== Sys2Proof/Machine/Observe.lean ====
section
/-! DEFINITION. What an observer of one cycle sees beside the committed state: the stall wire, the instruction
decode issues, and the instructions issued over a run (the trace columns of spec/95_test_vectors.md).
Nothing here changes what a step does. -/

namespace Sys2Proof.Machine

/-- The control fields of the word decode works on (R127). -/
def candidateControl (s : State) (p : FDPayload) : Control :=
  controlOf (decodeWord s.params.narrowMem p.inst)

/-- What decode does in this cycle (R134). -/
def State.decodeOut (s : State) : DecodeOut :=
  match s.candidate with
  | none   => decodeNothing s
  | some p => decodeStage (candidateControl s p) p s

/-- The stall wire of this cycle (R45). -/
def State.stallWire (s : State) : Bool := s.decodeOut.stall

/-- Decode holds an instruction back in this cycle (R129). -/
def State.hazardStall (s : State) : Bool :=
  match s.candidate with
  | none   => false
  | some p => hazard (candidateControl s p) p s

/-- The instruction decode issues in this cycle (R130). -/
def State.issued (s : State) : Option Instr :=
  match s.candidate with
  | none   => none
  | some p =>
    if hazard (candidateControl s p) p s then none
    else some (decodeWord s.params.narrowMem p.inst)

/-- Decode holds the instruction `i`, as payload `p` (R126, R127). -/
def State.decodeHolds (s : State) (p : FDPayload) (i : Instr) : Prop :=
  s.candidate = some p ∧ decodeWord s.params.narrowMem p.inst = i

/-- `k` clock cycles (Host.Core.run of the core). -/
def cycles (k : Nat) (s : State) : Host.Outcome State Fault Refusal :=
  match k with
  | 0 => .next s
  | k + 1 =>
    match step s with
    | .next t    => cycles k t
    | .fault f   => .fault f
    | .refused r => .refused r

/-- The instructions decode issues in the first `k` cycles, oldest first. -/
def issuedIn : Nat → State → List Instr
  | 0, _ => []
  | k + 1, s =>
    s.issued.toList ++
      match step s with
      | .next t => issuedIn k t
      | .fault _ => []
      | .refused _ => []

end Sys2Proof.Machine
end

