-- ==== Sys2Proof/Machine/Sequential.lean ====
section
/-! DEFINITION. The one-instruction-at-a-time reading (spec/40_pipeline.md R164): each instruction runs to
completion, then pc moves on. It is written from the instruction-level pseudocode of R171 to R235,
not from the stage rules, so that the equivalence of R164 says something about both. The machine of
`step` does not use it. -/

namespace Sys2Proof.Machine

/-- What an instruction-level reader sees of a core. -/
structure Arch where
  params : Params
  pc     : Word
  rf     : RegFile
  imem   : Memory
  dmem   : Memory
deriving DecidableEq, Repr

abbrev SeqResult := Host.Outcome Arch Fault Refusal

/-- Register r as read. -/
def Arch.reg (a : Arch) (r : RegIdx) : Word := RegFile.read a.rf r

/-- Write rd and go on at pc + 4. -/
def Arch.put (a : Arch) (rd : RegIdx) (v : Word) : Arch :=
  { a with rf := RegFile.write a.rf rd v, pc := a.pc + 4#32 }

/-- Branch to pc + sext_13(offset) if the condition holds, else go on at pc + 4. -/
def Arch.branchIf (a : Arch) (cond : Prop) [Decidable cond] (offset : BitVec 13) : Arch :=
  { a with pc := if cond then a.pc + offset.signExtend 32 else a.pc + 4#32 }

/-- Write the link value pc + 4 to rd and go on at the target. -/
def Arch.link (a : Arch) (rd : RegIdx) (target : Word) : Arch :=
  { a with rf := RegFile.write a.rf rd (a.pc + 4#32), pc := target }

/-- The effect of one instruction at a.pc (R171 to R222, R231, R232, R235). -/
def Arch.exec (i : Instr) (a : Arch) : SeqResult :=
  match i with
  | .add rd rs1 rs2  => .next (a.put rd (a.reg rs1 + a.reg rs2))
  | .sub rd rs1 rs2  => .next (a.put rd (a.reg rs1 - a.reg rs2))
  | .sll rd rs1 rs2  => .next (a.put rd (a.reg rs1 <<< ((a.reg rs2).toNat % 32)))
  | .slt rd rs1 rs2  => .next (a.put rd (if (a.reg rs1).toInt < (a.reg rs2).toInt then 1#32 else 0#32))
  | .sltu rd rs1 rs2 => .next (a.put rd (if (a.reg rs1).toNat < (a.reg rs2).toNat then 1#32 else 0#32))
  | .xor rd rs1 rs2  => .next (a.put rd (a.reg rs1 ^^^ a.reg rs2))
  | .srl rd rs1 rs2  => .next (a.put rd (a.reg rs1 >>> ((a.reg rs2).toNat % 32)))
  | .sra rd rs1 rs2  => .next (a.put rd ((a.reg rs1).sshiftRight ((a.reg rs2).toNat % 32)))
  | .or rd rs1 rs2   => .next (a.put rd (a.reg rs1 ||| a.reg rs2))
  | .and rd rs1 rs2  => .next (a.put rd (a.reg rs1 &&& a.reg rs2))
  | .addi rd rs1 imm => .next (a.put rd (a.reg rs1 + imm.signExtend 32))
  | .slti rd rs1 imm => .next (a.put rd (if (a.reg rs1).toInt < imm.toInt then 1#32 else 0#32))
  | .sltiu rd rs1 imm =>
    .next (a.put rd (if (a.reg rs1).toNat < (imm.signExtend 32).toNat then 1#32 else 0#32))
  | .xori rd rs1 imm => .next (a.put rd (a.reg rs1 ^^^ imm.signExtend 32))
  | .ori rd rs1 imm  => .next (a.put rd (a.reg rs1 ||| imm.signExtend 32))
  | .andi rd rs1 imm => .next (a.put rd (a.reg rs1 &&& imm.signExtend 32))
  | .slli rd rs1 sh  => .next (a.put rd (a.reg rs1 <<< sh.toNat))
  | .srli rd rs1 sh  => .next (a.put rd (a.reg rs1 >>> sh.toNat))
  | .srai rd rs1 sh  => .next (a.put rd ((a.reg rs1).sshiftRight sh.toNat))
  | .lw rd rs1 imm =>
    let ea := a.reg rs1 + imm.signExtend 32
    if ea.toNat / 4 < a.params.dmemWords
    then .next (a.put rd (dmemRead a.params a.dmem (ea.toNat / 4)))
    else .fault (.dataOutOfBounds ea)
  | .sw rs2 rs1 imm =>
    let ea := a.reg rs1 + imm.signExtend 32
    if ea.toNat / 4 < a.params.dmemWords
    then .next { a with dmem := dmemWrite a.params a.dmem (ea.toNat / 4) (a.reg rs2), pc := a.pc + 4#32 }
    else .fault (.dataOutOfBounds ea)
  | .beq rs1 rs2 off  => .next (a.branchIf (a.reg rs1 = a.reg rs2) off)
  | .bne rs1 rs2 off  => .next (a.branchIf (a.reg rs1 ≠ a.reg rs2) off)
  | .blt rs1 rs2 off  => .next (a.branchIf ((a.reg rs1).toInt < (a.reg rs2).toInt) off)
  | .bge rs1 rs2 off  => .next (a.branchIf ((a.reg rs2).toInt ≤ (a.reg rs1).toInt) off)
  | .bltu rs1 rs2 off => .next (a.branchIf ((a.reg rs1).toNat < (a.reg rs2).toNat) off)
  | .bgeu rs1 rs2 off => .next (a.branchIf ((a.reg rs2).toNat ≤ (a.reg rs1).toNat) off)
  | .jal rd off       => .next (a.link rd (a.pc + off.signExtend 32))
  | .jalr rd rs1 imm  => .next (a.link rd ((a.reg rs1 + imm.signExtend 32) &&& 0xFFFFFFFE#32))
  | .lui rd imm20     => .next (a.put rd (imm20 ++ 0x000#12))
  | .auipc rd imm20   => .next (a.put rd (a.pc + (imm20 ++ 0x000#12)))
  | .nop _            => .next { a with pc := a.pc + 4#32 }

/-- One instruction: fetch the word at pc (R124), decode it, run it. -/
def Arch.step (a : Arch) : SeqResult :=
  match fetchIndex a.params a.pc with
  | .error r => .fault (.fetch r)
  | .ok i    => Arch.exec (decodeWord a.params.narrowMem (imemRead a.imem i)) a

/-- `k` instructions, stopping at the first abort. -/
def Arch.run : Nat → Arch → SeqResult
  | 0, a => .next a
  | k + 1, a =>
    match a.step with
    | .next b    => Arch.run k b
    | .fault f   => .fault f
    | .refused r => .refused r

/-- The first `k` instructions the sequential reading visits, in order. -/
def Arch.visits : Nat → Arch → List Instr
  | 0, _ => []
  | k + 1, a =>
    match fetchIndex a.params a.pc with
    | .error _ => []
    | .ok i =>
      decodeWord a.params.narrowMem (imemRead a.imem i) ::
        match a.step with
        | .next b    => Arch.visits k b
        | .fault _   => []
        | .refused _ => []

/-- The architectural part of a core's state. -/
def State.arch (s : State) : Arch :=
  { params := s.params, pc := s.pc, rf := s.rf, imem := s.imem, dmem := s.dmem }

/-- The address of the next instruction decode will issue after the ones it has issued: the
pending redirect target, else the instruction waiting in decode, else PC. -/
def State.nextIssuePc (s : State) : Word :=
  match s.redirectWire with
  | some t => t
  | none =>
    match s.candidate with
    | some p => p.pc
    | none   => s.pc

/-- The architectural state that the instructions issued so far lead to: what is still in
write-back, memory and execute is carried out in that order. Where FD, SAVED, DE, EM and MW are all
none it is `State.arch`. -/
def State.drain (s : State) : SeqResult :=
  match memoryStage s with
  | .error ea => .fault (.dataOutOfBounds ea)
  | .ok (w, st) =>
    let rf   := commitRf (commitRf s.rf (writeBack s.mw)) (writeBack w)
    let dmem := commitDmem s.params s.dmem st
    match s.de with
    | none => .next { params := s.params, pc := s.nextIssuePc, rf := rf, imem := s.imem, dmem := dmem }
    | some e =>
      match accessMemory s.params dmem (executePayload e) with
      | .error ea => .fault (.dataOutOfBounds ea)
      | .ok (w', st') =>
        .next { params := s.params, pc := s.nextIssuePc, rf := commitRf rf (writeBack (some w')),
                imem := s.imem, dmem := commitDmem s.params dmem st' }

end Sys2Proof.Machine
end

