-- ==== Sys2Proof/Machine/Assembler.lean ====
section
/-! DEFINITION. Assembler syntax and pseudo-instructions (spec/30_encoding.md R110 to R113). The machine of `step`
uses none of it; the syntax beyond the source's examples and the expansions are the spec's general
knowledge (notes/assumptions/23.md). -/

namespace Sys2Proof.Machine

/-! ## Syntax (R110 to R112) -/

/-- `xN` (R110, R112). -/
def regName (r : RegIdx) : String := "x" ++ toString r.toNat

/-- The ABI names of R112, x0 first. -/
def abiNames : List String :=
  ["zero", "ra", "sp", "gp", "tp", "t0", "t1", "t2", "s0", "s1"] ++
  ["a0", "a1", "a2", "a3", "a4", "a5", "a6", "a7"] ++
  ["s2", "s3", "s4", "s5", "s6", "s7", "s8", "s9", "s10", "s11"] ++
  ["t3", "t4", "t5", "t6"]

/-- The ABI name of a register (R112); s0 is also fp. -/
def abiName (r : RegIdx) : String := abiNames.getD r.toNat ""

/-- A decimal immediate (R110). -/
def decimal (i : Int) : String :=
  match i with
  | .ofNat n   => toString n
  | .negSucc n => "-" ++ toString (n + 1)

/-- A branch offset, with an explicit sign (R110). -/
def signedOffset (i : Int) : String := if 0 ≤ i then "+" ++ decimal i else decimal i

/-- `OP a, b, c`. -/
def threeOperands (m a b c : String) : String := m ++ " " ++ a ++ ", " ++ b ++ ", " ++ c

/-- `OP r, imm(base)`. -/
def memoryOperands (m : String) (r : RegIdx) (imm : BitVec 12) (base : RegIdx) : String :=
  m ++ " " ++ regName r ++ ", " ++ decimal imm.toInt ++ "(" ++ regName base ++ ")"

/-- The operands of an instruction in the assembler's order (R111). A no-operation word has no
syntax. -/
def asm (i : Instr) : Option String :=
  match i with
  | .add rd rs1 rs2 | .sub rd rs1 rs2 | .sll rd rs1 rs2 | .slt rd rs1 rs2 | .sltu rd rs1 rs2
  | .xor rd rs1 rs2 | .srl rd rs1 rs2 | .sra rd rs1 rs2 | .or rd rs1 rs2 | .and rd rs1 rs2 =>
    some (threeOperands i.mnemonic (regName rd) (regName rs1) (regName rs2))
  | .addi rd rs1 imm | .slti rd rs1 imm | .sltiu rd rs1 imm | .xori rd rs1 imm | .ori rd rs1 imm
  | .andi rd rs1 imm =>
    some (threeOperands i.mnemonic (regName rd) (regName rs1) (decimal imm.toInt))
  | .slli rd rs1 sh | .srli rd rs1 sh | .srai rd rs1 sh =>
    some (threeOperands i.mnemonic (regName rd) (regName rs1) (decimal sh.toNat))
  | .lw rd rs1 imm | .jalr rd rs1 imm => some (memoryOperands i.mnemonic rd imm rs1)
  | .sw rs2 rs1 imm => some (memoryOperands i.mnemonic rs2 imm rs1)
  | .beq rs1 rs2 off | .bne rs1 rs2 off | .blt rs1 rs2 off | .bge rs1 rs2 off | .bltu rs1 rs2 off
  | .bgeu rs1 rs2 off =>
    some (threeOperands i.mnemonic (regName rs1) (regName rs2) (signedOffset off.toInt))
  | .jal rd off => some (i.mnemonic ++ " " ++ regName rd ++ ", " ++ decimal off.toInt)
  | .lui rd imm20 | .auipc rd imm20 =>
    some (i.mnemonic ++ " " ++ regName rd ++ ", " ++ decimal imm20.toNat)
  | .nop _ => none

/-! ## Pseudo-instructions (R113) -/

/-- The pseudo-instructions that expand only to recognised instructions. A symbol of `la`, `call` and
`tail` is its distance from the first expanded instruction. -/
inductive Pseudo where
  | nop
  | li (rd : RegIdx) (imm : Word)
  | mv (rd rs : RegIdx)
  | not (rd rs : RegIdx)
  | neg (rd rs : RegIdx)
  | seqz (rd rs : RegIdx)
  | snez (rd rs : RegIdx)
  | sltz (rd rs : RegIdx)
  | sgtz (rd rs : RegIdx)
  | beqz (rs : RegIdx) (off : BitVec 13)
  | bnez (rs : RegIdx) (off : BitVec 13)
  | blez (rs : RegIdx) (off : BitVec 13)
  | bgez (rs : RegIdx) (off : BitVec 13)
  | bltz (rs : RegIdx) (off : BitVec 13)
  | bgtz (rs : RegIdx) (off : BitVec 13)
  | bgt (rs rt : RegIdx) (off : BitVec 13)
  | ble (rs rt : RegIdx) (off : BitVec 13)
  | bgtu (rs rt : RegIdx) (off : BitVec 13)
  | bleu (rs rt : RegIdx) (off : BitVec 13)
  | j (off : BitVec 21)
  | jal (off : BitVec 21)
  | jr (rs : RegIdx)
  | jalr (rs : RegIdx)
  | ret
  | la (rd : RegIdx) (distance : Word)
  | call (distance : Word)
  | tail (distance : Word)
deriving DecidableEq, Repr

/-- The upper part of `li`: `(imm + 0x800) >> 12`. -/
def upperPart (imm : Word) : BitVec 20 := (imm + 0x800#32).extractLsb' 12 20

/-- The lower part of `li`: imm[11:0], as a signed number. -/
def lowerPart (imm : Word) : BitVec 12 := imm.extractLsb' 0 12

/-- The expansion of R113. -/
def Pseudo.expand : Pseudo → List Instr
  | .nop => [.addi 0#5 0#5 0#12]
  | .li rd imm =>
    if -2048 ≤ imm.toInt ∧ imm.toInt ≤ 2047 then [.addi rd 0#5 (lowerPart imm)]
    else [.lui rd (upperPart imm), .addi rd rd (lowerPart imm)]
  | .mv rd rs => [.addi rd rs 0#12]
  | .not rd rs => [.xori rd rs 0xFFF#12]
  | .neg rd rs => [.sub rd 0#5 rs]
  | .seqz rd rs => [.sltiu rd rs 1#12]
  | .snez rd rs => [.sltu rd 0#5 rs]
  | .sltz rd rs => [.slt rd rs 0#5]
  | .sgtz rd rs => [.slt rd 0#5 rs]
  | .beqz rs off => [.beq rs 0#5 off]
  | .bnez rs off => [.bne rs 0#5 off]
  | .blez rs off => [.bge 0#5 rs off]
  | .bgez rs off => [.bge rs 0#5 off]
  | .bltz rs off => [.blt rs 0#5 off]
  | .bgtz rs off => [.blt 0#5 rs off]
  | .bgt rs rt off => [.blt rt rs off]
  | .ble rs rt off => [.bge rt rs off]
  | .bgtu rs rt off => [.bltu rt rs off]
  | .bleu rs rt off => [.bgeu rt rs off]
  | .j off => [.jal 0#5 off]
  | .jal off => [.jal 1#5 off]
  | .jr rs => [.jalr 0#5 rs 0#12]
  | .jalr rs => [.jalr 1#5 rs 0#12]
  | .ret => [.jalr 0#5 1#5 0#12]
  | .la rd d => [.auipc rd (upperPart d), .addi rd rd (lowerPart d)]
  | .call d => [.auipc 1#5 (upperPart d), .jalr 1#5 1#5 (lowerPart d)]
  | .tail d => [.auipc 6#5 (upperPart d), .jalr 0#5 6#5 (lowerPart d)]

/-- A list of instructions one after the other, in the instruction-level reading. -/
def Arch.execAll : List Instr → Arch → SeqResult
  | [], a => .next a
  | i :: is, a =>
    match Arch.exec i a with
    | .next b    => Arch.execAll is b
    | .fault f   => .fault f
    | .refused r => .refused r

end Sys2Proof.Machine
end

