-- ==== Sys2Proof/Machine/Cores.lean ====
section
/-! DEFINITION. A run of N_CORES independent cores (spec/60_exceptions.md R243, R244, R251 to R253): every
cycle advances every core; an abort on any core ends the run, with nothing committed on any core. -/

namespace Sys2Proof.Machine

/-- An abort reason with the index of the core it occurred on (R241, R251, D4). -/
structure CoreAbort where
  core   : Nat
  reason : AbortReason
deriving DecidableEq, Repr

/-- A run (R243): running, or Aborted(reasons, last committed state). -/
inductive Run where
  | running (cores : List State)
  | aborted (reasons : List CoreAbort) (last : List State)
deriving DecidableEq, Repr

/-- The states of all cores after a cycle, if no core stopped in it. -/
def allNext : List (Host.Outcome State Fault Refusal) → Option (List State)
  | [] => some []
  | .next t :: os => (allNext os).map (t :: ·)
  | .fault _ :: _ => none
  | .refused _ :: _ => none

/-- The reasons of a cycle in the order of R244: lowest core index first, then within a core
DataOutOfBounds, FetchMisaligned, FetchOutOfBounds. -/
def abortReasons : Nat → List (Host.Outcome State Fault Refusal) → List CoreAbort
  | _, [] => []
  | n, .fault f :: os => f.reasons.map (fun r => ⟨n, r⟩) ++ abortReasons (n + 1) os
  | n, .next _ :: os => abortReasons (n + 1) os
  | n, .refused _ :: os => abortReasons (n + 1) os

/-- One cycle of a run (R251, R243). An aborted run is terminal: no further cycle runs. -/
def Run.cycle : Run → Run
  | .aborted rs last => .aborted rs last
  | .running cores =>
    match allNext (cores.map step) with
    | some next => .running next
    | none      => .aborted (abortReasons 0 (cores.map step)) cores

/-- `k` cycles of a run. -/
def Run.cycles : Nat → Run → Run
  | 0, r => r
  | k + 1, r => Run.cycles k r.cycle

/-- Launch of N_CORES cores, each from the same inputs (R251, R253, R275). A count of 0, sizes
outside R9's bounds and an image that does not fit are refused before any cycle (K14, K20, R7). -/
def Run.launch (nCores : Nat) (l : LaunchInput) : Option Run :=
  if 0 < nCores ∧ l.legal = true then some (.running (List.replicate nCores (State.launch l)))
  else none

end Sys2Proof.Machine
end

