-- ==== Sys2Proof/Safety.lean ====
section
/-! DEFINITION. What a good state and a safe run are: the invariants of spec/10_state.md (R28, R43, R44, R47,
R48, R52, R53) and of the fetch path (spec/40_pipeline.md R161), runs that do not abort
(spec/60_exceptions.md R243), and the idle core of spec/70_reset_and_hazards.md R276. -/

namespace Sys2Proof.Machine

/-- Both memories are in canonical form and are arrays of their sizes (R47, R48). -/
def MemoriesWf (s : State) : Prop :=
  s.imem.wf imemUnlisted ∧ s.imem.within s.params.imemWords ∧
  s.dmem.wf (dmemUnlisted s.params) ∧ s.dmem.within s.params.dmemWords

/-- Slot 0 of the register file holds 0 (R28). -/
def ZeroSlot (s : State) : Prop := s.rf.get 0 = 0#32

/-- A destination other than register 0. -/
def realDest : Option RegIdx → List RegIdx
  | some r => if r = 0#5 then [] else [r]
  | none => []

/-- The destinations of the instructions R44 counts: issued by decode and not yet released, that
is in execute, memory or write-back, or completed in WBC. -/
def inFlight (s : State) : List RegIdx :=
  realDest (s.de.bind (·.dest)) ++ realDest (s.em.bind (·.dest)) ++
  realDest (s.mw.bind (·.dest)) ++ realDest s.wbc

/-- The scoreboard invariant (R44) with R43's bit 0: a register is locked iff exactly one
instruction in flight writes it, and never two do. -/
def ScoreboardExact (s : State) : Prop :=
  ∀ r : RegIdx, (inFlight s).count r ≤ 1 ∧
    (s.sb.getLsbD r.toNat = true ↔ (inFlight s).count r = 1)

/-- WBC never names register 0 (R155). -/
def CompletionReal (s : State) : Prop := s.wbc ≠ some 0#5

/-- R52: while SAVED holds an instruction, FD holds none. -/
def SavedExcludesFd (s : State) : Prop := s.saved ≠ none → s.fd = none

/-- R53: while a branch or jump is in execute, decode holds no instruction. -/
def ControlAlone (s : State) : Prop :=
  ∀ e, s.de = some e → e.br ≠ .none → s.fd = none ∧ s.saved = none

/-- A branch or jump in execute has its immediate (R98, R146). -/
def BranchHasImm (s : State) : Prop :=
  ∀ e, s.de = some e → e.br ≠ .none → e.imm ≠ none

/-- The instruction waiting in decode is the IMem word at its address, and PC has moved past it;
while a branch or jump is in execute, PC is the address after it (R122, R132, R161). -/
def FetchPath (s : State) : Prop :=
  (∀ p, s.candidate = some p →
    s.pc = p.pc + 4#32 ∧ ∃ i, fetchIndex s.params p.pc = .ok i ∧ p.inst = imemRead s.imem i) ∧
  (∀ e, s.de = some e → e.br ≠ .none → s.pc = e.pc + 4#32)

/-- The pipeline's invariant: R52, R53, and the fetch path. -/
structure PipelineInv (s : State) : Prop where
  savedExcludesFd : SavedExcludesFd s
  controlAlone    : ControlAlone s
  branchHasImm    : BranchHasImm s
  fetchPath       : FetchPath s

/-- A state that a run with the write-after-write interlock can be in. -/
structure GoodState (s : State) : Prop where
  interlock  : s.params.wawInterlock = true
  pipeline   : PipelineInv s
  scoreboard : ScoreboardExact s
  completion : CompletionReal s

/-- Neither stage that can abort does so in this cycle (R241). -/
def NoAbort (s : State) : Prop :=
  (∃ m, memoryStage s = .ok m) ∧ ∃ f, fetchStage s.stallWire s.redirectWire s = .ok f

/-- `k` cycles run without an abort (R243). -/
def SafeFor (k : Nat) (s : State) : Prop := ∃ t, cycles k s = .next t

/-- The payload of the idle loop `JAL x0, 0` (0x0000006F) fetched at `pc` (R276). -/
def idleFetch (pc : Word) : FDPayload := { inst := 0x0000006F#32, pc := pc }

/-- The idle loop's payload in execute. -/
def idleIssue (pc : Word) : DEPayload :=
  { dest := some 0#5, alu := .add, br := .jal, mem := .none, imm := some 0#32, v1 := 0#32, v2 := 0#32, pc := pc }

/-- A core that is idle in the loop at `pc` (R276): no lock and no completion pending, every earlier
instruction has left write-back, and the only instructions in the pipeline are copies of the idle
loop. The loop's period is three cycles: PC at the loop with the last copy in memory; the next copy in
decode with the last one in write-back; the next copy in execute with nothing behind it. Before the
first copy comes around, memory and write-back are empty. -/
def Idle (pc : Word) (s : State) : Prop :=
  s.sb = 0#32 ∧ s.wbc = none ∧ s.saved = none ∧
  (∃ i, fetchIndex s.params pc = .ok i ∧ imemRead s.imem i = 0x0000006F#32) ∧
  ((s.fd = none ∧ s.de = none ∧ s.pc = pc ∧ s.mw = none ∧
      (s.em = none ∨ s.em = some (executePayload (idleIssue pc)))) ∨
   (s.fd = some (idleFetch pc) ∧ s.de = none ∧ s.pc = pc + 4#32 ∧ s.em = none ∧
      (s.mw = none ∨ s.mw = some { val := pc + 4#32, dest := some 0#5 })) ∨
   (s.fd = none ∧ s.de = some (idleIssue pc) ∧ s.pc = pc + 4#32 ∧ s.em = none ∧ s.mw = none))

end Sys2Proof.Machine
end

