-- ==== Sys2Proof/Certificates/Slice0/Obligations.lean ====
section
/-! DEFINITION. The statements for the provers. "The machine" is `step`, one clock cycle of one core; `exec i` is the
cycle in which decode holds `i` (notes/assumptions/1.md). Every statement is about all values of the
launch parameters of spec/00_scope.md R9, which are data of the state. -/

open Sys2Proof Sys2Proof.Machine

/-! ## Vocabulary of the statements -/

namespace Sys2Proof.Claims

/-- The R-type instructions with the result of their pseudocode (R171 to R180). -/
def rTypeCases (rd rs1 rs2 : RegIdx) : List (Instr × (Word → Word → Word)) :=
  [ (.add rd rs1 rs2,  fun a b => a + b),
    (.sub rd rs1 rs2,  fun a b => a - b),
    (.sll rd rs1 rs2,  fun a b => a <<< (b.toNat % 32)),
    (.slt rd rs1 rs2,  fun a b => if a.toInt < b.toInt then 1#32 else 0#32),
    (.sltu rd rs1 rs2, fun a b => if a.toNat < b.toNat then 1#32 else 0#32),
    (.xor rd rs1 rs2,  fun a b => a ^^^ b),
    (.srl rd rs1 rs2,  fun a b => a >>> (b.toNat % 32)),
    (.sra rd rs1 rs2,  fun a b => a.sshiftRight (b.toNat % 32)),
    (.or rd rs1 rs2,   fun a b => a ||| b),
    (.and rd rs1 rs2,  fun a b => a &&& b) ]

/-- The I-type ALU instructions with the result of their pseudocode (R181 to R186). -/
def iTypeCases (rd rs1 : RegIdx) (imm : BitVec 12) : List (Instr × (Word → Word)) :=
  [ (.addi rd rs1 imm,  fun a => a + imm.signExtend 32),
    (.slti rd rs1 imm,  fun a => if a.toInt < imm.toInt then 1#32 else 0#32),
    (.sltiu rd rs1 imm, fun a => if a.toNat < (imm.signExtend 32).toNat then 1#32 else 0#32),
    (.xori rd rs1 imm,  fun a => a ^^^ imm.signExtend 32),
    (.ori rd rs1 imm,   fun a => a ||| imm.signExtend 32),
    (.andi rd rs1 imm,  fun a => a &&& imm.signExtend 32) ]

/-- The shift-immediate instructions with the result of their pseudocode (R187 to R189). -/
def shiftCases (rd rs1 : RegIdx) (shamt : BitVec 5) : List (Instr × (Word → Word)) :=
  [ (.slli rd rs1 shamt, fun a => a <<< shamt.toNat),
    (.srli rd rs1 shamt, fun a => a >>> shamt.toNat),
    (.srai rd rs1 shamt, fun a => a.sshiftRight shamt.toNat) ]

/-- The conditional branches with their condition (R211 to R216). -/
def branchCases (rs1 rs2 : RegIdx) (off : BitVec 13) : List (Instr × (Word → Word → Bool)) :=
  [ (.beq rs1 rs2 off,  fun a b => decide (a = b)),
    (.bne rs1 rs2 off,  fun a b => decide (a ≠ b)),
    (.blt rs1 rs2 off,  fun a b => decide (a.toInt < b.toInt)),
    (.bge rs1 rs2 off,  fun a b => decide (b.toInt ≤ a.toInt)),
    (.bltu rs1 rs2 off, fun a b => decide (a.toNat < b.toNat)),
    (.bgeu rs1 rs2 off, fun a b => decide (b.toNat ≤ a.toNat)) ]

/-- Decode holds `i` as payload `p`, no hazard holds it back, and no stage aborts in this cycle:
the conditions under which the cycle issues `i` (R128, R130, R243). -/
def Issuable (s : State) (p : FDPayload) (i : Instr) : Prop :=
  s.decodeHolds p i ∧ hazard (controlOf i) p s = false ∧ NoAbort s

/-- The life of `i` issued in state `s`: the issue cycle answers a state `t`, and in the execute,
memory and write-back cycles that follow (if the run does not abort in them) `P t t2 t3 u` holds
of the states after each (R163). -/
def Lifetime (i : Instr) (s : State) (P : State → State → State → State → Prop) : Prop :=
  ∃ t, exec i s = .next t ∧
    ∀ t2 t3 u, step t = .next t2 → step t2 = .next t3 → step t3 = .next u → P t t2 t3 u

/-- The effect and frame of an instruction that computes `v` into `rd`: its memory cycle changes
no memory; its write-back cycle writes rd (nothing for x0) and no other register, and completes rd. -/
def Delivers (rd : RegIdx) (v : Word) (t2 t3 u : State) : Prop :=
  t3.dmem = t2.dmem ∧
  u.readReg rd = (if rd = 0#5 then 0#32 else v) ∧
  (∀ x, x ≠ rd → u.readReg x = t3.readReg x) ∧
  u.wbc = (if rd = 0#5 then none else some rd)

/-- The byte of DMEM at an address, as it reads in a state. -/
def dmemByte (s : State) (a : Nat) : Byte := s.dmem.readByte (dmemUnlisted s.params) a

/-- Decode holds `i` and nothing else is in the machine: no older instruction in flight, no lock,
PC just past `i`. -/
def Alone (s : State) (p : FDPayload) (i : Instr) : Prop :=
  s.fd = some p ∧ decodeWord s.params.narrowMem p.inst = i ∧ s.pc = p.pc + 4#32 ∧
  s.saved = none ∧ s.de = none ∧ s.em = none ∧ s.mw = none ∧ s.wbc = none ∧ s.sb = 0#32

/-- The `n` words from byte address `a` on lie in IMem and are zero words, as words no record wrote
are (R272); each is a no-operation. -/
def ZeroWordsFrom (s : State) (a : Word) (n : Nat) : Prop :=
  ∀ k, k < n → ∃ j, fetchIndex s.params (a + BitVec.ofNat 32 (4 * k)) = .ok j ∧
    imemRead s.imem j = 0#32

/-- Sequential state after one more instruction, aborts passed on. -/
def thenStep (r : SeqResult) : SeqResult :=
  match r with
  | .next a    => a.step
  | .fault f   => .fault f
  | .refused x => .refused x

/-- The destination register an instruction names (R98). -/
def destOf (i : Instr) : Option RegIdx := (controlOf i).dest

/-- The pseudo-instructions that compute a value from one register, with what their names say. -/
def pseudoValues (rd rs : RegIdx) : List (Pseudo × (Word → Word)) :=
  [ (.mv rd rs,   fun x => x),
    (.not rd rs,  fun x => ~~~x),
    (.neg rd rs,  fun x => -x),
    (.seqz rd rs, fun x => if x = 0#32 then 1#32 else 0#32),
    (.snez rd rs, fun x => if x = 0#32 then 0#32 else 1#32),
    (.sltz rd rs, fun x => if x.toInt < 0 then 1#32 else 0#32),
    (.sgtz rd rs, fun x => if 0 < x.toInt then 1#32 else 0#32) ]

/-- The pseudo-branches, with what their names say of two registers (`rt` is not used by the
comparisons with zero). -/
def pseudoBranches (rs rt : RegIdx) (off : BitVec 13) : List (Pseudo × (Word → Word → Bool)) :=
  [ (.beqz rs off,    fun x _ => decide (x = 0#32)),
    (.bnez rs off,    fun x _ => decide (x ≠ 0#32)),
    (.blez rs off,    fun x _ => decide (x.toInt ≤ 0)),
    (.bgez rs off,    fun x _ => decide (0 ≤ x.toInt)),
    (.bltz rs off,    fun x _ => decide (x.toInt < 0)),
    (.bgtz rs off,    fun x _ => decide (0 < x.toInt)),
    (.bgt rs rt off,  fun x y => decide (y.toInt < x.toInt)),
    (.ble rs rt off,  fun x y => decide (x.toInt ≤ y.toInt)),
    (.bgtu rs rt off, fun x y => decide (y.toNat < x.toNat)),
    (.bleu rs rt off, fun x y => decide (x.toNat ≤ y.toNat)) ]

/-- Running a pseudo-instruction puts `v` in rd (nothing for x0), changes nothing else, and goes on
behind its expansion. -/
def Puts (p : Pseudo) (a : Arch) (rd : RegIdx) (v : Word) : Prop :=
  ∃ b, Arch.execAll p.expand a = .next b ∧
    b.reg rd = (if rd = 0#5 then 0#32 else v) ∧ (∀ x, x ≠ rd → b.reg x = a.reg x) ∧
    b.dmem = a.dmem ∧ b.pc = a.pc + BitVec.ofNat 32 (4 * p.expand.length)

/-- Running a pseudo-instruction goes on at `target` with `link` in the register `rd` and changes
nothing else. -/
def Goes (p : Pseudo) (a : Arch) (target : Word) (link : Option (RegIdx × Word)) : Prop :=
  ∃ b, Arch.execAll p.expand a = .next b ∧ b.pc = target ∧ b.dmem = a.dmem ∧
    (∀ r v, link = some (r, v) → b.reg r = v) ∧
    (∀ x, (∀ v, link ≠ some (x, v)) → b.reg x = a.reg x)

/-- The word index a load or store at byte address `ea` accesses (R75). -/
def wordIndex (ea : Word) : Nat := ea.toNat / 4

end Sys2Proof.Claims

open Sys2Proof.Claims

/-! ## Encoding -/

/-- R92, R93, R96: decoding an encoded well-formed instruction gives it back, every operand at every
value. Under NARROW_MEM = as_word too, but for NOP, whose word may be a byte or halfword access. -/
def Obligations.DecodeOfEncode : Prop :=
  ∀ i : Instr, i.wellFormed = true →
    decodeWord .nop (encode i) = i ∧ ((∀ w, i ≠ .nop w) → decodeWord .asWord (encode i) = i)

/-- R90, R96: every word decodes to a well-formed instruction, and that instruction encodes to the word:
no two words decode to one term of Instr and no bit is dropped. For the words that match no row, which
R235 makes one NOP, this is the model's choice: its NOP carries the word (notes/assumptions/21.md). -/
def Obligations.EncodeOfDecode : Prop :=
  ∀ w : Word, (decodeWord .nop w).wellFormed = true ∧ encode (decodeWord .nop w) = w

/-- R96: a word is the instruction of a row iff `(w & mask) == match`; at most one row matches any
word; if no row matches, the word is a no-operation. -/
def Obligations.DecodeFollowsMatchTable : Prop :=
  ∀ w : Word,
    (∀ r ∈ matchTable, r.hits w = true ↔ (decodeWord .nop w).mnemonic = r.mnemonic) ∧
    (∀ r ∈ matchTable, ∀ r' ∈ matchTable, r.hits w = true → r'.hits w = true → r = r') ∧
    ((∀ r ∈ matchTable, r.hits w = false) ↔ decodeWord .nop w = .nop w)

/-- R93: the immediate decode assembles, as a signed number, for each format: the weight of each bit
of the word. -/
def Obligations.ImmediateAssembly : Prop :=
  ∀ w : Word,
    (sext12 (immIOf w)).toInt =
      ((w.toNat / 2 ^ 20 % 2048 : Nat) : Int) - 2048 * ((w.toNat / 2 ^ 31 : Nat) : Int) ∧
    (sext12 (immSOf w)).toInt =
      ((w.toNat / 2 ^ 25 % 64 * 32 + w.toNat / 2 ^ 7 % 32 : Nat) : Int)
        - 2048 * ((w.toNat / 2 ^ 31 : Nat) : Int) ∧
    (sext13 (immBOf w)).toInt =
      ((w.toNat / 2 ^ 7 % 2 * 2048 + w.toNat / 2 ^ 25 % 64 * 32 + w.toNat / 2 ^ 8 % 16 * 2 : Nat)
        : Int) - 4096 * ((w.toNat / 2 ^ 31 : Nat) : Int) ∧
    (upper20 (immUOf w)).toNat = w.toNat - w.toNat % 4096 ∧
    (sext21 (immJOf w)).toInt =
      ((w.toNat / 2 ^ 12 % 256 * 4096 + w.toNat / 2 ^ 20 % 2 * 2048 + w.toNat / 2 ^ 21 % 1024 * 2
        : Nat) : Int) - 1048576 * ((w.toNat / 2 ^ 31 : Nat) : Int)

/-- R101 (the alternatives are the spec's decision D13): under NARROW_MEM = nop the byte and halfword
accesses are no-operations; under as_word they decode exactly as LW or SW with the same fields; every
other word decodes alike under both. -/
def Obligations.NarrowMemEncodings : Prop :=
  ∀ w : Word,
    let f3 := funct3Of w
    let narrowLoad := opcodeOf w = 0b0000011#7 ∧
      (f3 = 0b000#3 ∨ f3 = 0b001#3 ∨ f3 = 0b100#3 ∨ f3 = 0b101#3)
    let narrowStore := opcodeOf w = 0b0100011#7 ∧ (f3 = 0b000#3 ∨ f3 = 0b001#3)
    (narrowLoad → decodeWord .nop w = .nop w ∧
      decodeWord .asWord w = .lw (rdOf w) (rs1Of w) (immIOf w)) ∧
    (narrowStore → decodeWord .nop w = .nop w ∧
      decodeWord .asWord w = .sw (rs2Of w) (rs1Of w) (immSOf w)) ∧
    (¬ narrowLoad → ¬ narrowStore → decodeWord .nop w = decodeWord .asWord w)

/-- R90, R95, R97, R236: SYSTEM (ECALL, EBREAK, MRET, WFI, the CSR instructions), MISC-MEM (the fences),
AMO, the M extension, and every word whose low two bits are not 11 decode to a no-operation. -/
def Obligations.OtherExtensionsAreNop : Prop :=
  ∀ (nm : NarrowMem) (w : Word),
    (opcodeOf w = 0b1110011#7 ∨ opcodeOf w = 0b0001111#7 ∨ opcodeOf w = 0b0101111#7 ∨
      (opcodeOf w = 0b0110011#7 ∧ funct7Of w = 0b0000001#7) ∨ w.extractLsb' 0 2 ≠ 0b11#2) →
    decodeWord nm w = .nop w

/-- R92, R96: words written out bit by bit from the formats, one or more per family. -/
def Obligations.SampleWordsDecode : Prop :=
  decodeWord .nop 0b0100000_00010_00001_000_00011_0110011#32 = .sub 3 1 2 ∧
  decodeWord .nop 0b100000000000_00000_000_00001_0010011#32 = .addi 1 0 0x800 ∧
  decodeWord .nop 0b0100000_11111_00001_101_00011_0010011#32 = .srai 3 1 31 ∧
  decodeWord .nop 0b000000000000_00010_010_00011_0000011#32 = .lw 3 2 0 ∧
  decodeWord .nop 0b1111111_00001_00010_010_11100_0100011#32 = .sw 1 2 0xFFC ∧
  decodeWord .nop 0b1_111111_00010_00001_001_1100_1_1100011#32 = .bne 1 2 0x1FF8 ∧
  decodeWord .nop 0b0_0000000110_0_00000000_00001_1101111#32 = .jal 1 12 ∧
  decodeWord .nop 0b000000000000_00001_000_00001_1100111#32 = .jalr 1 1 0 ∧
  decodeWord .nop 0b00010010001101000101_00101_0110111#32 = .lui 5 0x12345 ∧
  decodeWord .nop 0b00000000000000000001_00101_0010111#32 = .auipc 5 1 ∧
  decodeWord .nop 0b0000001_00010_00001_000_00011_0110011#32 = .nop 0x022081B3

/-- R113 (the spec's general knowledge, notes/assumptions/23.md), in the instruction-level reading: each
pseudo-instruction's expansion does what the pseudo-instruction is for, at every operand. -/
def Obligations.PseudoInstructionsDo : Prop :=
  ∀ a : Arch,
    Puts .nop a 0#5 0#32 ∧
    (∀ rd v, Puts (.li rd v) a rd v) ∧
    (∀ rd d, Puts (.la rd d) a rd (a.pc + d)) ∧
    (∀ rd rs, ∀ c ∈ pseudoValues rd rs, Puts c.1 a rd (c.2 (a.reg rs))) ∧
    (∀ rs rt off, ∀ c ∈ pseudoBranches rs rt off,
      Goes c.1 a (if c.2 (a.reg rs) (a.reg rt) = true then a.pc + off.signExtend 32 else a.pc + 4#32)
        none) ∧
    (∀ off, Goes (.j off) a (a.pc + off.signExtend 32) none) ∧
    (∀ off, Goes (.jal off) a (a.pc + off.signExtend 32) (some (1#5, a.pc + 4#32))) ∧
    (∀ rs, Goes (.jr rs) a (a.reg rs &&& 0xFFFFFFFE#32) none) ∧
    (∀ rs, Goes (.jalr rs) a (a.reg rs &&& 0xFFFFFFFE#32) (some (1#5, a.pc + 4#32))) ∧
    Goes .ret a (a.reg 1#5 &&& 0xFFFFFFFE#32) none ∧
    (∀ d, Goes (.call d) a ((a.pc + d) &&& 0xFFFFFFFE#32) (some (1#5, a.pc + 8#32))) ∧
    (∀ d, ∃ v, Goes (.tail d) a ((a.pc + d) &&& 0xFFFFFFFE#32) (some (6#5, v)))

/-! ## The cycle and its stages -/

/-- R120, R126, R127: where decode holds a word, the step is `exec` of the instruction it decodes to,
which is the cycle of R134 with that instruction's row of R98; where decode holds nothing, it is the
cycle of R133. A word that fetch has delivered is what decode holds next. -/
def Obligations.StepRunsDecodedInstruction : Prop :=
  ∀ s : State,
    (∀ p i, s.decodeHolds p i →
      step s = exec i s ∧ exec i s = cycleWith (decodeStage (controlOf i) p s) s) ∧
    (s.candidate = none → step s = cycleWith (decodeNothing s) s) ∧
    (∀ t p, step s = .next t → t.fd = some p → t.saved = none → t.candidate = some p)

/-- R126, R133: the saved payload if one is held (and clear it), else the incoming fetch payload; if
neither exists, no instruction, no stall, nothing saved, and only the release in the scoreboard. -/
def Obligations.SavedPayloadFirst : Prop :=
  ∀ s t : State, step s = .next t →
    (∀ p, s.saved = some p → s.candidate = some p) ∧
    (s.saved = none → s.candidate = s.fd) ∧
    (s.saved = none → s.fd = none →
      t.de = none ∧ t.saved = none ∧ t.sb = s.released ∧ s.stallWire = false) ∧
    (∀ p, t.saved = some p → s.candidate = some p ∧ s.hazardStall = true)

/-- R128 and R99 (D9, D10 are the spec's decisions): decode holds an instruction back iff a register
it checks is locked after the release of this cycle: a source, or with the interlock the destination. -/
def Obligations.HazardCondition : Prop :=
  ∀ (s : State) (p : FDPayload) (i : Instr), s.decodeHolds p i →
    (s.hazardStall = true ↔
      ∃ r : RegIdx, r ≠ 0#5 ∧ s.sb.getLsbD r.toNat = true ∧ s.wbc ≠ some r ∧
        ((s.params.hazardSources = .used ∧
            ((controlOf i).src1 = some r ∨ (controlOf i).src2 = some r)) ∨
         (s.params.hazardSources = .raw ∧ (rs1Of p.inst = r ∨ rs2Of p.inst = r)) ∨
         (s.params.wawInterlock = true ∧ (controlOf i).dest = some r)))

/-- R129: under a hazard, for every instruction, the cycle preserves the instruction in SAVED, issues
nothing, asserts stall, locks nothing, and (as no redirect is present) holds the PC with a bubble. -/
def Obligations.HazardStallHolds : Prop :=
  ∀ (s : State) (p : FDPayload) (i : Instr), s.decodeHolds p i → s.hazardStall = true →
    (∃ m, memoryStage s = .ok m) → s.redirectWire = none →
    ∃ t, exec i s = .next t ∧ t.saved = some p ∧ t.de = none ∧ s.stallWire = true ∧
      t.sb = s.released ∧ t.pc = s.pc ∧ t.fd = none

/-- R130, R131, R132 with the rows of R98 and the committed values of R49, for every instruction (the
decisions D14, D15 and D19, notes/assumptions/13.md, 30.md and 19.md): without a hazard the cycle issues
it: DE holds its control fields with the source values as committed, its destination is locked, SAVED
is empty, and stall is asserted iff it is a branch or jump. -/
def Obligations.IssueWritesPayload : Prop :=
  ∀ (s : State) (p : FDPayload) (i : Instr), Issuable s p i →
    ∃ t e, exec i s = .next t ∧ t.de = some e ∧ t.saved = none ∧
      e.dest = (controlOf i).dest ∧ e.alu = (controlOf i).alu ∧ e.br = (controlOf i).br ∧
      e.mem = (controlOf i).mem ∧ e.imm = (controlOf i).imm ∧ e.pc = p.pc ∧
      (∀ r, (controlOf i).src1 = some r → e.v1 = s.readReg r) ∧
      (∀ r, (controlOf i).src2 = some r → e.v2 = s.readReg r) ∧
      (∀ rd, (controlOf i).dest = some rd → rd ≠ 0#5 → t.sb.getLsbD rd.toNat = true) ∧
      s.stallWire = ((controlOf i).br != .none)

/-- R125, R131: in every cycle the completed register's bit is cleared first; then an issued
instruction's destination, if it is not register 0, is locked; no other bit changes. -/
def Obligations.ScoreboardUpdate : Prop :=
  ∀ s t : State, step s = .next t → ∀ r : RegIdx,
    (t.sb.getLsbD r.toNat = true ↔
      (∃ i, s.issued = some i ∧ destOf i = some r ∧ r ≠ 0#5) ∨
      (s.sb.getLsbD r.toNat = true ∧ s.wbc ≠ some r))

/-- R122: fetch, in priority order: a redirect, a stall, else the word at FetchIndex(PC) with its PC, and
PC + 4. (FetchIndex is WordIndexOfAddress.) -/
def Obligations.FetchPriority : Prop :=
  ∀ s t : State, step s = .next t →
    (∀ a, s.redirectWire = some a → t.pc = a ∧ t.fd = none) ∧
    (s.redirectWire = none → s.stallWire = true → t.pc = s.pc ∧ t.fd = none) ∧
    (s.redirectWire = none → s.stallWire = false →
      t.pc = s.pc + 4#32 ∧ ∃ i, fetchIndex s.params s.pc = .ok i ∧
        t.fd = some { inst := imemRead s.imem i, pc := s.pc })

/-- R123: with a redirect and a stall in the same cycle, fetch honors the redirect and does not hold
the PC. The premise holds in no run (R162); a constructed state meets it. -/
def Obligations.RedirectDominatesStall : Prop :=
  ∀ (s : State) (a : Word), s.redirectWire = some a → s.stallWire = true →
    (∃ m, memoryStage s = .ok m) →
    ∃ t, step s = .next t ∧ t.pc = a ∧ t.fd = none

/-- R140, R141, R144, R145: execute. With no payload it emits nothing and no redirect; with one,
operand 2 is the immediate if present, and the payload carries the result, the raw second source, the
link value for the jumps, the memory kind and the destination. -/
def Obligations.ExecuteStageOutput : Prop :=
  ∀ s t : State, step s = .next t →
    (s.de = none → t.em = none ∧ s.redirectWire = none) ∧
    (∀ e, s.de = some e →
      ∃ m, t.em = some m ∧ m.sdata = e.v2 ∧ m.mem = e.mem ∧ m.dest = e.dest ∧
        (∀ i, e.imm = some i → m.res = alu e.alu e.v1 i e.pc) ∧
        (e.imm = none → m.res = alu e.alu e.v1 e.v2 e.pc) ∧
        (e.br = .jal ∨ e.br = .jalr → m.wbv = e.pc + 4#32) ∧
        (e.br ≠ .jal → e.br ≠ .jalr → m.wbv = m.res))

/-- R142 (the 0 and 1 of SLT and SLTU are the spec's general knowledge): the ALU, each operation by
integer arithmetic on its operands; a shift uses the low five bits of operand 2. -/
def Obligations.AluArithmetic : Prop :=
  ∀ a b pc : Word,
    (alu .add a b pc).toNat = (a.toNat + b.toNat) % 2 ^ 32 ∧
    ((alu .sub a b pc).toNat : Int) = ((a.toNat : Int) - (b.toNat : Int)) % 2 ^ 32 ∧
    (∀ k, (alu .and a b pc).getLsbD k = (a.getLsbD k && b.getLsbD k)) ∧
    (∀ k, (alu .or a b pc).getLsbD k = (a.getLsbD k || b.getLsbD k)) ∧
    (∀ k, (alu .xor a b pc).getLsbD k = (a.getLsbD k ^^ b.getLsbD k)) ∧
    (alu .sll a b pc).toNat = a.toNat * 2 ^ (b.toNat % 32) % 2 ^ 32 ∧
    (alu .srl a b pc).toNat = a.toNat / 2 ^ (b.toNat % 32) ∧
    (alu .sra a b pc).toInt = a.toInt / 2 ^ (b.toNat % 32) ∧
    (alu .slt a b pc).toNat = (if a.toInt < b.toInt then 1 else 0) ∧
    (alu .sltu a b pc).toNat = (if a.toNat < b.toNat then 1 else 0) ∧
    alu .passImm a b pc = b ∧
    (alu .pcPlusImm a b pc).toNat = (pc.toNat + b.toNat) % 2 ^ 32

/-- R143 (which comparison goes with which kind is the spec's general knowledge): the redirect wire,
for each kind of payload in execute that has its immediate. -/
def Obligations.RedirectResolution : Prop :=
  ∀ (s : State) (e : DEPayload) (imm : Word), s.de = some e → e.imm = some imm →
    (e.br = .none → s.redirectWire = none) ∧
    (e.br = .beq → s.redirectWire = if e.v1 = e.v2 then some (e.pc + imm) else none) ∧
    (e.br = .bne → s.redirectWire = if e.v1 = e.v2 then none else some (e.pc + imm)) ∧
    (e.br = .blt → s.redirectWire = if e.v1.toInt < e.v2.toInt then some (e.pc + imm) else none) ∧
    (e.br = .bge → s.redirectWire = if e.v2.toInt ≤ e.v1.toInt then some (e.pc + imm) else none) ∧
    (e.br = .bltu → s.redirectWire = if e.v1.toNat < e.v2.toNat then some (e.pc + imm) else none) ∧
    (e.br = .bgeu → s.redirectWire = if e.v2.toNat ≤ e.v1.toNat then some (e.pc + imm) else none) ∧
    (e.br = .jal → s.redirectWire = some (e.pc + imm)) ∧
    (e.br = .jalr → s.redirectWire = some ((e.v1 + imm) &&& 0xFFFFFFFE#32))

/-- R151 (the unsigned index is the spec's decision D20, the commit at the boundary D14): memory. No
payload emits nothing; else the destination goes through, the value is the forwarded one or, for a
load, the word at address ÷ 4 as committed before the cycle; a store writes its word at address ÷ 4
at the end of the cycle, and no other byte; nothing else writes DMEM. -/
def Obligations.MemoryStageAccess : Prop :=
  ∀ s t : State, step s = .next t →
    (s.em = none → t.mw = none ∧ t.dmem = s.dmem) ∧
    (∀ m, s.em = some m →
      ∃ w, t.mw = some w ∧ w.dest = m.dest ∧
        (m.mem = .none → w.val = m.wbv ∧ t.dmem = s.dmem) ∧
        (m.mem = .load → w.val = dmemRead s.params s.dmem (wordIndex m.res) ∧ t.dmem = s.dmem) ∧
        (m.mem = .store → w.val = m.wbv ∧
          dmemRead t.params t.dmem (wordIndex m.res) = m.sdata ∧
          ∀ a, a / 4 ≠ wordIndex m.res → dmemByte t a = dmemByte s a))

/-- R155: write-back. No payload or no destination: no completion and no write; a destination other
than register 0 is written and completed; register 0 is never written. -/
def Obligations.WriteBackStage : Prop :=
  ∀ s t : State, step s = .next t →
    ((s.mw = none ∨ ∃ v, s.mw = some { val := v, dest := none }) → t.wbc = none ∧ t.rf = s.rf) ∧
    (∀ v, s.mw = some { val := v, dest := some 0#5 } → t.wbc = none ∧ t.rf = s.rf) ∧
    (∀ v r, s.mw = some { val := v, dest := some r } → r ≠ 0#5 →
      t.wbc = some r ∧ t.readReg r = v ∧ ∀ x, x ≠ r → t.readReg x = s.readReg x)

/-- R124, R150, R75, R77 (the decisions D12, D20): the word index of a fetch address and of an
effective address, low two bits dropped, unsigned, and when there is none. -/
def Obligations.WordIndexOfAddress : Prop :=
  ∀ (p : Params) (a : Word) (i : Nat),
    (fetchIndex p a = .ok i ↔
      (p.misalignedFetch = .truncate ∨ a.toNat % 4 = 0) ∧ a.toNat / 4 < p.imemWords ∧
        i = a.toNat / 4) ∧
    (dataIndex p a = some i ↔ a.toNat / 4 < p.dmemWords ∧ i = a.toNat / 4)

/-- R241, R244 (the decisions D12, D20 to D23): a step aborts exactly when a condition of R241 holds in
the cycle; the abort carries the set of all that hold, with the values R241 records; the one to name is
the first in the order of R244; a step is never refused. -/
def Obligations.AbortsExactly : Prop :=
  ∀ s : State,
    let dataOut := fun ea => ∃ m, s.em = some m ∧ m.mem ≠ .none ∧ m.res = ea ∧
      s.params.dmemWords ≤ ea.toNat / 4
    let reads := s.redirectWire = none ∧ s.stallWire = false
    let misaligned := reads ∧ s.params.misalignedFetch = .fatal ∧ s.pc.toNat % 4 ≠ 0
    let fetchOut := reads ∧ s.params.imemWords ≤ s.pc.toNat / 4
    ((∃ f, step s = .fault f) ↔ (∃ ea, dataOut ea) ∨ misaligned ∨ fetchOut) ∧
    (∀ f, step s = .fault f →
      (∀ ea, .dataOutOfBounds ea ∈ f.reasons ↔ dataOut ea) ∧
      (∀ a, .fetchMisaligned a ∈ f.reasons ↔ misaligned ∧ a = s.pc) ∧
      (∀ a, .fetchOutOfBounds a ∈ f.reasons ↔ fetchOut ∧ a = s.pc) ∧
      f.reasons.head? = some f.named ∧ f.reasons.Pairwise (fun x y => x.rank < y.rank)) ∧
    (∀ r, step s ≠ .refused r)

/-- Frame of one cycle, for every instruction (R29, R47, R48, R160): when `exec i` goes on, IMEM and
the parameters are unchanged; every register is unchanged but the one write-back retires in the cycle;
every byte of DMEM is unchanged but the word a store in the memory stage writes. The instruction in
decode itself changes no register and no memory in this cycle. -/
def Obligations.ExecCycleFrame : Prop :=
  ∀ (i : Instr) (s t : State), exec i s = .next t →
    t.params = s.params ∧ t.imem = s.imem ∧
    (∀ r, (∀ v, s.mw ≠ some { val := v, dest := some r }) → t.readReg r = s.readReg r) ∧
    (∀ a, (∀ m, s.em = some m → m.mem = .store → a / 4 ≠ wordIndex m.res) →
      dmemByte t a = dmemByte s a)

/-- R47: IMEM is an array of IMEM_WORDS words, initialised from the program image at launch, and is
read-only afterwards. -/
def Obligations.ImemReadOnly : Prop :=
  (∀ (l : LaunchInput) (i : Nat), imemRead (State.launch l).imem i = l.image.getD i 0#32) ∧
  (∀ l : LaunchInput, l.legal = true → (State.launch l).imem.within l.params.imemWords) ∧
  (∀ (k : Nat) (s t : State), cycles k s = .next t → t.imem = s.imem)

/-- R28: no sequence of instructions changes the value read from register 0; write-back never writes
its slot and the scoreboard never locks it. -/
def Obligations.RegisterZeroConstant : Prop :=
  ∀ (k : Nat) (s t : State), cycles k s = .next t →
    t.readReg 0#5 = 0#32 ∧ s.readReg 0#5 = 0#32 ∧ t.rf.get 0 = s.rf.get 0 ∧
    (t.sb.getLsbD 0 = true → s.sb.getLsbD 0 = true) ∧ locked t.released 0#5 = false ∧
    (State.reset.rf.get 0 = 0#32)

/-! ## What each instruction does: completion, result and frame -/

/-- R171 to R180: every R-type instruction completes and delivers its result. -/
def Obligations.RTypeResults : Prop :=
  ∀ (s : State) (p : FDPayload) (rd rs1 rs2 : RegIdx), ∀ c ∈ rTypeCases rd rs1 rs2,
    Issuable s p c.1 →
    Lifetime c.1 s fun _ t2 t3 u => Delivers rd (c.2 (s.readReg rs1) (s.readReg rs2)) t2 t3 u

/-- R181 to R186: every I-type ALU instruction completes and delivers its result. -/
def Obligations.ITypeResults : Prop :=
  ∀ (s : State) (p : FDPayload) (rd rs1 : RegIdx) (imm : BitVec 12), ∀ c ∈ iTypeCases rd rs1 imm,
    Issuable s p c.1 →
    Lifetime c.1 s fun _ t2 t3 u => Delivers rd (c.2 (s.readReg rs1)) t2 t3 u

/-- R187 to R189: every shift-immediate instruction completes and delivers its result. -/
def Obligations.ShiftImmediateResults : Prop :=
  ∀ (s : State) (p : FDPayload) (rd rs1 : RegIdx) (shamt : BitVec 5), ∀ c ∈ shiftCases rd rs1 shamt,
    Issuable s p c.1 →
    Lifetime c.1 s fun _ t2 t3 u => Delivers rd (c.2 (s.readReg rs1)) t2 t3 u

/-- R231, R232: LUI and AUIPC complete and deliver their result. -/
def Obligations.UpperImmediateResults : Prop :=
  ∀ (s : State) (p : FDPayload) (rd : RegIdx) (imm20 : BitVec 20),
    (Issuable s p (.lui rd imm20) →
      Lifetime (.lui rd imm20) s fun _ t2 t3 u => Delivers rd (imm20 ++ 0x000#12) t2 t3 u) ∧
    (Issuable s p (.auipc rd imm20) →
      Lifetime (.auipc rd imm20) s fun _ t2 t3 u =>
        Delivers rd (p.pc + (imm20 ++ 0x000#12)) t2 t3 u)

/-- R201, R75: LW completes; in the memory cycle it reads the word at ea ÷ 4 of DMEM as committed
before that cycle, and delivers it; outside DMem that cycle aborts with DataOutOfBounds(ea). -/
def Obligations.LoadResult : Prop :=
  ∀ (s : State) (p : FDPayload) (rd rs1 : RegIdx) (imm : BitVec 12),
    Issuable s p (.lw rd rs1 imm) →
    let ea := s.readReg rs1 + imm.signExtend 32
    Lifetime (.lw rd rs1 imm) s (fun _ t2 t3 u =>
      wordIndex ea < s.params.dmemWords ∧
      Delivers rd (dmemRead t2.params t2.dmem (wordIndex ea)) t2 t3 u) ∧
    (s.params.dmemWords ≤ wordIndex ea → ∀ t t2, exec (.lw rd rs1 imm) s = .next t →
      step t = .next t2 → ∃ f, step t2 = .fault f ∧ .dataOutOfBounds ea ∈ f.reasons)

/-- R202, R75: SW completes; its memory cycle stores the second source at the word ea ÷ 4 and changes
no byte outside that word; its write-back cycle changes no register; outside DMem the memory cycle
aborts with DataOutOfBounds(ea). -/
def Obligations.StoreResult : Prop :=
  ∀ (s : State) (p : FDPayload) (rs2 rs1 : RegIdx) (imm : BitVec 12),
    Issuable s p (.sw rs2 rs1 imm) →
    let ea := s.readReg rs1 + imm.signExtend 32
    Lifetime (.sw rs2 rs1 imm) s (fun _ t2 t3 u =>
      wordIndex ea < s.params.dmemWords ∧
      dmemRead t3.params t3.dmem (wordIndex ea) = s.readReg rs2 ∧
      (∀ a, a / 4 ≠ wordIndex ea → dmemByte t3 a = dmemByte t2 a) ∧
      u.rf = t3.rf ∧ u.wbc = none) ∧
    (s.params.dmemWords ≤ wordIndex ea → ∀ t t2, exec (.sw rs2 rs1 imm) s = .next t →
      step t = .next t2 → ∃ f, step t2 = .fault f ∧ .dataOutOfBounds ea ∈ f.reasons)

/-- R210 to R216, R284: every conditional branch completes; stall is asserted in its decode cycle and
not in the next; in the execute cycle fetch goes to pc + offset with a bubble if the condition holds of
the two source values, else it fetches pc + 4; it writes no register and no memory. -/
def Obligations.BranchResults : Prop :=
  ∀ (s : State) (p : FDPayload) (rs1 rs2 : RegIdx) (off : BitVec 13), ∀ c ∈ branchCases rs1 rs2 off,
    PipelineInv s → Issuable s p c.1 →
    Lifetime c.1 s (fun t t2 t3 u =>
      s.stallWire = true ∧ t.fd = none ∧ t.pc = p.pc + 4#32 ∧ t.stallWire = false ∧
      (c.2 (s.readReg rs1) (s.readReg rs2) = true →
        t2.pc = p.pc + off.signExtend 32 ∧ t2.fd = none) ∧
      (c.2 (s.readReg rs1) (s.readReg rs2) = false →
        t2.pc = p.pc + 8#32 ∧ ∃ w, t2.fd = some { inst := w, pc := p.pc + 4#32 }) ∧
      t3.dmem = t2.dmem ∧ u.rf = t3.rf ∧ u.wbc = none)

/-- R220 to R222, R284: JAL and JALR complete; fetch goes to the target with a second bubble, and
rd receives pc + 4. -/
def Obligations.JumpResults : Prop :=
  ∀ (s : State) (p : FDPayload) (rd rs1 : RegIdx) (imm : BitVec 12) (off : BitVec 21),
    PipelineInv s →
    (Issuable s p (.jal rd off) →
      Lifetime (.jal rd off) s fun t t2 t3 u =>
        s.stallWire = true ∧ t.fd = none ∧ t.stallWire = false ∧
        t2.pc = p.pc + off.signExtend 32 ∧ t2.fd = none ∧ Delivers rd (p.pc + 4#32) t2 t3 u) ∧
    (Issuable s p (.jalr rd rs1 imm) →
      Lifetime (.jalr rd rs1 imm) s fun t t2 t3 u =>
        s.stallWire = true ∧ t.fd = none ∧ t.stallWire = false ∧
        t2.pc = (s.readReg rs1 + imm.signExtend 32) &&& 0xFFFFFFFE#32 ∧ t2.fd = none ∧
        Delivers rd (p.pc + 4#32) t2 t3 u)

/-- R235: every unrecognised word completes as a no-operation: no lock, no stall, no redirect, no
memory access, no register write and no completion. -/
def Obligations.NopResult : Prop :=
  ∀ (s : State) (p : FDPayload) (w : Word), Issuable s p (.nop w) →
    Lifetime (.nop w) s fun t t2 t3 u =>
      t.sb = s.released ∧ s.stallWire = false ∧ t.redirectWire = none ∧
      t3.dmem = t2.dmem ∧ u.rf = t3.rf ∧ u.wbc = none

/-- R164 for one instruction, every constructor: alone in the machine and followed by zero words, its
issue leaves the pc of the instruction-level pseudocode (Arch.exec) as the address decode issues from
next, it runs four cycles without an abort, and RF and DMEM are then exactly those of the pseudocode,
with IMEM and the parameters unchanged. -/
def Obligations.AloneMatchesPseudocode : Prop :=
  ∀ (s : State) (p : FDPayload) (i : Instr) (a : Arch), Alone s p i →
    Arch.exec i { s.arch with pc := p.pc } = .next a → ZeroWordsFrom s a.pc 4 →
    ∃ t u, exec i s = .next t ∧ t.nextIssuePc = a.pc ∧ cycles 3 t = .next u ∧
      u.rf = a.rf ∧ u.dmem = a.dmem ∧ u.imem = s.imem ∧ u.params = s.params

/-- R201, R202, R243 for one instruction: a load or store outside DMem, alone in the machine and
followed by zero words, aborts in its memory cycle with DataOutOfBounds of the same address as the
instruction-level pseudocode. -/
def Obligations.AloneAbortsAsPseudocode : Prop :=
  ∀ (s : State) (p : FDPayload) (i : Instr) (f : Fault), Alone s p i →
    Arch.exec i { s.arch with pc := p.pc } = .fault f → ZeroWordsFrom s s.pc 3 →
    ∃ t ea, f = .dataOutOfBounds ea ∧ exec i s = .next t ∧ cycles 2 t = .fault f

/-- Frame of the instruction-level pseudocode (R170, R200, R210, R220, R230, R235): every register but
the destination is unchanged, only SW changes memory and only its word, IMEM and the parameters never
change, and only a branch or jump leaves pc + 4. -/
def Obligations.PseudocodeFrame : Prop :=
  ∀ (i : Instr) (a b : Arch), Arch.exec i a = .next b →
    b.params = a.params ∧ b.imem = a.imem ∧
    (∀ r, destOf i ≠ some r → b.reg r = a.reg r) ∧
    ((controlOf i).mem ≠ .store → b.dmem = a.dmem) ∧
    (∀ rs2 rs1 imm, i = .sw rs2 rs1 imm →
      ∀ x, x / 4 ≠ wordIndex (a.reg rs1 + imm.signExtend 32) →
        b.dmem.readByte (dmemUnlisted a.params) x = a.dmem.readByte (dmemUnlisted a.params) x) ∧
    ((controlOf i).br = .none → b.pc = a.pc + 4#32)

/-! ## Invariants -/

/-- R47, R48: every step from every state keeps both memories canonical and inside their arrays. -/
def Obligations.StepKeepsMemories : Prop :=
  ∀ s t : State, MemoriesWf s → step s = .next t → MemoriesWf t

/-- R52, R53, R161: every step keeps the pipeline's invariant, under every parameter value. -/
def Obligations.StepKeepsPipelineInv : Prop :=
  ∀ s t : State, PipelineInv s → step s = .next t → PipelineInv t

/-- R44, R43: with the interlock, every step keeps the scoreboard exact: a register is locked iff
exactly one instruction in flight writes it, and no two do. (The interlock is the spec's decision D9.) -/
def Obligations.StepKeepsScoreboardExact : Prop :=
  ∀ s t : State, s.params.wawInterlock = true → ScoreboardExact s → CompletionReal s →
    step s = .next t → ScoreboardExact t ∧ CompletionReal t

/-- R51: the invariants hold at launch, for every legal launch input; the good state of the interlock
too where it is on. -/
def Obligations.LaunchMeetsInvariants : Prop :=
  ∀ l : LaunchInput, l.legal = true →
    MemoriesWf (State.launch l) ∧ ZeroSlot (State.launch l) ∧ PipelineInv (State.launch l) ∧
    ScoreboardExact (State.launch l) ∧ CompletionReal (State.launch l) ∧
    (l.params.wawInterlock = true → GoodState (State.launch l))

/-- R51: the invariants hold at State.reset. -/
def Obligations.ResetMeetsInvariants : Prop :=
  MemoriesWf State.reset ∧ ZeroSlot State.reset ∧ GoodState State.reset

/-- R162: in a state with the pipeline's invariant, stall and redirect never coincide. -/
def Obligations.StallRedirectExclusive : Prop :=
  ∀ s : State, PipelineInv s → s.redirectWire ≠ none → s.stallWire = false

/-- R51 (D7, D8, D16, D17 are the spec's decisions; the sizes and DMEM_INIT of State.reset are the
model's choice, notes/assumptions/3.md and 4.md): what launch leaves, for every launch input, and that
State.reset is the launch of the conventional parameters with no image. -/
def Obligations.LaunchState : Prop :=
  (∀ l : LaunchInput,
    (State.launch l).pc = 0#32 ∧ (State.launch l).fd = none ∧ (State.launch l).saved = none ∧
    (State.launch l).de = none ∧ (State.launch l).em = none ∧ (State.launch l).mw = none ∧
    (State.launch l).wbc = none ∧ (State.launch l).sb = 0#32 ∧
    (State.launch l).readReg 0#5 = 0#32 ∧ (State.launch l).readReg 2#5 = l.spInit ∧
    (∀ r : RegIdx, r ≠ 0#5 → r ≠ 2#5 → (State.launch l).readReg r = l.rfInit.get r.toFin) ∧
    (∀ i, dmemRead l.params (State.launch l).dmem i = l.params.dmemInit.getD i 0#32)) ∧
  State.reset = State.launch (LaunchInput.standard Params.conventional []) ∧
  State.reset.readReg 2#5 = 0x40#32

/-- R272, R73: byte 4i+k of the image is bits [8k+7:8k] of IMem word i. -/
def Obligations.ImageBytePacking : Prop :=
  ∀ (l : LaunchInput) (i k j : Nat), k < 4 → j < 8 →
    ((State.launch l).imem.readByte imemUnlisted (4 * i + k)).getLsbD j =
      (l.image.getD i 0#32).getLsbD (8 * k + j)

/-- How a program comes to run (notes/assumptions/17.md): from the launch of a one-word image, cycle 0
fetches the word, and the state it leaves is `State.reset.withFetchWord` of it; the next step is the
word's instruction. -/
def Obligations.FirstInstructionAfterReset : Prop :=
  ∀ w : Word,
    step (State.launch (LaunchInput.standard Params.conventional [w])) =
      .next (State.reset.withFetchWord 32 w.toNat) ∧
    step (State.reset.withFetchWord 32 w.toNat) =
      exec (decodeWord .nop w) (State.reset.withFetchWord 32 w.toNat)

/-! ## Timing -/

/-- R163, R287: a register other than 0 that an instruction issued now writes is locked at decode in
the next three cycles, and free, with its value committed, in the fourth. -/
def Obligations.LockHeldThreeCycles : Prop :=
  ∀ (s t : State) (i : Instr) (rd : RegIdx), GoodState s → s.issued = some i →
    destOf i = some rd → rd ≠ 0#5 → step s = .next t →
    (∀ k u, k < 3 → cycles k t = .next u → locked u.released rd = true) ∧
    (∀ u, cycles 3 t = .next u → locked u.released rd = false ∧ u.wbc = some rd)

/-- R163 (no stall lasts more than three consecutive cycles): after three hazard-stall cycles the
instruction issues. -/
def Obligations.StallsAtMostThreeCycles : Prop :=
  ∀ s s1 s2 s3 : State, GoodState s → step s = .next s1 → step s1 = .next s2 →
    step s2 = .next s3 →
    s.hazardStall = true → s1.hazardStall = true → s2.hazardStall = true →
    s3.hazardStall = false ∧ s3.candidate = s.candidate ∧ s3.issued ≠ none

/-- R282: the stall cycles of a reader. An instruction that first reaches decode k = 1, 2 or 3 cycles
after the issue of a writer of a register it reads is held there through cycle 3 after the issue, that
is 4 - k cycles; in cycle 4 that register no longer holds it, and for k = 1 it issues. -/
def Obligations.RawStallLength : Prop :=
  ∀ (s t : State) (i : Instr) (rd : RegIdx) (k : Nat) (u : State) (q : FDPayload),
    GoodState s → s.issued = some i → destOf i = some rd → rd ≠ 0#5 → step s = .next t →
    1 ≤ k → k ≤ 3 → cycles (k - 1) t = .next u → u.candidate = some q →
    ((candidateControl u q).src1 = some rd ∨ (candidateControl u q).src2 = some rd) →
    (∀ j v, j < 4 - k → cycles j u = .next v → v.candidate = some q ∧ v.hazardStall = true) ∧
    (∀ v, cycles (4 - k) u = .next v →
      v.candidate = some q ∧ locked v.released rd = false ∧ (k = 1 → v.issued ≠ none))

/-- R284, R132: the bubbles of a control transfer. The cycle after a branch or jump issues has nothing
in decode; if it redirects, the next cycle has nothing in decode either, and fetch then reads the
target; if not, pc + 4 is in decode. -/
def Obligations.ControlTransferBubbles : Prop :=
  ∀ (s t t2 : State) (p : FDPayload) (i : Instr), PipelineInv s → s.decodeHolds p i →
    s.issued = some i → (controlOf i).br ≠ .none → step s = .next t → step t = .next t2 →
    s.stallWire = true ∧ t.candidate = none ∧ t.stallWire = false ∧
    (∀ a, t.redirectWire = some a → t2.candidate = none ∧ t2.pc = a ∧
      ∀ t3, step t2 = .next t3 → ∃ w, t3.candidate = some { inst := w, pc := a }) ∧
    (t.redirectWire = none → ∃ w, t2.candidate = some { inst := w, pc := p.pc + 4#32 })

/-! ## Sequential equivalence -/

/-- R164 and R161, one cycle: in a good state, a cycle that issues nothing leaves the state that the
issued instructions lead to as it is, and a cycle that issues an instruction moves it by exactly that
instruction of the sequential reading, which is the one at the sequential pc. -/
def Obligations.CycleRefinesSequential : Prop :=
  ∀ s t : State, GoodState s → step s = .next t →
    (s.issued = none → t.drain = s.drain) ∧
    (∀ i, s.issued = some i → t.drain = thenStep s.drain ∧
      ∀ a, s.drain = .next a → ∃ j, fetchIndex a.params a.pc = .ok j ∧
        decodeWord a.params.narrowMem (imemRead a.imem j) = i)

/-- R164, a run from launch with the interlock, either HAZARD_SOURCES: after n cycles the issued
instructions lead to the sequential state after as many instructions; while that one has not aborted
they are the instructions it visits, in order; and at a boundary where the pipeline is empty RF and
DMEM equal it. (R164's own empty-pipeline clause is met only at launch, since fetch refills the
pipeline; the first clause says the same at every boundary.) -/
def Obligations.RunRefinesSequential : Prop :=
  ∀ (l : LaunchInput) (n : Nat) (s : State), l.legal = true → l.params.wawInterlock = true →
    cycles n (State.launch l) = .next s →
    let issued := issuedIn n (State.launch l)
    let reading := Arch.run issued.length (State.launch l).arch
    s.drain = reading ∧
    (∀ a, reading = .next a → issued = Arch.visits issued.length (State.launch l).arch) ∧
    (s.fd = none → s.saved = none → s.de = none → s.em = none → s.mw = none → s.wbc = none →
      ∃ a, reading = .next a ∧ s.rf = a.rf ∧ s.dmem = a.dmem)

/-- R164: with the interlock, a run from launch aborts iff the sequential reading aborts (the reason
may differ, R244). -/
def Obligations.AbortsIffSequentialAborts : Prop :=
  ∀ l : LaunchInput, l.legal = true → l.params.wawInterlock = true →
    ((∃ n f, cycles n (State.launch l) = .fault f) ↔
      ∃ k f, Arch.run k (State.launch l).arch = .fault f)

/-! ## End of run, several cores -/

/-- R276: in an idle core RF and DMEM hold the effect of every instruction issued, and the next to issue
is the loop; it stays idle without an abort, and RF and DMEM never change. -/
def Obligations.IdleCoreStaysIdle : Prop :=
  ∀ (k : Nat) (pc : Word) (s : State), Idle pc s →
    s.drain = .next { s.arch with pc := pc } ∧
    ∃ t, cycles k s = .next t ∧ Idle pc t ∧ t.rf = s.rf ∧ t.dmem = s.dmem

/-- R251, R253: from launch all cores have equal state at every cycle boundary, that of one core run
alone, and they abort in the same cycle if at all. -/
def Obligations.CoresStayEqual : Prop :=
  ∀ (n : Nat) (l : LaunchInput) (r : Run), Run.launch n l = some r → ∀ k,
    (∃ s, cycles k (State.launch l) = .next s ∧ Run.cycles k r = .running (List.replicate n s)) ∨
    (∃ f j s rs, cycles k (State.launch l) = .fault f ∧ j < k ∧
      cycles j (State.launch l) = .next s ∧ step s = .fault f ∧
      Run.cycles k r = .aborted rs (List.replicate n s))

/-- R243 (the scope and the no-commit reading are the spec's decision D22): a run aborts in exactly the
cycles in which some core does; it keeps the states committed before that cycle; no further cycle
changes it. -/
def Obligations.AbortEndsTheRun : Prop :=
  (∀ cores : List State,
    ((∃ rs last, Run.cycle (.running cores) = .aborted rs last) ↔
      ∃ s ∈ cores, ∃ f, step s = .fault f) ∧
    (∀ rs last, Run.cycle (.running cores) = .aborted rs last → last = cores ∧ rs ≠ [])) ∧
  (∀ (k : Nat) (rs : List CoreAbort) (last : List State),
    Run.cycles k (.aborted rs last) = .aborted rs last)

/-- R244 (the order is the spec's decision D23): an abort carries exactly the reasons that hold in the
cycle, each with its core, lowest core first and within a core DataOutOfBounds, FetchMisaligned,
FetchOutOfBounds. -/
def Obligations.AbortReasonOrder : Prop :=
  ∀ (cores last : List State) (rs : List CoreAbort),
    Run.cycle (.running cores) = .aborted rs last →
    (∀ (n : Nat) (x : AbortReason), { core := n, reason := x : CoreAbort } ∈ rs ↔
      ∃ s f, cores[n]? = some s ∧ step s = .fault f ∧ x ∈ f.reasons) ∧
    rs.Pairwise (fun x y => x.core < y.core ∨
      (x.core = y.core ∧ x.reason.rank < y.reason.rank))

/-- R252: cores share nothing: while a run goes on, each core's next state is its own step, whatever
the other cores hold. -/
def Obligations.CoresAreIndependent : Prop :=
  ∀ cores next : List State, Run.cycle (.running cores) = .running next →
    next.length = cores.length ∧
    ∀ (n : Nat) (s : State), cores[n]? = some s → ∃ t, step s = .next t ∧ next[n]? = some t
end

