-- ==== Sys2Proof/Laws/Memory.lean ====
section
/-! SUPPORT. Laws of the memory operations: a read after a write to the same address gives the value written, a
write leaves every other address alone, and every operation keeps the canonical form. -/

namespace Sys2Proof.Machine

@[simp] theorem Memory.find_remove_same (m : Memory) (a : Nat) : (m.remove a).find a = none := by
  induction m with
  | nil => rfl
  | cons c m ih =>
    obtain ⟨k, b⟩ := c
    by_cases h : k = a <;> simp [Memory.remove, Memory.find, h, ih]

theorem Memory.find_remove_other (m : Memory) {a x : Nat} (h : x ≠ a) :
    (m.remove a).find x = m.find x := by
  induction m with
  | nil => rfl
  | cons c m ih =>
    obtain ⟨k, b⟩ := c
    by_cases hk : k = a
    · subst hk
      simp [Memory.remove, Memory.find, ih, Ne.symm h]
    · simp [Memory.remove, Memory.find, hk, ih]

@[simp] theorem Memory.find_put_same (m : Memory) (a : Nat) (v : Byte) :
    (m.put a v).find a = some v := by
  induction m with
  | nil => simp [Memory.put, Memory.find]
  | cons c m ih =>
    obtain ⟨k, b⟩ := c
    by_cases h1 : a < k
    · simp [Memory.put, Memory.find, h1]
    · by_cases h2 : a = k
      · simp [Memory.put, Memory.find, h2]
      · simp [Memory.put, Memory.find, h1, h2, Ne.symm h2, ih]

theorem Memory.find_put_other (m : Memory) {a x : Nat} (v : Byte) (h : x ≠ a) :
    (m.put a v).find x = m.find x := by
  induction m with
  | nil => simp [Memory.put, Memory.find, Ne.symm h]
  | cons c m ih =>
    obtain ⟨k, b⟩ := c
    by_cases h1 : a < k
    · simp [Memory.put, Memory.find, h1, Ne.symm h]
    · by_cases h2 : a = k
      · subst h2
        simp [Memory.put, Memory.find, Ne.symm h]
      · simp [Memory.put, Memory.find, h1, h2, ih]

/-- A byte read after a byte write to the same address. -/
@[simp] theorem Memory.readByte_writeByte_same (d : Nat → Byte) (m : Memory) (a : Nat) (v : Byte) :
    (m.writeByte d a v).readByte d a = v := by
  by_cases h : v = d a <;> simp [Memory.writeByte, Memory.readByte, h]

/-- A byte write leaves every other address alone. -/
theorem Memory.readByte_writeByte_other (d : Nat → Byte) (m : Memory) {a x : Nat} (v : Byte)
    (h : x ≠ a) : (m.writeByte d a v).readByte d x = m.readByte d x := by
  by_cases hv : v = d a <;>
    simp [Memory.writeByte, Memory.readByte, hv, Memory.find_remove_other _ h,
      Memory.find_put_other _ _ h]

/-- A byte at an address, after a byte write. -/
theorem Memory.readByte_writeByte (d : Nat → Byte) (m : Memory) (a x : Nat) (v : Byte) :
    (m.writeByte d a v).readByte d x = if x = a then v else m.readByte d x := by
  by_cases h : x = a
  · simp [h]
  · simp [h, Memory.readByte_writeByte_other d m v h]

/-- A byte after a word write: one of the word's four bytes, else as before. -/
theorem Memory.readByte_writeWord (d : Nat → Byte) (m : Memory) (i x : Nat) (v : Word) :
    (m.writeWord d i v).readByte d x =
      if x / 4 = i then byteOf v (x % 4) else m.readByte d x := by
  simp only [Memory.writeWord, Memory.readByte_writeByte]
  by_cases h : x / 4 = i
  · have h4 : x % 4 < 4 := Nat.mod_lt _ (by omega)
    have hx : x = 4 * i + x % 4 := by omega
    rw [if_pos h]
    generalize hr : x % 4 = r at h4 hx
    subst hx
    interval_cases r <;> simp
  · have h0 : x ≠ 4 * i := by omega
    have h1 : x ≠ 4 * i + 1 := by omega
    have h2 : x ≠ 4 * i + 2 := by omega
    have h3 : x ≠ 4 * i + 3 := by omega
    simp [h, h0, h1, h2, h3]

/-- The four bytes of a word make the word (R73). -/
@[simp] theorem wordOfBytes_byteOf (w : Word) :
    wordOfBytes (byteOf w 0) (byteOf w 1) (byteOf w 2) (byteOf w 3) = w := by
  apply BitVec.eq_of_getLsbD_eq
  intro i hi
  simp only [wordOfBytes, byteOf, BitVec.getLsbD_append, BitVec.getLsbD_extractLsb']
  interval_cases i <;> simp

/-- A word read after a word write to the same index. -/
@[simp] theorem Memory.readWord_writeWord_same (d : Nat → Byte) (m : Memory) (i : Nat) (v : Word) :
    (m.writeWord d i v).readWord d i = v := by
  have e0 : 4 * i / 4 = i := by omega
  have e1 : (4 * i + 1) / 4 = i := by omega
  have e2 : (4 * i + 2) / 4 = i := by omega
  have e3 : (4 * i + 3) / 4 = i := by omega
  have m0 : 4 * i % 4 = 0 := by omega
  have m1 : (4 * i + 1) % 4 = 1 := by omega
  have m2 : (4 * i + 2) % 4 = 2 := by omega
  have m3 : (4 * i + 3) % 4 = 3 := by omega
  simp [Memory.readWord, Memory.readByte_writeWord, e0, e1, e2, e3, m0, m1, m2, m3]

/-- A word write leaves every other word alone. -/
theorem Memory.readWord_writeWord_other (d : Nat → Byte) (m : Memory) {i j : Nat} (v : Word)
    (h : j ≠ i) : (m.writeWord d i v).readWord d j = m.readWord d j := by
  have e0 : 4 * j / 4 = j := by omega
  have e1 : (4 * j + 1) / 4 ≠ i := by omega
  have e2 : (4 * j + 2) / 4 ≠ i := by omega
  have e3 : (4 * j + 3) / 4 ≠ i := by omega
  simp [Memory.readWord, Memory.readByte_writeWord, e0, e1, e2, e3, h]

/-! ## The canonical form is kept -/

theorem Memory.mem_remove {m : Memory} {a : Nat} {c : Host.Cell} (h : c ∈ m.remove a) : c ∈ m := by
  induction m with
  | nil => exact h
  | cons e m ih =>
    obtain ⟨k, b⟩ := e
    by_cases hk : k = a
    · simp only [Memory.remove, hk, if_true] at h
      exact List.mem_cons_of_mem _ (ih h)
    · simp only [Memory.remove, hk, if_false, List.mem_cons] at h
      rcases h with h | h
      · exact h ▸ List.mem_cons_self
      · exact List.mem_cons_of_mem _ (ih h)

theorem Memory.mem_put {m : Memory} {a : Nat} {v : Byte} {c : Host.Cell} (h : c ∈ m.put a v) :
    c = (a, v) ∨ c ∈ m := by
  induction m with
  | nil => simpa [Memory.put] using h
  | cons e m ih =>
    obtain ⟨k, b⟩ := e
    by_cases h1 : a < k
    · simpa [Memory.put, h1] using h
    · by_cases h2 : a = k
      · simp only [Memory.put, h2, lt_irrefl, if_false, if_true, List.mem_cons] at h
        rcases h with h | h
        · exact .inl (h2 ▸ h)
        · exact .inr (List.mem_cons_of_mem _ h)
      · simp only [Memory.put, h1, h2, if_false, List.mem_cons] at h
        rcases h with h | h
        · exact .inr (h ▸ List.mem_cons_self)
        · rcases ih h with h | h
          · exact .inl h
          · exact .inr (List.mem_cons_of_mem _ h)

theorem Memory.sorted_remove {m : Memory} (a : Nat)
    (h : m.Pairwise (fun x y => x.1 < y.1)) : (m.remove a).Pairwise (fun x y => x.1 < y.1) := by
  induction m with
  | nil => exact h
  | cons e m ih =>
    obtain ⟨k, b⟩ := e
    rw [List.pairwise_cons] at h
    by_cases hk : k = a
    · simpa [Memory.remove, hk] using ih h.2
    · simp only [Memory.remove, hk, if_false, List.pairwise_cons]
      exact ⟨fun c hc => h.1 c (Memory.mem_remove hc), ih h.2⟩

theorem Memory.sorted_put {m : Memory} (a : Nat) (v : Byte)
    (h : m.Pairwise (fun x y => x.1 < y.1)) : (m.put a v).Pairwise (fun x y => x.1 < y.1) := by
  induction m with
  | nil => simp [Memory.put]
  | cons e m ih =>
    obtain ⟨k, b⟩ := e
    have h' := List.pairwise_cons.mp h
    by_cases h1 : a < k
    · simp only [Memory.put, h1, if_true]
      refine List.pairwise_cons.mpr ⟨fun c hc => ?_, h⟩
      rcases List.mem_cons.mp hc with hc | hc
      · simpa [hc] using h1
      · exact lt_trans h1 (h'.1 c hc)
    · by_cases h2 : a = k
      · simp only [Memory.put, h2, lt_irrefl, if_false, if_true]
        exact List.pairwise_cons.mpr ⟨fun c hc => h'.1 c hc, h'.2⟩
      · simp only [Memory.put, h1, h2, if_false]
        refine List.pairwise_cons.mpr ⟨fun c hc => ?_, ih h'.2⟩
        rcases Memory.mem_put hc with hc | hc
        · rw [hc]; omega
        · exact h'.1 c hc

/-- A byte write keeps the canonical form. -/
theorem Memory.wf_writeByte {d : Nat → Byte} {m : Memory} (a : Nat) (v : Byte) (h : m.wf d) :
    (m.writeByte d a v).wf d := by
  by_cases hv : v = d a
  · simp only [Memory.writeByte, hv, if_true]
    exact ⟨Memory.sorted_remove a h.1, fun c hc => h.2 c (Memory.mem_remove hc)⟩
  · simp only [Memory.writeByte, hv, if_false]
    refine ⟨Memory.sorted_put a v h.1, fun c hc => ?_⟩
    rcases Memory.mem_put hc with hc | hc
    · rw [hc]; exact hv
    · exact h.2 c hc

/-- A word write keeps the canonical form. -/
theorem Memory.wf_writeWord {d : Nat → Byte} {m : Memory} (i : Nat) (v : Word) (h : m.wf d) :
    (m.writeWord d i v).wf d :=
  Memory.wf_writeByte _ _ (Memory.wf_writeByte _ _ (Memory.wf_writeByte _ _
    (Memory.wf_writeByte _ _ h)))

/-- A byte write lists no address but its own. -/
theorem Memory.mem_writeByte {d : Nat → Byte} {m : Memory} {a : Nat} {v : Byte} {c : Host.Cell}
    (h : c ∈ m.writeByte d a v) : c.1 = a ∨ c ∈ m := by
  by_cases hv : v = d a
  · simp only [Memory.writeByte, hv, if_true] at h
    exact .inr (Memory.mem_remove h)
  · simp only [Memory.writeByte, hv, if_false] at h
    exact (Memory.mem_put h).imp (fun h => by rw [h]) id

/-- A write inside the array keeps the memory an array of its size. -/
theorem Memory.within_writeWord {d : Nat → Byte} {m : Memory} {words i : Nat} (v : Word)
    (hi : i < words) (h : m.within words) : (m.writeWord d i v).within words := by
  intro c hc
  rcases Memory.mem_writeByte hc with hc | hc
  · omega
  rcases Memory.mem_writeByte hc with hc | hc
  · omega
  rcases Memory.mem_writeByte hc with hc | hc
  · omega
  rcases Memory.mem_writeByte hc with hc | hc
  · omega
  exact h c hc

end Sys2Proof.Machine
end

