-- ==== Sys2Proof/Laws/Registers.lean ====
section
/-! SUPPORT. Laws of the register file: x0 reads as 0 and discards writes (spec/10_state.md R28); a write changes
the one register it names. -/

namespace Sys2Proof.Machine

@[simp] theorem RegFile.read_zero (rf : RegFile) : RegFile.read rf 0#5 = 0#32 := by
  simp [RegFile.read]

@[simp] theorem RegFile.write_zero (rf : RegFile) (v : Word) : RegFile.write rf 0#5 v = rf := by
  simp [RegFile.write]

/-- A read after a write to the same register. -/
theorem RegFile.read_write_same (rf : RegFile) {r : RegIdx} (v : Word) (h : r ≠ 0#5) :
    RegFile.read (RegFile.write rf r v) r = v := by
  simp [RegFile.read, RegFile.write, h, Vector.get_eq_getElem]

/-- A write leaves every other register alone. -/
theorem RegFile.read_write_other (rf : RegFile) {r x : RegIdx} (v : Word) (h : x ≠ r) :
    RegFile.read (RegFile.write rf r v) x = RegFile.read rf x := by
  have hn : r.toNat ≠ x.toNat := fun e => h (BitVec.eq_of_toNat_eq e.symm)
  by_cases hr : r = 0#5
  · simp [hr]
  · by_cases hx : x = 0#5
    · simp [hx]
    · simp [RegFile.read, RegFile.write, hr, hx, Vector.get_eq_getElem, hn]

/-- A register, after a write. -/
theorem RegFile.read_write (rf : RegFile) (r x : RegIdx) (v : Word) :
    RegFile.read (RegFile.write rf r v) x =
      if x = 0#5 then 0#32 else if x = r then v else RegFile.read rf x := by
  by_cases hx : x = 0#5
  · simp [hx]
  · by_cases h : x = r
    · subst h
      simp [hx, RegFile.read_write_same rf v hx]
    · simp [hx, h, RegFile.read_write_other rf v h]

/-- No write changes slot 0. -/
@[simp] theorem RegFile.write_slot_zero (rf : RegFile) (r : RegIdx) (v : Word) :
    (RegFile.write rf r v).get 0 = rf.get 0 := by
  by_cases hr : r = 0#5
  · simp [hr]
  · have hn : r.toNat ≠ 0 := fun e => hr (BitVec.eq_of_toNat_eq (by simpa using e))
    simp [RegFile.write, hr, Vector.get_eq_getElem, hn]

end Sys2Proof.Machine
end

