-- ==== Sys2Proof/Laws/State.lean ====
section
/-! SUPPORT. One lemma per field per update of `State`: what `commit` and `presentWord` make of each field. -/

namespace Sys2Proof.Machine

variable (d : DecodeOut) (f : Word × Option FDPayload)
  (m : Option MWPayload × Option (Nat × Word)) (s : State)

@[simp] theorem commit_params : (commit d f m s).params = s.params := rfl
@[simp] theorem commit_pc : (commit d f m s).pc = f.1 := rfl
@[simp] theorem commit_fd : (commit d f m s).fd = f.2 := rfl
@[simp] theorem commit_saved : (commit d f m s).saved = d.saved := rfl
@[simp] theorem commit_de : (commit d f m s).de = d.de := rfl
@[simp] theorem commit_em : (commit d f m s).em = s.de.map executePayload := rfl
@[simp] theorem commit_mw : (commit d f m s).mw = m.1 := rfl
@[simp] theorem commit_wbc : (commit d f m s).wbc = (writeBack s.mw).map Prod.fst := rfl
@[simp] theorem commit_sb : (commit d f m s).sb = d.sb := rfl
@[simp] theorem commit_rf : (commit d f m s).rf = commitRf s.rf (writeBack s.mw) := rfl
@[simp] theorem commit_imem : (commit d f m s).imem = s.imem := rfl
@[simp] theorem commit_dmem : (commit d f m s).dmem = commitDmem s.params s.dmem m.2 := rfl

@[simp] theorem presentWord_params (w : Word) : (s.presentWord w).params = s.params := rfl
@[simp] theorem presentWord_pc (w : Word) : (s.presentWord w).pc = s.pc + 4 := rfl
@[simp] theorem presentWord_fd (w : Word) :
    (s.presentWord w).fd = some { inst := w, pc := s.pc } := rfl
@[simp] theorem presentWord_saved (w : Word) : (s.presentWord w).saved = none := rfl
@[simp] theorem presentWord_de (w : Word) : (s.presentWord w).de = s.de := rfl
@[simp] theorem presentWord_em (w : Word) : (s.presentWord w).em = s.em := rfl
@[simp] theorem presentWord_mw (w : Word) : (s.presentWord w).mw = s.mw := rfl
@[simp] theorem presentWord_wbc (w : Word) : (s.presentWord w).wbc = s.wbc := rfl
@[simp] theorem presentWord_sb (w : Word) : (s.presentWord w).sb = s.sb := rfl
@[simp] theorem presentWord_rf (w : Word) : (s.presentWord w).rf = s.rf := rfl
@[simp] theorem presentWord_dmem (w : Word) : (s.presentWord w).dmem = s.dmem := rfl
@[simp] theorem presentWord_candidate (w : Word) :
    (s.presentWord w).candidate = some { inst := w, pc := s.pc } := rfl

end Sys2Proof.Machine
end

