-- ==== Sys2Proof/Laws/Cycle.lean ====
section
/-! SUPPORT. What a cycle can do, said once: each stage's cases, and the inversion of `cycleWith`, `exec` and
`step`. Later proofs cite these and do not unfold the machine. -/

namespace Sys2Proof.Machine

/-! ## Stages -/

theorem candidate_saved {s : State} {p : FDPayload} (h : s.saved = some p) :
    s.candidate = some p := by simp [State.candidate, h]

theorem candidate_fd {s : State} (h : s.saved = none) : s.candidate = s.fd := by
  simp [State.candidate, h]

theorem candidate_none {s : State} : s.candidate = none ↔ s.saved = none ∧ s.fd = none := by
  cases h : s.saved <;> simp [State.candidate, h]

/-- The released scoreboard, bit by bit (R125). -/
theorem released_bit (s : State) (r : RegIdx) :
    s.released.getLsbD r.toNat = (s.sb.getLsbD r.toNat && !(s.wbc == some r)) := by
  have hr : r.toNat < 32 := r.isLt
  cases hw : s.wbc with
  | none => simp [State.released, hw]
  | some x =>
    by_cases hx : x = r
    · subst hx
      simp [State.released, hw, hr]
    · have hn : r.toNat ≠ x.toNat := fun e => hx (BitVec.eq_of_toNat_eq e.symm)
      have hx' : x.toNat < 32 := x.isLt
      simp only [State.released, hw, BitVec.getLsbD_and, BitVec.getLsbD_not,
        BitVec.getLsbD_shiftLeft, hr, decide_true, Bool.true_and, BitVec.getLsbD_one]
      have : (some x == some r) = false := by simpa using hx
      rw [this]
      by_cases hlt : r.toNat < x.toNat
      · simp [hlt]
      · have : ¬ (r.toNat - x.toNat = 0) := by omega
        simp [this]

/-- Locking a destination, bit by bit (R131). -/
theorem lockDest_bit (sb : BitVec 32) (dest : Option RegIdx) (r : RegIdx) :
    (lockDest sb dest).getLsbD r.toNat =
      (sb.getLsbD r.toNat || (r != 0#5 && dest == some r)) := by
  have hr : r.toNat < 32 := r.isLt
  cases dest with
  | none => simp [lockDest]
  | some x =>
    by_cases hx0 : x = 0#5
    · subst hx0
      by_cases h : r = 0#5
      · simp [lockDest, h]
      · have : ((some 0#5 : Option RegIdx) == some r) = false := by
          simpa using fun e : 0#5 = r => h e.symm
        simp [lockDest, this]
    · by_cases hx : x = r
      · subst hx
        simp [lockDest, hx0, hr]
      · have hn : r.toNat ≠ x.toNat := fun e => hx (BitVec.eq_of_toNat_eq e.symm)
        have hx' : x.toNat < 32 := x.isLt
        have he : (some x == some r) = false := by simpa using hx
        simp only [lockDest, hx0, if_false, BitVec.getLsbD_or, BitVec.getLsbD_shiftLeft, hr,
          decide_true, Bool.true_and, BitVec.getLsbD_one, he, Bool.and_false, Bool.or_false]
        by_cases hlt : r.toNat < x.toNat
        · simp [hlt]
        · have : ¬ (r.toNat - x.toNat = 0) := by omega
          simp [this]

/-- Fetch's three cases (R122). -/
theorem fetchStage_ok {stall : Bool} {redirect : Option Word} {s : State}
    {f : Word × Option FDPayload} (h : fetchStage stall redirect s = .ok f) :
    (∃ t, redirect = some t ∧ f = (t, none)) ∨
    (redirect = none ∧ stall = true ∧ f = (s.pc, none)) ∨
    (redirect = none ∧ stall = false ∧ ∃ i, fetchIndex s.params s.pc = .ok i ∧
      f = (s.pc + 4, some { inst := imemRead s.imem i, pc := s.pc })) := by
  cases redirect with
  | some t => exact .inl ⟨t, rfl, by simpa [fetchStage] using h.symm⟩
  | none =>
    cases stall with
    | true => exact .inr (.inl ⟨rfl, rfl, by simpa [fetchStage] using h.symm⟩)
    | false =>
      cases hi : fetchIndex s.params s.pc with
      | error a => simp [fetchStage, hi] at h
      | ok i => exact .inr (.inr ⟨rfl, rfl, i, rfl, by simpa [fetchStage, hi] using h.symm⟩)

/-- Every way a fetch address has no word index, with the conditions of R241 that the abort carries. -/
theorem fetchIndex_error {p : Params} {pc : Word} {a : FetchAbort} :
    fetchIndex p pc = .error a ↔
      ((p.misalignedFetch = .fatal ∧ pc.toNat % 4 ≠ 0) ∧ pc.toNat / 4 < p.imemWords ∧
        a = .misaligned pc) ∨
      (¬(p.misalignedFetch = .fatal ∧ pc.toNat % 4 ≠ 0) ∧ p.imemWords ≤ pc.toNat / 4 ∧
        a = .outOfBounds pc) ∨
      ((p.misalignedFetch = .fatal ∧ pc.toNat % 4 ≠ 0) ∧ p.imemWords ≤ pc.toNat / 4 ∧
        a = .misalignedOutOfBounds pc) := by
  have h4 : (pc >>> 2).toNat = pc.toNat / 4 := by simp [Nat.shiftRight_eq_div_pow]
  have hlow : pc.extractLsb' 0 2 = 0#2 ↔ pc.toNat % 4 = 0 := by
    rw [← BitVec.toNat_inj]
    simp [BitVec.extractLsb'_toNat]
  unfold fetchIndex
  simp only [h4, ne_eq, hlow]
  by_cases hm : p.misalignedFetch = .fatal ∧ ¬pc.toNat % 4 = 0 <;>
    by_cases ho : p.imemWords ≤ pc.toNat / 4
  · simp only [if_pos hm, if_pos ho]; simp [hm, ho, eq_comm]
  · simp only [if_pos hm, if_neg ho]; simp [hm, ho, Nat.lt_of_not_le ho, eq_comm]
  · simp only [if_neg hm, if_pos ho]
    simp only [hm, ho, not_false_eq_true, true_and, false_and, false_or, or_false]
    simp [eq_comm]
  · simp only [if_neg hm, if_neg ho]
    simp only [hm, ho, and_false, false_and, or_false]
    simp

/-- When fetch aborts (R124). -/
theorem fetchStage_error {stall : Bool} {redirect : Option Word} {s : State} {a : FetchAbort} :
    fetchStage stall redirect s = .error a ↔
      redirect = none ∧ stall = false ∧ fetchIndex s.params s.pc = .error a := by
  cases redirect with
  | some t => simp [fetchStage]
  | none =>
    cases stall with
    | true => simp [fetchStage]
    | false => cases hi : fetchIndex s.params s.pc <;> simp [fetchStage, hi]

/-- A data index that exists is the address divided by 4, inside DMem (R75, R150). -/
theorem dataIndex_some {p : Params} {ea : Word} {i : Nat} :
    dataIndex p ea = some i ↔ i = ea.toNat / 4 ∧ i < p.dmemWords := by
  have h4 : (ea >>> 2).toNat = ea.toNat / 4 := by simp [Nat.shiftRight_eq_div_pow]
  unfold dataIndex
  rw [h4]
  split
  · simp only [reduceCtorEq, false_iff, not_and]
    omega
  · simp only [Option.some.injEq]
    omega

theorem dataIndex_none {p : Params} {ea : Word} :
    dataIndex p ea = none ↔ p.dmemWords ≤ ea.toNat / 4 := by
  have h4 : (ea >>> 2).toNat = ea.toNat / 4 := by simp [Nat.shiftRight_eq_div_pow]
  unfold dataIndex
  rw [h4]
  split <;> simp_all

/-- The memory stage's cases on a payload (R151). -/
theorem accessMemory_ok {p : Params} {dm : Memory} {m : EMPayload} {w : MWPayload}
    {st : Option (Nat × Word)} (h : accessMemory p dm m = .ok (w, st)) :
    w.dest = m.dest ∧
    ((m.mem = .none ∧ w.val = m.wbv ∧ st = none) ∨
     (m.mem = .load ∧ ∃ i, dataIndex p m.res = some i ∧ w.val = dmemRead p dm i ∧ st = none) ∨
     (m.mem = .store ∧ ∃ i, dataIndex p m.res = some i ∧ w.val = m.wbv ∧
       st = some (i, m.sdata))) := by
  cases hm : m.mem with
  | none =>
    simp only [accessMemory, hm, Except.ok.injEq, Prod.mk.injEq] at h
    obtain ⟨rfl, rfl⟩ := h
    exact ⟨rfl, .inl ⟨rfl, rfl, rfl⟩⟩
  | load =>
    cases hi : dataIndex p m.res with
    | none => simp [accessMemory, hm, hi] at h
    | some i =>
      simp only [accessMemory, hm, hi, Except.ok.injEq, Prod.mk.injEq] at h
      obtain ⟨rfl, rfl⟩ := h
      exact ⟨rfl, .inr (.inl ⟨rfl, i, rfl, rfl, rfl⟩)⟩
  | store =>
    cases hi : dataIndex p m.res with
    | none => simp [accessMemory, hm, hi] at h
    | some i =>
      simp only [accessMemory, hm, hi, Except.ok.injEq, Prod.mk.injEq] at h
      obtain ⟨rfl, rfl⟩ := h
      exact ⟨rfl, .inr (.inr ⟨rfl, i, rfl, rfl, rfl⟩)⟩

/-- When the memory stage aborts on a payload (R150). -/
theorem accessMemory_error {p : Params} {dm : Memory} {m : EMPayload} {ea : Word} :
    accessMemory p dm m = .error ea ↔
      m.mem ≠ .none ∧ ea = m.res ∧ dataIndex p m.res = none := by
  cases hm : m.mem <;> cases hi : dataIndex p m.res <;> simp [accessMemory, hm, hi, eq_comm]

theorem memoryStage_none {s : State} (h : s.em = none) : memoryStage s = .ok (none, none) := by
  simp [memoryStage, h]

theorem memoryStage_some {s : State} {m : EMPayload} (h : s.em = some m) :
    memoryStage s =
      match accessMemory s.params s.dmem m with
      | .error ea => .error ea
      | .ok (w, st) => .ok (some w, st) := by
  cases hm : accessMemory s.params s.dmem m <;> simp [memoryStage, h, hm]

/-- Write-back writes exactly for a present destination other than 0 (R155). -/
theorem writeBack_some {mw : Option MWPayload} {r : RegIdx} {v : Word} :
    writeBack mw = some (r, v) ↔ mw = some { val := v, dest := some r } ∧ r ≠ 0#5 := by
  cases mw with
  | none => simp [writeBack]
  | some w =>
    obtain ⟨v', dest⟩ := w
    cases dest with
    | none => simp [writeBack]
    | some r' =>
      by_cases h : r' = 0#5
      · subst h
        simp only [writeBack, if_true, reduceCtorEq, Option.some.injEq, MWPayload.mk.injEq,
          false_iff, not_and, not_not]
        rintro ⟨-, rfl⟩
        rfl
      · simp only [writeBack, if_neg h, Option.some.injEq, Prod.mk.injEq, MWPayload.mk.injEq]
        constructor
        · rintro ⟨rfl, rfl⟩
          exact ⟨⟨rfl, rfl⟩, h⟩
        · rintro ⟨⟨rfl, rfl⟩, -⟩
          exact ⟨rfl, rfl⟩

/-! ## The cycle -/

/-- A cycle goes on iff neither stage aborts, and its next state is the commit (R160). -/
theorem cycleWith_next {d : DecodeOut} {s t : State} :
    cycleWith d s = .next t ↔
      ∃ m f, memoryStage s = .ok m ∧ fetchStage d.stall s.redirectWire s = .ok f ∧
        t = commit d f m s := by
  cases hm : memoryStage s <;> cases hf : fetchStage d.stall s.redirectWire s <;>
    simp [cycleWith, hm, hf, eq_comm]

/-- How a cycle aborts (R243, R244). -/
theorem cycleWith_fault {d : DecodeOut} {s : State} {x : Fault} :
    cycleWith d s = .fault x ↔
      (∃ ea f, memoryStage s = .error ea ∧ fetchStage d.stall s.redirectWire s = .ok f ∧
        x = .dataOutOfBounds ea) ∨
      (∃ m a, memoryStage s = .ok m ∧ fetchStage d.stall s.redirectWire s = .error a ∧
        x = .fetch a) ∨
      (∃ ea a, memoryStage s = .error ea ∧ fetchStage d.stall s.redirectWire s = .error a ∧
        x = .dataAndFetch ea a) := by
  cases hm : memoryStage s <;> cases hf : fetchStage d.stall s.redirectWire s <;>
    simp [cycleWith, hm, hf, eq_comm]

/-- A cycle is never refused. -/
theorem cycleWith_not_refused (d : DecodeOut) (s : State) (r : Refusal) :
    cycleWith d s ≠ .refused r := by
  cases hm : memoryStage s <;> cases hf : fetchStage d.stall s.redirectWire s <;>
    simp [cycleWith, hm, hf]

/-- Every meaning is the decode cycle of its row of R98. -/
theorem exec_eq_decodeCycle (i : Instr) (s : State) : exec i s = decodeCycle (controlOf i) s := by
  cases i <;> rfl

/-- `exec` where decode holds an instruction. -/
theorem exec_of_candidate {s : State} {p : FDPayload} (i : Instr) (h : s.candidate = some p) :
    exec i s = cycleWith (decodeStage (controlOf i) p s) s := by
  simp [exec_eq_decodeCycle, decodeCycle, h]

/-- `step` is the cycle with what decode does in it (R120, R134). -/
theorem step_eq_cycle (s : State) : step s = cycleWith s.decodeOut s := by
  cases h : s.candidate with
  | none => simp [step, State.decodeOut, h, idleCycle]
  | some p => simp [step, State.decodeOut, h, exec_of_candidate _ h, candidateControl]

/-- The inversion of a step: everything it can do when it goes on. -/
theorem step_next {s t : State} :
    step s = .next t ↔
      ∃ m f, memoryStage s = .ok m ∧ fetchStage s.stallWire s.redirectWire s = .ok f ∧
        t = commit s.decodeOut f m s := by
  rw [step_eq_cycle]; exact cycleWith_next

/-- A step is never refused. -/
theorem step_not_refused (s : State) (r : Refusal) : step s ≠ .refused r := by
  rw [step_eq_cycle]; exact cycleWith_not_refused _ _ _

/-- What decode does where it holds an instruction. -/
theorem decodeOut_of_holds {s : State} {p : FDPayload} {i : Instr} (h : s.decodeHolds p i) :
    s.decodeOut = decodeStage (controlOf i) p s := by
  simp [State.decodeOut, h.1, candidateControl, h.2]

theorem decodeOut_nothing {s : State} (h : s.candidate = none) : s.decodeOut = decodeNothing s := by
  simp [State.decodeOut, h]

/-- `exec` of the instruction decode holds is the step. -/
theorem step_of_holds {s : State} {p : FDPayload} {i : Instr} (h : s.decodeHolds p i) :
    step s = exec i s := by
  simp [step, h.1, h.2]

/-- The instruction decode issues, and that there is no hazard. -/
theorem issued_some {s : State} {i : Instr} :
    s.issued = some i ↔ ∃ p, s.decodeHolds p i ∧ hazard (controlOf i) p s = false := by
  cases h : s.candidate with
  | none => simp [State.issued, State.decodeHolds, h]
  | some p =>
    have hi : s.issued = if hazard (candidateControl s p) p s then none
        else some (decodeWord s.params.narrowMem p.inst) := by simp [State.issued, h]
    rw [hi]
    constructor
    · intro he
      split at he
      · simp at he
      · rename_i hz
        simp only [Option.some.injEq] at he
        subst he
        exact ⟨p, ⟨h, rfl⟩, by simpa [candidateControl] using hz⟩
    · rintro ⟨q, ⟨hq, rfl⟩, hz⟩
      obtain rfl : p = q := by simpa [h] using hq
      simp [candidateControl, hz]

/-! ## Runs -/

@[simp] theorem cycles_zero (s : State) : cycles 0 s = .next s := rfl

theorem cycles_succ_next {k : Nat} {s u : State} :
    cycles (k + 1) s = .next u ↔ ∃ t, step s = .next t ∧ cycles k t = .next u := by
  cases h : step s <;> simp [cycles, h]

/-- The host's run, one step at a time. -/
theorem run_next (M : Host.Core) (k : Nat) {x y : M.State} (h : M.step x = .next y) :
    M.run (k + 1) x = M.run k y := by rw [Host.Core.run, h]
theorem run_fault (M : Host.Core) (k : Nat) {x : M.State} {r : M.Fault} (h : M.step x = .fault r) :
    M.run (k + 1) x = .fault r := by rw [Host.Core.run, h]
theorem run_refused (M : Host.Core) (k : Nat) {x : M.State} {r : M.Refusal}
    (h : M.step x = .refused r) : M.run (k + 1) x = .refused r := by rw [Host.Core.run, h]

/-- `cycles` is the host's run of the core. -/
theorem cycles_eq_run (k : Nat) (s : State) : cycles k s = Sys2Proof.core.run k s := by
  induction k generalizing s with
  | zero => rfl
  | succ k ih =>
    cases h : step s with
    | next t =>
      have e : cycles (k + 1) s = cycles k t := by simp [cycles, h]
      exact e.trans ((ih t).trans (run_next Sys2Proof.core k h).symm)
    | fault r =>
      have e : cycles (k + 1) s = .fault r := by simp [cycles, h]
      exact e.trans (run_fault Sys2Proof.core k h).symm
    | refused r =>
      have e : cycles (k + 1) s = .refused r := by simp [cycles, h]
      exact e.trans (run_refused Sys2Proof.core k h).symm

/-- Package of an induction over cycles: what every step keeps, every run keeps. -/
theorem cycles_keep {P : State → Prop} (hstep : ∀ {s t}, P s → step s = .next t → P t) :
    ∀ (k : Nat) {s t : State}, P s → cycles k s = .next t → P t
  | 0, s, t, hs, h => by
    have h' : Host.Outcome.next s = Host.Outcome.next t := h
    injection h' with h'
    exact h' ▸ hs
  | k + 1, s, t, hs, h => by
    obtain ⟨u, hu, ht⟩ := cycles_succ_next.mp h
    exact cycles_keep hstep k (hstep hs hu) ht

end Sys2Proof.Machine
end

