-- ==== Sys2Proof/Laws/Encoding.lean ====
section
/-! SUPPORT. The fields of an encoded word (spec/30_encoding.md R91, R92) and the rows of the match table by
their fields (R96). -/

namespace Sys2Proof

/-! ## What each format puts in the fixed fields -/

theorem encodeR_fields (f7 : BitVec 7) (f3 : BitVec 3) (op : BitVec 7) (rd rs1 rs2 : RegIdx) :
    opcodeOf (encodeR f7 f3 op rd rs1 rs2) = op ∧ funct3Of (encodeR f7 f3 op rd rs1 rs2) = f3 ∧
    funct7Of (encodeR f7 f3 op rd rs1 rs2) = f7 ∧ rdOf (encodeR f7 f3 op rd rs1 rs2) = rd ∧
    rs1Of (encodeR f7 f3 op rd rs1 rs2) = rs1 ∧ rs2Of (encodeR f7 f3 op rd rs1 rs2) = rs2 := by
  refine ⟨?_, ?_, ?_, ?_, ?_, ?_⟩ <;>
    (ext i hi
     simp only [encodeR, place, opcodeOf, funct3Of, funct7Of, rdOf, rs1Of, rs2Of, BitVec.getElem_extractLsb',
       BitVec.getLsbD_or, BitVec.getLsbD_shiftLeft, BitVec.getLsbD_setWidth]
     interval_cases i <;> simp [← BitVec.getLsbD_eq_getElem])

theorem encodeI_fields (f3 : BitVec 3) (op : BitVec 7) (rd rs1 : RegIdx) (imm : BitVec 12) :
    opcodeOf (encodeI f3 op rd rs1 imm) = op ∧ funct3Of (encodeI f3 op rd rs1 imm) = f3 ∧
    rdOf (encodeI f3 op rd rs1 imm) = rd ∧ rs1Of (encodeI f3 op rd rs1 imm) = rs1 ∧
    immIOf (encodeI f3 op rd rs1 imm) = imm := by
  refine ⟨?_, ?_, ?_, ?_, ?_⟩ <;>
    (ext i hi
     simp only [encodeI, place, opcodeOf, funct3Of, rdOf, rs1Of, immIOf, BitVec.getElem_extractLsb',
       BitVec.getLsbD_or, BitVec.getLsbD_shiftLeft, BitVec.getLsbD_setWidth]
     interval_cases i <;> simp [← BitVec.getLsbD_eq_getElem])

theorem encodeS_opcode (f3 : BitVec 3) (op : BitVec 7) (rs2 rs1 : RegIdx) (imm : BitVec 12) :
    opcodeOf (encodeS f3 op rs2 rs1 imm) = op ∧ funct3Of (encodeS f3 op rs2 rs1 imm) = f3 := by
  refine ⟨?_, ?_⟩ <;>
    (ext i hi
     simp only [encodeS, place, opcodeOf, funct3Of, BitVec.getElem_extractLsb',
       BitVec.getLsbD_or, BitVec.getLsbD_shiftLeft, BitVec.getLsbD_setWidth]
     interval_cases i <;> simp [← BitVec.getLsbD_eq_getElem])

theorem encodeB_opcode (f3 : BitVec 3) (op : BitVec 7) (rs1 rs2 : RegIdx) (imm : BitVec 13) :
    opcodeOf (encodeB f3 op rs1 rs2 imm) = op ∧ funct3Of (encodeB f3 op rs1 rs2 imm) = f3 := by
  refine ⟨?_, ?_⟩ <;>
    (ext i hi
     simp only [encodeB, place, opcodeOf, funct3Of, BitVec.getElem_extractLsb',
       BitVec.getLsbD_or, BitVec.getLsbD_shiftLeft, BitVec.getLsbD_setWidth]
     interval_cases i <;> simp [← BitVec.getLsbD_eq_getElem])

theorem encodeU_opcode (op : BitVec 7) (rd : RegIdx) (imm : BitVec 20) :
    opcodeOf (encodeU op rd imm) = op := by
  ext i hi
  simp only [encodeU, place, opcodeOf, BitVec.getElem_extractLsb',
    BitVec.getLsbD_or, BitVec.getLsbD_shiftLeft, BitVec.getLsbD_setWidth]
  interval_cases i <;> simp [← BitVec.getLsbD_eq_getElem]

theorem encodeJ_opcode (op : BitVec 7) (rd : RegIdx) (imm : BitVec 21) :
    opcodeOf (encodeJ op rd imm) = op := by
  ext i hi
  simp only [encodeJ, place, opcodeOf, BitVec.getElem_extractLsb',
    BitVec.getLsbD_or, BitVec.getLsbD_shiftLeft, BitVec.getLsbD_setWidth]
  interval_cases i <;> simp [← BitVec.getLsbD_eq_getElem]

/-! ## A row of the match table, by fields -/

theorem mask_opcode_funct3_funct7 (w c : Word) :
    w &&& 0xFE00707F#32 = c ↔ c &&& 0xFE00707F#32 = c ∧
      opcodeOf w = opcodeOf c ∧ funct3Of w = funct3Of c ∧ funct7Of w = funct7Of c := by
  have key : ∀ v : Word, v &&& 0xFE00707F#32 =
      place 25 (funct7Of v) ||| place 12 (funct3Of v) ||| place 0 (opcodeOf v) := by
    intro v
    ext i hi
    simp only [place, opcodeOf, funct3Of, funct7Of, ← BitVec.getLsbD_eq_getElem]
    interval_cases i <;> simp
  constructor
  · rintro rfl
    refine ⟨by rw [BitVec.and_assoc]; simp, ?_, ?_, ?_⟩ <;>
      (ext i hi
       simp only [opcodeOf, funct3Of, funct7Of, BitVec.getElem_extractLsb', BitVec.getLsbD_and]
       interval_cases i <;> simp)
  · rintro ⟨hc, h1, h2, h3⟩
    rw [key, h1, h2, h3, ← key, hc]

theorem mask_opcode_funct3 (w c : Word) :
    w &&& 0x0000707F#32 = c ↔ c &&& 0x0000707F#32 = c ∧
      opcodeOf w = opcodeOf c ∧ funct3Of w = funct3Of c := by
  have key : ∀ v : Word, v &&& 0x0000707F#32 = place 12 (funct3Of v) ||| place 0 (opcodeOf v) := by
    intro v
    ext i hi
    simp only [place, opcodeOf, funct3Of, ← BitVec.getLsbD_eq_getElem]
    interval_cases i <;> simp
  constructor
  · rintro rfl
    refine ⟨by rw [BitVec.and_assoc]; simp, ?_, ?_⟩ <;>
      (ext i hi
       simp only [opcodeOf, funct3Of, BitVec.getElem_extractLsb', BitVec.getLsbD_and]
       interval_cases i <;> simp)
  · rintro ⟨hc, h1, h2⟩
    rw [key, h1, h2, ← key, hc]

theorem mask_opcode (w c : Word) :
    w &&& 0x0000007F#32 = c ↔ c &&& 0x0000007F#32 = c ∧ opcodeOf w = opcodeOf c := by
  have key : ∀ v : Word, v &&& 0x0000007F#32 = place 0 (opcodeOf v) := by
    intro v
    ext i hi
    simp only [place, opcodeOf, ← BitVec.getLsbD_eq_getElem]
    interval_cases i <;> simp
  constructor
  · rintro rfl
    refine ⟨by rw [BitVec.and_assoc]; simp, ?_⟩
    ext i hi
    simp only [opcodeOf, BitVec.getElem_extractLsb', BitVec.getLsbD_and]
    interval_cases i <;> simp
  · rintro ⟨hc, h1⟩
    rw [key, h1, ← key, hc]

/-- A row hits a word iff the fields that its mask keeps agree with its pattern's. -/
theorem row_hits {r : MatchRow} (hr : r ∈ matchTable) (w : Word) :
    r.hits w = true ↔ opcodeOf w = opcodeOf r.pattern ∧
      (r.mask ≠ 0x7F#32 → funct3Of w = funct3Of r.pattern) ∧
      (r.mask = 0xFE00707F#32 → funct7Of w = funct7Of r.pattern) := by
  have hm : ∀ r ∈ matchTable, r.pattern &&& r.mask = r.pattern ∧
      (r.mask = 0xFE00707F#32 ∨ r.mask = 0x0000707F#32 ∨ r.mask = 0x0000007F#32) := by decide
  obtain ⟨hp, h | h | h⟩ := hm r hr <;> rw [h] at hp <;>
    simp [MatchRow.hits, h, hp, mask_opcode_funct3_funct7, mask_opcode_funct3, mask_opcode]

end Sys2Proof
end

