-- ==== Sys2Proof/Laws/PerInstr.lean ====
section
/-! SUPPORT. Families of facts about every instruction as syntax, one lemma per constructor. -/

namespace Sys2Proof.Laws.EncodesItsRow

/-- The word of a well-formed instruction matches its own row of R96; a NOP has no row (R235). -/
def Statement (i : Instr) : Prop :=
  i.wellFormed = true → ∀ r ∈ matchTable, r.mnemonic = i.mnemonic → r.hits (encode i) = true

/-- A row with all three fixed fields. -/
theorem of_funct7 {m : String} {w : Word} {op : BitVec 7} {f3 : BitVec 3} {f7 : BitVec 7}
    (h : opcodeOf w = op ∧ funct3Of w = f3 ∧ funct7Of w = f7)
    (t : ∀ r ∈ matchTable, r.mnemonic = m →
      opcodeOf r.pattern = op ∧ funct3Of r.pattern = f3 ∧ funct7Of r.pattern = f7) :
    ∀ r ∈ matchTable, r.mnemonic = m → r.hits w = true := by
  intro r hr hm
  obtain ⟨h1, h2, h3⟩ := h
  obtain ⟨t1, t2, t3⟩ := t r hr hm
  exact (row_hits hr w).mpr ⟨by rw [h1, t1], fun _ => by rw [h2, t2], fun _ => by rw [h3, t3]⟩

/-- A row with opcode and funct3. -/
theorem of_funct3 {m : String} {w : Word} {op : BitVec 7} {f3 : BitVec 3}
    (h : opcodeOf w = op ∧ funct3Of w = f3)
    (t : ∀ r ∈ matchTable, r.mnemonic = m →
      opcodeOf r.pattern = op ∧ funct3Of r.pattern = f3 ∧ r.mask ≠ 0xFE00707F#32) :
    ∀ r ∈ matchTable, r.mnemonic = m → r.hits w = true := by
  intro r hr hm
  obtain ⟨h1, h2⟩ := h
  obtain ⟨t1, t2, t3⟩ := t r hr hm
  exact (row_hits hr w).mpr ⟨by rw [h1, t1], fun _ => by rw [h2, t2], fun k => absurd k t3⟩

/-- A row with the opcode alone. -/
theorem of_opcode {m : String} {w : Word} {op : BitVec 7} (h : opcodeOf w = op)
    (t : ∀ r ∈ matchTable, r.mnemonic = m → opcodeOf r.pattern = op ∧ r.mask = 0x7F#32) :
    ∀ r ∈ matchTable, r.mnemonic = m → r.hits w = true := by
  intro r hr hm
  obtain ⟨t1, t2⟩ := t r hr hm
  exact (row_hits hr w).mpr ⟨by rw [h, t1], fun k => absurd t2 k, fun k => by simp [t2] at k⟩

theorem encodeR_fixed (f7 : BitVec 7) (f3 : BitVec 3) (op : BitVec 7) (rd rs1 rs2 : RegIdx) :
    opcodeOf (encodeR f7 f3 op rd rs1 rs2) = op ∧ funct3Of (encodeR f7 f3 op rd rs1 rs2) = f3 ∧
    funct7Of (encodeR f7 f3 op rd rs1 rs2) = f7 :=
  have h := encodeR_fields f7 f3 op rd rs1 rs2
  ⟨h.1, h.2.1, h.2.2.1⟩

theorem encodeI_fixed (f3 : BitVec 3) (op : BitVec 7) (rd rs1 : RegIdx) (imm : BitVec 12) :
    opcodeOf (encodeI f3 op rd rs1 imm) = op ∧ funct3Of (encodeI f3 op rd rs1 imm) = f3 :=
  have h := encodeI_fields f3 op rd rs1 imm
  ⟨h.1, h.2.1⟩

theorem add (rd rs1 rs2 : RegIdx) : Statement (.add rd rs1 rs2) :=
  fun _ => of_funct7 (m := "ADD") (encodeR_fixed _ _ _ _ _ _) (by decide)
theorem sub (rd rs1 rs2 : RegIdx) : Statement (.sub rd rs1 rs2) :=
  fun _ => of_funct7 (m := "SUB") (encodeR_fixed _ _ _ _ _ _) (by decide)
theorem sll (rd rs1 rs2 : RegIdx) : Statement (.sll rd rs1 rs2) :=
  fun _ => of_funct7 (m := "SLL") (encodeR_fixed _ _ _ _ _ _) (by decide)
theorem slt (rd rs1 rs2 : RegIdx) : Statement (.slt rd rs1 rs2) :=
  fun _ => of_funct7 (m := "SLT") (encodeR_fixed _ _ _ _ _ _) (by decide)
theorem sltu (rd rs1 rs2 : RegIdx) : Statement (.sltu rd rs1 rs2) :=
  fun _ => of_funct7 (m := "SLTU") (encodeR_fixed _ _ _ _ _ _) (by decide)
theorem xor (rd rs1 rs2 : RegIdx) : Statement (.xor rd rs1 rs2) :=
  fun _ => of_funct7 (m := "XOR") (encodeR_fixed _ _ _ _ _ _) (by decide)
theorem srl (rd rs1 rs2 : RegIdx) : Statement (.srl rd rs1 rs2) :=
  fun _ => of_funct7 (m := "SRL") (encodeR_fixed _ _ _ _ _ _) (by decide)
theorem sra (rd rs1 rs2 : RegIdx) : Statement (.sra rd rs1 rs2) :=
  fun _ => of_funct7 (m := "SRA") (encodeR_fixed _ _ _ _ _ _) (by decide)
theorem or (rd rs1 rs2 : RegIdx) : Statement (.or rd rs1 rs2) :=
  fun _ => of_funct7 (m := "OR") (encodeR_fixed _ _ _ _ _ _) (by decide)
theorem and (rd rs1 rs2 : RegIdx) : Statement (.and rd rs1 rs2) :=
  fun _ => of_funct7 (m := "AND") (encodeR_fixed _ _ _ _ _ _) (by decide)
theorem addi (rd rs1 : RegIdx) (imm : BitVec 12) : Statement (.addi rd rs1 imm) :=
  fun _ => of_funct3 (m := "ADDI") (encodeI_fixed _ _ _ _ _) (by decide)
theorem slti (rd rs1 : RegIdx) (imm : BitVec 12) : Statement (.slti rd rs1 imm) :=
  fun _ => of_funct3 (m := "SLTI") (encodeI_fixed _ _ _ _ _) (by decide)
theorem sltiu (rd rs1 : RegIdx) (imm : BitVec 12) : Statement (.sltiu rd rs1 imm) :=
  fun _ => of_funct3 (m := "SLTIU") (encodeI_fixed _ _ _ _ _) (by decide)
theorem xori (rd rs1 : RegIdx) (imm : BitVec 12) : Statement (.xori rd rs1 imm) :=
  fun _ => of_funct3 (m := "XORI") (encodeI_fixed _ _ _ _ _) (by decide)
theorem ori (rd rs1 : RegIdx) (imm : BitVec 12) : Statement (.ori rd rs1 imm) :=
  fun _ => of_funct3 (m := "ORI") (encodeI_fixed _ _ _ _ _) (by decide)
theorem andi (rd rs1 : RegIdx) (imm : BitVec 12) : Statement (.andi rd rs1 imm) :=
  fun _ => of_funct3 (m := "ANDI") (encodeI_fixed _ _ _ _ _) (by decide)
theorem slli (rd rs1 : RegIdx) (sh : BitVec 5) : Statement (.slli rd rs1 sh) :=
  fun _ => of_funct7 (m := "SLLI") (encodeR_fixed _ _ _ _ _ _) (by decide)
theorem srli (rd rs1 : RegIdx) (sh : BitVec 5) : Statement (.srli rd rs1 sh) :=
  fun _ => of_funct7 (m := "SRLI") (encodeR_fixed _ _ _ _ _ _) (by decide)
theorem srai (rd rs1 : RegIdx) (sh : BitVec 5) : Statement (.srai rd rs1 sh) :=
  fun _ => of_funct7 (m := "SRAI") (encodeR_fixed _ _ _ _ _ _) (by decide)
theorem lw (rd rs1 : RegIdx) (imm : BitVec 12) : Statement (.lw rd rs1 imm) :=
  fun _ => of_funct3 (m := "LW") (encodeI_fixed _ _ _ _ _) (by decide)
theorem sw (rs2 rs1 : RegIdx) (imm : BitVec 12) : Statement (.sw rs2 rs1 imm) :=
  fun _ => of_funct3 (m := "SW") (encodeS_opcode _ _ _ _ _) (by decide)
theorem beq (rs1 rs2 : RegIdx) (off : BitVec 13) : Statement (.beq rs1 rs2 off) :=
  fun _ => of_funct3 (m := "BEQ") (encodeB_opcode _ _ _ _ _) (by decide)
theorem bne (rs1 rs2 : RegIdx) (off : BitVec 13) : Statement (.bne rs1 rs2 off) :=
  fun _ => of_funct3 (m := "BNE") (encodeB_opcode _ _ _ _ _) (by decide)
theorem blt (rs1 rs2 : RegIdx) (off : BitVec 13) : Statement (.blt rs1 rs2 off) :=
  fun _ => of_funct3 (m := "BLT") (encodeB_opcode _ _ _ _ _) (by decide)
theorem bge (rs1 rs2 : RegIdx) (off : BitVec 13) : Statement (.bge rs1 rs2 off) :=
  fun _ => of_funct3 (m := "BGE") (encodeB_opcode _ _ _ _ _) (by decide)
theorem bltu (rs1 rs2 : RegIdx) (off : BitVec 13) : Statement (.bltu rs1 rs2 off) :=
  fun _ => of_funct3 (m := "BLTU") (encodeB_opcode _ _ _ _ _) (by decide)
theorem bgeu (rs1 rs2 : RegIdx) (off : BitVec 13) : Statement (.bgeu rs1 rs2 off) :=
  fun _ => of_funct3 (m := "BGEU") (encodeB_opcode _ _ _ _ _) (by decide)
theorem jal (rd : RegIdx) (off : BitVec 21) : Statement (.jal rd off) :=
  fun _ => of_opcode (m := "JAL") (encodeJ_opcode _ _ _) (by decide)
theorem jalr (rd rs1 : RegIdx) (imm : BitVec 12) : Statement (.jalr rd rs1 imm) :=
  fun _ => of_funct3 (m := "JALR") (encodeI_fixed _ _ _ _ _) (by decide)
theorem lui (rd : RegIdx) (imm : BitVec 20) : Statement (.lui rd imm) :=
  fun _ => of_opcode (m := "LUI") (encodeU_opcode _ _ _) (by decide)
theorem auipc (rd : RegIdx) (imm : BitVec 20) : Statement (.auipc rd imm) :=
  fun _ => of_opcode (m := "AUIPC") (encodeU_opcode _ _ _) (by decide)
theorem nop (w : Word) : Statement (.nop w) := by
  intro _ r hr hm
  have : ∀ r ∈ matchTable, r.mnemonic ≠ "NOP" := by decide
  exact absurd hm (this r hr)

end Sys2Proof.Laws.EncodesItsRow
end

