-- ==== Sys2Proof/Tests/Slice0.lean ====
section
/-! SUPPORT. The model's own tests: ill-formed terms, decoding of words written out from spec/30_encoding.md,
one-step tests with the results of spec/95_test_vectors.md, and, for every statement that has
hypotheses, a concrete state that meets them. -/

namespace Sys2Proof.Tests

open Sys2Proof Sys2Proof.Machine Sys2Proof.Claims

/-! ## Well-formedness: one ill-formed term for each check -/

/-- R93: bit 0 of a branch offset is 0. -/
theorem test_illformed_branch_offset : (Instr.beq 1 2 0x003).wellFormed = false := by decide
/-- R93: bit 0 of a JAL offset is 0. -/
theorem test_illformed_jal_offset : (Instr.jal 1 0x00001).wellFormed = false := by decide
/-- R235: the word of a NOP matches no row; 0x00000013 is ADDI x0, x0, 0 (R102). -/
theorem test_illformed_nop_word : (Instr.nop 0x00000013).wellFormed = false := by decide
theorem test_wellformed_terms :
    (Instr.bgeu 1 2 0x1FFE).wellFormed = true ∧ (Instr.jal 1 0x1FFFFE).wellFormed = true ∧
    (Instr.nop 0xFFFFFFFF).wellFormed = true := by decide

/-! ## Decoding: the word of each constructor, field by field from R92 and R96 -/

theorem test_decode_add :
    decodeWord .nop 0b0000000_00010_00001_000_00011_0110011#32 = .add 3 1 2 ∧ encode (.add 3 1 2) = 0b0000000_00010_00001_000_00011_0110011#32 := by decide
theorem test_decode_sub :
    decodeWord .nop 0b0100000_00010_00001_000_00011_0110011#32 = .sub 3 1 2 ∧ encode (.sub 3 1 2) = 0b0100000_00010_00001_000_00011_0110011#32 := by decide
theorem test_decode_sll :
    decodeWord .nop 0b0000000_00010_00001_001_00011_0110011#32 = .sll 3 1 2 ∧ encode (.sll 3 1 2) = 0b0000000_00010_00001_001_00011_0110011#32 := by decide
theorem test_decode_slt :
    decodeWord .nop 0b0000000_00010_00001_010_00011_0110011#32 = .slt 3 1 2 ∧ encode (.slt 3 1 2) = 0b0000000_00010_00001_010_00011_0110011#32 := by decide
theorem test_decode_sltu :
    decodeWord .nop 0b0000000_00010_00001_011_00011_0110011#32 = .sltu 3 1 2 ∧ encode (.sltu 3 1 2) = 0b0000000_00010_00001_011_00011_0110011#32 := by decide
theorem test_decode_xor :
    decodeWord .nop 0b0000000_00010_00001_100_00011_0110011#32 = .xor 3 1 2 ∧ encode (.xor 3 1 2) = 0b0000000_00010_00001_100_00011_0110011#32 := by decide
theorem test_decode_srl :
    decodeWord .nop 0b0000000_00010_00001_101_00011_0110011#32 = .srl 3 1 2 ∧ encode (.srl 3 1 2) = 0b0000000_00010_00001_101_00011_0110011#32 := by decide
theorem test_decode_sra :
    decodeWord .nop 0b0100000_00010_00001_101_00011_0110011#32 = .sra 3 1 2 ∧ encode (.sra 3 1 2) = 0b0100000_00010_00001_101_00011_0110011#32 := by decide
theorem test_decode_or :
    decodeWord .nop 0b0000000_00010_00001_110_00011_0110011#32 = .or 3 1 2 ∧ encode (.or 3 1 2) = 0b0000000_00010_00001_110_00011_0110011#32 := by decide
theorem test_decode_and :
    decodeWord .nop 0b0000000_00010_00001_111_00011_0110011#32 = .and 3 1 2 ∧ encode (.and 3 1 2) = 0b0000000_00010_00001_111_00011_0110011#32 := by decide
theorem test_decode_addi :
    decodeWord .nop 0b100000000101_00001_000_00011_0010011#32 = .addi 3 1 0x805 ∧ encode (.addi 3 1 0x805) = 0b100000000101_00001_000_00011_0010011#32 := by decide
theorem test_decode_slti :
    decodeWord .nop 0b100000000101_00001_010_00011_0010011#32 = .slti 3 1 0x805 ∧ encode (.slti 3 1 0x805) = 0b100000000101_00001_010_00011_0010011#32 := by decide
theorem test_decode_sltiu :
    decodeWord .nop 0b100000000101_00001_011_00011_0010011#32 = .sltiu 3 1 0x805 ∧ encode (.sltiu 3 1 0x805) = 0b100000000101_00001_011_00011_0010011#32 := by decide
theorem test_decode_xori :
    decodeWord .nop 0b100000000101_00001_100_00011_0010011#32 = .xori 3 1 0x805 ∧ encode (.xori 3 1 0x805) = 0b100000000101_00001_100_00011_0010011#32 := by decide
theorem test_decode_ori :
    decodeWord .nop 0b100000000101_00001_110_00011_0010011#32 = .ori 3 1 0x805 ∧ encode (.ori 3 1 0x805) = 0b100000000101_00001_110_00011_0010011#32 := by decide
theorem test_decode_andi :
    decodeWord .nop 0b100000000101_00001_111_00011_0010011#32 = .andi 3 1 0x805 ∧ encode (.andi 3 1 0x805) = 0b100000000101_00001_111_00011_0010011#32 := by decide
theorem test_decode_slli :
    decodeWord .nop 0b0000000_11110_00001_001_00011_0010011#32 = .slli 3 1 30 ∧ encode (.slli 3 1 30) = 0b0000000_11110_00001_001_00011_0010011#32 := by decide
theorem test_decode_srli :
    decodeWord .nop 0b0000000_11110_00001_101_00011_0010011#32 = .srli 3 1 30 ∧ encode (.srli 3 1 30) = 0b0000000_11110_00001_101_00011_0010011#32 := by decide
theorem test_decode_srai :
    decodeWord .nop 0b0100000_11110_00001_101_00011_0010011#32 = .srai 3 1 30 ∧ encode (.srai 3 1 30) = 0b0100000_11110_00001_101_00011_0010011#32 := by decide
theorem test_decode_lw :
    decodeWord .nop 0b111111111100_00010_010_00011_0000011#32 = .lw 3 2 0xFFC ∧ encode (.lw 3 2 0xFFC) = 0b111111111100_00010_010_00011_0000011#32 := by decide
theorem test_decode_sw :
    decodeWord .nop 0b1111111_00001_00010_010_11100_0100011#32 = .sw 1 2 0xFFC ∧ encode (.sw 1 2 0xFFC) = 0b1111111_00001_00010_010_11100_0100011#32 := by decide
theorem test_decode_beq :
    decodeWord .nop 0b1_000001_00010_00001_000_0100_0_1100011#32 = .beq 1 2 0b1000000101000 ∧ encode (.beq 1 2 0b1000000101000) = 0b1_000001_00010_00001_000_0100_0_1100011#32 := by decide
theorem test_decode_bne :
    decodeWord .nop 0b1_000001_00010_00001_001_0100_0_1100011#32 = .bne 1 2 0b1000000101000 ∧ encode (.bne 1 2 0b1000000101000) = 0b1_000001_00010_00001_001_0100_0_1100011#32 := by decide
theorem test_decode_blt :
    decodeWord .nop 0b1_000001_00010_00001_100_0100_0_1100011#32 = .blt 1 2 0b1000000101000 ∧ encode (.blt 1 2 0b1000000101000) = 0b1_000001_00010_00001_100_0100_0_1100011#32 := by decide
theorem test_decode_bge :
    decodeWord .nop 0b1_000001_00010_00001_101_0100_0_1100011#32 = .bge 1 2 0b1000000101000 ∧ encode (.bge 1 2 0b1000000101000) = 0b1_000001_00010_00001_101_0100_0_1100011#32 := by decide
theorem test_decode_bltu :
    decodeWord .nop 0b1_000001_00010_00001_110_0100_0_1100011#32 = .bltu 1 2 0b1000000101000 ∧ encode (.bltu 1 2 0b1000000101000) = 0b1_000001_00010_00001_110_0100_0_1100011#32 := by decide
theorem test_decode_bgeu :
    decodeWord .nop 0b1_000001_00010_00001_111_0100_0_1100011#32 = .bgeu 1 2 0b1000000101000 ∧ encode (.bgeu 1 2 0b1000000101000) = 0b1_000001_00010_00001_111_0100_0_1100011#32 := by decide
theorem test_decode_jal :
    decodeWord .nop 0b1_0000000010_1_00000011_00001_1101111#32 = .jal 1 0b100000011100000000100 ∧ encode (.jal 1 0b100000011100000000100) = 0b1_0000000010_1_00000011_00001_1101111#32 := by decide
theorem test_decode_jalr :
    decodeWord .nop 0b111111111111_00110_000_00101_1100111#32 = .jalr 5 6 0xFFF ∧ encode (.jalr 5 6 0xFFF) = 0b111111111111_00110_000_00101_1100111#32 := by decide
theorem test_decode_lui :
    decodeWord .nop 0b10010001101000101011_00101_0110111#32 = .lui 5 0b10010001101000101011 ∧ encode (.lui 5 0b10010001101000101011) = 0b10010001101000101011_00101_0110111#32 := by decide
theorem test_decode_auipc :
    decodeWord .nop 0b10000000000000000001_00101_0010111#32 = .auipc 5 0x80001 ∧ encode (.auipc 5 0x80001) = 0b10000000000000000001_00101_0010111#32 := by decide
theorem test_decode_nop :
    decodeWord .nop 0b0000000_00000_00000_000_00000_1110011#32 = .nop 0x00000073 ∧ encode (.nop 0x00000073) = 0b0000000_00000_00000_000_00000_1110011#32 := by decide

/-- R100, R236: words that match no row, from the list after the encoding vectors. -/
theorem test_decode_unrecognised :
    decodeWord .nop 0x00000000#32 = .nop 0x00000000 ∧ decodeWord .nop 0xFFFFFFFF#32 = .nop 0xFFFFFFFF ∧
    decodeWord .nop 0x00100073#32 = .nop 0x00100073 ∧ decodeWord .nop 0x022081B3#32 = .nop 0x022081B3 ∧
    decodeWord .nop 0x00010183#32 = .nop 0x00010183 ∧
    decodeWord .nop 0x0FF0000F#32 = .nop 0x0FF0000F := by decide
/-- R94: SLLI with bits [31:25] other than 0000000 is a no-operation. -/
theorem test_decode_slli_funct7 : decodeWord .nop 0x40009193#32 = .nop 0x40009193#32 := by decide
/-- R101: LB x3, 0(x2) under as_word is LW x3, 0(x2). -/
theorem test_decode_narrow : decodeWord .asWord 0x00010183#32 = .lw 3 2 0 := by decide
/-- L1-T6: the image bytes 93 00 50 00 are ADDI x1, x0, 5. -/
theorem test_decode_bytes :
    decodeBytes .nop [0x93, 0x00, 0x50, 0x00] = .ok (.addi 1 0 5, []) := by decide
/-- Three bytes are no instruction (R90). -/
theorem test_decode_truncated : decodeBytes .nop [0x93, 0x00, 0x50] = .error .truncated := by decide
theorem test_decode_table_word :
    decodeTableWord 32 0x00000033 = some (.add 0 0 0) ∧
    decodeTableWord 32 0x00000000 = some (.nop 0) := by decide

/-! ## One step -/

/-- The machine after reset with `w` in decode at pc 0 and the given x1 and x2. -/
def start (w x1 x2 : Word) : State :=
  let s := State.reset.withFetchWord 32 w.toNat
  { s with rf := RegFile.write (RegFile.write s.rf 1#5 x1) 2#5 x2 }

/-- The payload in execute after one step. -/
def issuedBy (s : State) : Option DEPayload :=
  match step s with
  | .next t => t.de
  | .fault _ => none
  | .refused _ => none

/-- The value that the word, issued with the given x1 and x2, will write back. -/
def valueOf (w x1 x2 : Word) : Option Word := (issuedBy (start w x1 x2)).map linkOrResult

/-- What the word drives on redirect in the cycle after it issues. -/
def redirectAfter (w x1 x2 : Word) : Option Word := (issuedBy (start w x1 x2)).bind redirectOf

/-- V-A1 -/
theorem test_result_add : valueOf 0x002081B3#32 0x7FFFFFFF#32 1#32 = some 0x80000000#32 := by decide
/-- V-A4 -/
theorem test_result_sub : valueOf 0x402081B3#32 0#32 1#32 = some 0xFFFFFFFF#32 := by decide
/-- V-A7 -/
theorem test_result_sll : valueOf 0x002091B3#32 1#32 33#32 = some 2#32 := by decide
/-- V-A8 -/
theorem test_result_slt : valueOf 0x0020A1B3#32 0xFFFFFFFF#32 1#32 = some 1#32 := by decide
/-- V-A11 -/
theorem test_result_sltu : valueOf 0x0020B1B3#32 0xFFFFFFFF#32 1#32 = some 0#32 := by decide
/-- V-A13 -/
theorem test_result_xor : valueOf 0x0020C1B3#32 0xFF00FF00#32 0x0FF00FF0#32 = some 0xF0F0F0F0#32 := by decide
/-- V-A14 -/
theorem test_result_srl : valueOf 0x0020D1B3#32 0x80000000#32 31#32 = some 1#32 := by decide
/-- V-A17 -/
theorem test_result_sra : valueOf 0x4020D1B3#32 0x80000000#32 4#32 = some 0xF8000000#32 := by decide
/-- V-A18 -/
theorem test_result_or : valueOf 0x0020E1B3#32 0xF0F0F0F0#32 0x0F0F0F0F#32 = some 0xFFFFFFFF#32 := by decide
/-- V-A19 -/
theorem test_result_and : valueOf 0x0020F1B3#32 0xF0F0F0F0#32 0x3C3C3C3C#32 = some 0x30303030#32 := by decide
/-- V-A20 -/
theorem test_result_addi : valueOf 0xFFF08193#32 1#32 0#32 = some 0#32 := by decide
/-- V-A24 -/
theorem test_result_slti : valueOf 0x0000A193#32 0xFFFFFFFF#32 0#32 = some 1#32 := by decide
/-- V-A27 -/
theorem test_result_sltiu : valueOf 0xFFF0B193#32 5#32 0#32 = some 1#32 := by decide
/-- V-A29 -/
theorem test_result_xori : valueOf 0xFFF0C193#32 0x12345678#32 0#32 = some 0xEDCBA987#32 := by decide
/-- V-A30 -/
theorem test_result_ori : valueOf 0x80006193#32 7#32 0#32 = some 0xFFFFF800#32 := by decide
/-- V-A32 -/
theorem test_result_andi : valueOf 0x7FF0F193#32 0xFFFFFFFF#32 0#32 = some 0x7FF#32 := by decide
/-- V-A34 -/
theorem test_result_slli : valueOf 0x01F09193#32 1#32 0#32 = some 0x80000000#32 := by decide
/-- V-A35 -/
theorem test_result_srli : valueOf 0x01C0D193#32 0xFFFFFFFF#32 0#32 = some 0xF#32 := by decide
/-- V-A36 -/
theorem test_result_srai : valueOf 0x4010D193#32 0x80000000#32 0#32 = some 0xC0000000#32 := by decide
/-- V-U1 -/
theorem test_result_lui : valueOf 0x123452B7#32 0#32 0#32 = some 0x12345000#32 := by decide
/-- R232: 0 + 0xFFFFF000 at pc 0 -/
theorem test_result_auipc : valueOf 0xFFFFF297#32 0#32 0#32 = some 0xFFFFF000#32 := by decide
/-- V-J2 -/
theorem test_result_jal : valueOf 0x00C000EF#32 0#32 0#32 = some 4#32 := by decide
/-- V-J4, with x1 as base -/
theorem test_result_jalr : valueOf 0xFFF082E7#32 0x21#32 0#32 = some 4#32 := by decide
/-- V-B1: the five operand pairs of the table; taken goes to 12 -/
theorem test_redirect_beq :
    redirectAfter 0x00208663#32 1#32 1#32 = some 12#32 ∧
    redirectAfter 0x00208663#32 1#32 2#32 = none ∧
    redirectAfter 0x00208663#32 0xFFFFFFFF#32 1#32 = none ∧
    redirectAfter 0x00208663#32 1#32 0xFFFFFFFF#32 = none ∧
    redirectAfter 0x00208663#32 0x80000000#32 0x7FFFFFFF#32 = none := by decide
/-- V-B2: the five operand pairs of the table; taken goes to 12 -/
theorem test_redirect_bne :
    redirectAfter 0x00209663#32 1#32 1#32 = none ∧
    redirectAfter 0x00209663#32 1#32 2#32 = some 12#32 ∧
    redirectAfter 0x00209663#32 0xFFFFFFFF#32 1#32 = some 12#32 ∧
    redirectAfter 0x00209663#32 1#32 0xFFFFFFFF#32 = some 12#32 ∧
    redirectAfter 0x00209663#32 0x80000000#32 0x7FFFFFFF#32 = some 12#32 := by decide
/-- V-B3: the five operand pairs of the table; taken goes to 12 -/
theorem test_redirect_blt :
    redirectAfter 0x0020C663#32 1#32 1#32 = none ∧
    redirectAfter 0x0020C663#32 1#32 2#32 = some 12#32 ∧
    redirectAfter 0x0020C663#32 0xFFFFFFFF#32 1#32 = some 12#32 ∧
    redirectAfter 0x0020C663#32 1#32 0xFFFFFFFF#32 = none ∧
    redirectAfter 0x0020C663#32 0x80000000#32 0x7FFFFFFF#32 = some 12#32 := by decide
/-- V-B4: the five operand pairs of the table; taken goes to 12 -/
theorem test_redirect_bge :
    redirectAfter 0x0020D663#32 1#32 1#32 = some 12#32 ∧
    redirectAfter 0x0020D663#32 1#32 2#32 = none ∧
    redirectAfter 0x0020D663#32 0xFFFFFFFF#32 1#32 = none ∧
    redirectAfter 0x0020D663#32 1#32 0xFFFFFFFF#32 = some 12#32 ∧
    redirectAfter 0x0020D663#32 0x80000000#32 0x7FFFFFFF#32 = none := by decide
/-- V-B5: the five operand pairs of the table; taken goes to 12 -/
theorem test_redirect_bltu :
    redirectAfter 0x0020E663#32 1#32 1#32 = none ∧
    redirectAfter 0x0020E663#32 1#32 2#32 = some 12#32 ∧
    redirectAfter 0x0020E663#32 0xFFFFFFFF#32 1#32 = none ∧
    redirectAfter 0x0020E663#32 1#32 0xFFFFFFFF#32 = some 12#32 ∧
    redirectAfter 0x0020E663#32 0x80000000#32 0x7FFFFFFF#32 = none := by decide
/-- V-B6: the five operand pairs of the table; taken goes to 12 -/
theorem test_redirect_bgeu :
    redirectAfter 0x0020F663#32 1#32 1#32 = some 12#32 ∧
    redirectAfter 0x0020F663#32 1#32 2#32 = none ∧
    redirectAfter 0x0020F663#32 0xFFFFFFFF#32 1#32 = some 12#32 ∧
    redirectAfter 0x0020F663#32 1#32 0xFFFFFFFF#32 = none ∧
    redirectAfter 0x0020F663#32 0x80000000#32 0x7FFFFFFF#32 = some 12#32 := by decide
/-- V-J2 -/
theorem test_redirect_jal : redirectAfter 0x00C000EF#32 0#32 0#32 = some 12#32 := by decide
/-- R222: the low bit of the target is cleared: (0x22 - 1) and not 1 -/
theorem test_redirect_jalr : redirectAfter 0xFFF082E7#32 0x22#32 0#32 = some 0x20#32 := by decide

/-- A state with one payload in the memory stage. -/
def inMemory (m : EMPayload) : State := { State.reset with em := some m }

/-- The state after a step. -/
def afterStep (s : State) : Option State :=
  match step s with
  | .next t => some t
  | .fault _ => none
  | .refused _ => none

/-- V-L2: LW at address 0xB reads word 2 of the example DMEM_INIT, 14. -/
theorem test_load_truncates :
    (afterStep (inMemory ⟨0xB, 0, 0xB, .load, some 3⟩)).bind (·.mw) =
      some ⟨14, some 3⟩ := by decide
/-- V-L5: LW at 0xFFFFFFFC aborts. -/
theorem test_load_aborts :
    (match step (inMemory ⟨0xFFFFFFFC, 0, 0, .load, some 3⟩) with
      | .fault f => decide (f = .dataOutOfBounds 0xFFFFFFFC) | .next _ => false | .refused _ => false)
      = true := by decide
/-- V-S2: SW of 99 at address 7 writes word 1. -/
theorem test_store_truncates :
    ((afterStep (inMemory ⟨7, 99, 0, .store, none⟩)).map fun t =>
      (dmemRead t.params t.dmem 1, dmemRead t.params t.dmem 2)) = some (99, 14) := by decide
/-- V-S3: SW at 64 aborts. -/
theorem test_store_aborts :
    (match step (inMemory ⟨0x40, 5, 0, .store, none⟩) with
      | .fault f => decide (f = .dataOutOfBounds 0x40) | .next _ => false | .refused _ => false)
      = true := by decide
/-- V-A23: a write to x0 is discarded and completes nothing. -/
theorem test_x0_discards :
    (afterStep { State.reset with mw := some ⟨5, some 0⟩ }).map (fun t => (t.readReg 0, t.wbc)) =
      some (0, none) := by decide
/-- V-N1: MUL issues a no-operation payload, locks nothing and does not stall. -/
theorem test_nop_issues :
    (afterStep (start 0x022081B3 3 4)).map (fun t => (t.de.map (·.dest), t.sb, t.pc)) =
      some (some none, 0, 8) := by decide
/-- S1, cycle 3: ADD x3, x1, x2 is held while x1 and x2 are locked (SB = 6). -/
theorem test_hazard_holds :
    (afterStep { start 0x002081B3 5 7 with sb := 6 }).map
      (fun t => (t.saved, t.de, t.pc, t.fd, t.sb)) =
      some (some ⟨0x002081B3, 0⟩, none, 4, none, 6) := by decide
/-- W1, cycle 5: the completion of x1 releases it and ADDI x1, x0, 7 locks it again (SB stays 2). -/
theorem test_release_then_lock :
    (afterStep { start 0x00700093 0 0 with sb := 2, wbc := some 1 }).map
      (fun t => (t.de.map (·.dest), t.sb)) = some (some (some 1), 2) := by decide
/-- V-T5: LUI x5, 0x8 stalls on x1 under raw only. -/
theorem test_raw_sources :
    (let s : State := { start 0x000082B7 0 0 with sb := 2 }
     (s.hazardStall, ({ s with params := { s.params with hazardSources := .raw } } : State).hazardStall))
      = (false, true) := by decide
/-- A2: fetch at word IMEM_WORDS aborts; A3: a misaligned PC is read at PC >> 2 or aborts. -/
theorem test_fetch_index :
    fetchIndex Params.conventional 0x100 = .error (.outOfBounds 0x100) ∧
    fetchIndex Params.conventional 6 = .ok 1 ∧
    fetchIndex { Params.conventional with misalignedFetch := .fatal } 6 = .error (.misaligned 6) ∧
    fetchIndex { Params.conventional with misalignedFetch := .fatal } 0x102 =
      .error (.misalignedOutOfBounds 0x102) := by
  decide
/-- R244: both stages abort in one cycle; DataOutOfBounds is named. -/
theorem test_both_abort :
    (match step { inMemory ⟨0x40, 0, 0, .load, some 1⟩ with pc := 0x100 } with
      | .fault f => decide (f.reasons = [.dataOutOfBounds 0x40, .fetchOutOfBounds 0x100] ∧
          f.named = .dataOutOfBounds 0x40)
      | .next _ => false | .refused _ => false) = true := by decide

/-- R244: all three conditions hold in one cycle, in its order. -/
theorem witness_abortsExactly :
    (match step { inMemory ⟨0x40, 0, 0, .load, some 1⟩ with
        pc := 0x102, params := { Params.conventional with misalignedFetch := .fatal } } with
      | .fault f => decide
          (f.reasons = [.dataOutOfBounds 0x40, .fetchMisaligned 0x102, .fetchOutOfBounds 0x102])
      | .next _ => false | .refused _ => false) = true := by decide

/-! ## Witnesses: for each statement with hypotheses, a state that meets them -/

/-- The state after a step that goes on; itself otherwise. -/
def next (s : State) : State :=
  match step s with
  | .next t => t
  | .fault _ => s
  | .refused _ => s

/-- Whether a step goes on. -/
def goesOn (s : State) : Bool :=
  match step s with
  | .next _ => true
  | .fault _ => false
  | .refused _ => false

theorem step_of_goesOn {s : State} (h : goesOn s = true) : step s = .next (next s) := by
  cases hs : step s <;> simp_all [goesOn, next]

/-- The launch of an image with the conventional parameters. -/
def program (ws : List Word) : State := State.launch (LaunchInput.standard Params.conventional ws)

/-- After cycle 0: the first word in decode. -/
def fetched (ws : List Word) : State := next (program ws)

/-- The pipeline's invariant as a check of one state. -/
def pipeCheck (s : State) : Bool :=
  (s.saved.isNone || s.fd.isNone) &&
  (match s.de with
   | none => true
   | some e => e.br == .none ||
       (s.fd.isNone && s.saved.isNone && e.imm.isSome && s.pc == e.pc + 4#32)) &&
  (match s.candidate with
   | none => true
   | some p => s.pc == p.pc + 4#32 &&
       (match fetchIndex s.params p.pc with
        | .ok i => p.inst == imemRead s.imem i
        | .error _ => false))

theorem pipelineInv_of_check {s : State} (h : pipeCheck s = true) : PipelineInv s := by
  simp only [pipeCheck, Bool.and_eq_true] at h
  obtain ⟨⟨h1, h2⟩, h3⟩ := h
  refine ⟨fun hs => ?_, fun e he hb => ?_, fun e he hb => ?_, fun p hp => ?_, fun e he hb => ?_⟩
  · cases hsv : s.saved <;> simp_all
  · simp_all
  · simp only [he, Bool.or_eq_true, beq_iff_eq, hb, false_or, Bool.and_eq_true] at h2
    intro hn
    simp [hn] at h2
  · simp only [hp, Bool.and_eq_true, beq_iff_eq] at h3
    refine ⟨h3.1, ?_⟩
    cases hf : fetchIndex s.params p.pc with
    | error a => simp [hf] at h3
    | ok i => exact ⟨i, rfl, by simpa [hf] using h3.2⟩
  · simp_all

/-- The scoreboard's invariant as a check of one state. -/
def boardCheck (s : State) : Bool :=
  (List.range 32).all fun n =>
    let c := (inFlight s).count (BitVec.ofNat 5 n)
    decide (c ≤ 1) && s.sb.getLsbD n == decide (c = 1)

theorem scoreboardExact_of_check {s : State} (h : boardCheck s = true) : ScoreboardExact s := by
  intro r
  have hr := List.all_eq_true.mp h r.toNat (List.mem_range.mpr r.isLt)
  simp only [BitVec.ofNat_toNat, BitVec.setWidth_eq, Bool.and_eq_true, decide_eq_true_eq,
    beq_iff_eq] at hr
  exact ⟨hr.1, by rw [hr.2]; simp⟩

theorem goodState_of_check {s : State}
    (h : (s.params.wawInterlock && pipeCheck s && boardCheck s && s.wbc != some 0#5) = true) :
    GoodState s := by
  simp only [Bool.and_eq_true, bne_iff_ne] at h
  exact ⟨h.1.1.1, pipelineInv_of_check h.1.1.2, scoreboardExact_of_check h.1.2, h.2⟩

/-- A no-abort cycle, by running it. -/
theorem noAbort_of_goesOn {s : State} (h : goesOn s = true) : NoAbort s := by
  obtain ⟨m, f, hm, hf, -⟩ := step_next.mp (step_of_goesOn h)
  exact ⟨⟨m, hm⟩, f, hf⟩

/-- The three machine conditions of an issue, by evaluation. -/
theorem issuable_of {s : State} {p : FDPayload} {i : Instr} (h1 : s.candidate = some p)
    (h2 : decodeWord s.params.narrowMem p.inst = i) (h3 : hazard (controlOf i) p s = false)
    (h4 : goesOn s = true) : Issuable s p i := ⟨⟨h1, h2⟩, h3, noAbort_of_goesOn h4⟩

/-- A one-instruction program, fetched: the word in decode, zero words behind it. -/
def one (w : Word) : State := fetched [w]

/-- The word at pc 0 of `one w` can issue, its four cycles go on, and the state is good: what the
result statements ask, and what their Lifetime runs through. -/
def lives (w : Word) : Bool :=
  let s := one w
  s.candidate == some ⟨w, 0⟩ && !hazard (controlOf (decodeWord .nop w)) ⟨w, 0⟩ s &&
  goesOn s && goesOn (next s) && goesOn (next (next s)) && goesOn (next (next (next s))) &&
  s.params.wawInterlock && pipeCheck s && boardCheck s && s.wbc != some 0#5

theorem lives_spec {w : Word} {i : Instr} (h : lives w = true)
    (hn : (one w).params.narrowMem = .nop) (hd : decodeWord .nop w = i) :
    Issuable (one w) ⟨w, 0⟩ i ∧ GoodState (one w) ∧
    ∃ t t2 t3 u, exec i (one w) = .next t ∧ step t = .next t2 ∧ step t2 = .next t3 ∧
      step t3 = .next u := by
  simp only [lives, Bool.and_eq_true, beq_iff_eq, Bool.not_eq_true'] at h
  obtain ⟨⟨⟨⟨⟨⟨⟨⟨⟨h1, h2⟩, h3⟩, h4⟩, h5⟩, h6⟩, h7⟩, h8⟩, h9⟩, h10⟩ := h
  have hi : Issuable (one w) ⟨w, 0⟩ i := issuable_of h1 (by rw [hn]; exact hd) (hd ▸ h2) h3
  refine ⟨hi, goodState_of_check (by simp [h7, h8, h9, h10]), _, _, _, _, ?_,
    step_of_goesOn h4, step_of_goesOn h5, step_of_goesOn h6⟩
  rw [← step_of_holds hi.1]
  exact step_of_goesOn h3

/-! One instruction of each family meets the hypotheses of its result statement. -/

theorem witness_rTypeResults : Issuable (one 0x402081B3) ⟨0x402081B3, 0⟩ (.sub 3 1 2) ∧
    GoodState (one 0x402081B3) ∧ ∃ t t2 t3 u, exec (.sub 3 1 2) (one 0x402081B3) = .next t ∧
      step t = .next t2 ∧ step t2 = .next t3 ∧ step t3 = .next u :=
  lives_spec (by decide) (by decide) (by decide)
theorem witness_iTypeResults : Issuable (one 0x00500093) ⟨0x00500093, 0⟩ (.addi 1 0 5) ∧
    GoodState (one 0x00500093) ∧ ∃ t t2 t3 u, exec (.addi 1 0 5) (one 0x00500093) = .next t ∧
      step t = .next t2 ∧ step t2 = .next t3 ∧ step t3 = .next u :=
  lives_spec (by decide) (by decide) (by decide)
theorem witness_iTypeResults_x0 : Issuable (one 0x00500013) ⟨0x00500013, 0⟩ (.addi 0 0 5) ∧
    GoodState (one 0x00500013) ∧ ∃ t t2 t3 u, exec (.addi 0 0 5) (one 0x00500013) = .next t ∧
      step t = .next t2 ∧ step t2 = .next t3 ∧ step t3 = .next u :=
  lives_spec (by decide) (by decide) (by decide)
theorem witness_shiftImmediateResults : Issuable (one 0x41F0D193) ⟨0x41F0D193, 0⟩ (.srai 3 1 31) ∧
    GoodState (one 0x41F0D193) ∧ ∃ t t2 t3 u, exec (.srai 3 1 31) (one 0x41F0D193) = .next t ∧
      step t = .next t2 ∧ step t2 = .next t3 ∧ step t3 = .next u :=
  lives_spec (by decide) (by decide) (by decide)
theorem witness_upperImmediateResults :
    Issuable (one 0x00001297) ⟨0x00001297, 0⟩ (.auipc 5 1) ∧
    GoodState (one 0x00001297) ∧ ∃ t t2 t3 u, exec (.auipc 5 1) (one 0x00001297) = .next t ∧
      step t = .next t2 ∧ step t2 = .next t3 ∧ step t3 = .next u :=
  lives_spec (by decide) (by decide) (by decide)
theorem witness_loadResult : Issuable (one 0xFFC12183) ⟨0xFFC12183, 0⟩ (.lw 3 2 0xFFC) ∧
    GoodState (one 0xFFC12183) ∧ ∃ t t2 t3 u, exec (.lw 3 2 0xFFC) (one 0xFFC12183) = .next t ∧
      step t = .next t2 ∧ step t2 = .next t3 ∧ step t3 = .next u :=
  lives_spec (by decide) (by decide) (by decide)
theorem witness_storeResult : Issuable (one 0xFE112E23) ⟨0xFE112E23, 0⟩ (.sw 1 2 0xFFC) ∧
    GoodState (one 0xFE112E23) ∧ ∃ t t2 t3 u, exec (.sw 1 2 0xFFC) (one 0xFE112E23) = .next t ∧
      step t = .next t2 ∧ step t2 = .next t3 ∧ step t3 = .next u :=
  lives_spec (by decide) (by decide) (by decide)
theorem witness_branchResults_taken : Issuable (one 0x00000463) ⟨0x00000463, 0⟩ (.beq 0 0 8) ∧
    GoodState (one 0x00000463) ∧ ∃ t t2 t3 u, exec (.beq 0 0 8) (one 0x00000463) = .next t ∧
      step t = .next t2 ∧ step t2 = .next t3 ∧ step t3 = .next u :=
  lives_spec (by decide) (by decide) (by decide)
theorem witness_branchResults_notTaken : Issuable (one 0x00001463) ⟨0x00001463, 0⟩ (.bne 0 0 8) ∧
    GoodState (one 0x00001463) ∧ ∃ t t2 t3 u, exec (.bne 0 0 8) (one 0x00001463) = .next t ∧
      step t = .next t2 ∧ step t2 = .next t3 ∧ step t3 = .next u :=
  lives_spec (by decide) (by decide) (by decide)
theorem witness_jumpResults_jal : Issuable (one 0x00C000EF) ⟨0x00C000EF, 0⟩ (.jal 1 12) ∧
    GoodState (one 0x00C000EF) ∧ ∃ t t2 t3 u, exec (.jal 1 12) (one 0x00C000EF) = .next t ∧
      step t = .next t2 ∧ step t2 = .next t3 ∧ step t3 = .next u :=
  lives_spec (by decide) (by decide) (by decide)
theorem witness_jumpResults_jalr : Issuable (one 0x001000E7) ⟨0x001000E7, 0⟩ (.jalr 1 0 1) ∧
    GoodState (one 0x001000E7) ∧ ∃ t t2 t3 u, exec (.jalr 1 0 1) (one 0x001000E7) = .next t ∧
      step t = .next t2 ∧ step t2 = .next t3 ∧ step t3 = .next u :=
  lives_spec (by decide) (by decide) (by decide)
theorem witness_nopResult : Issuable (one 0x00000073) ⟨0x00000073, 0⟩ (.nop 0x00000073) ∧
    GoodState (one 0x00000073) ∧ ∃ t t2 t3 u, exec (.nop 0x00000073) (one 0x00000073) = .next t ∧
      step t = .next t2 ∧ step t2 = .next t3 ∧ step t3 = .next u :=
  lives_spec (by decide) (by decide) (by decide)
/-- The abort clauses of LoadResult and StoreResult: LW x3, 0(x2) with x2 = 0x40 (A1), SW too. -/
theorem witness_loadResult_abort : Issuable (one 0x00012183) ⟨0x00012183, 0⟩ (.lw 3 2 0) ∧
    (one 0x00012183).params.dmemWords ≤
      wordIndex ((one 0x00012183).readReg 2 + (0 : BitVec 12).signExtend 32) ∧
    step (one 0x00012183) = .next (next (one 0x00012183)) ∧
    step (next (one 0x00012183)) = .next (next (next (one 0x00012183))) :=
  ⟨issuable_of (by decide) (by decide) (by decide) (by decide), by decide,
    step_of_goesOn (by decide), step_of_goesOn (by decide)⟩
theorem witness_storeResult_abort : Issuable (one 0x00112023) ⟨0x00112023, 0⟩ (.sw 1 2 0) ∧
    (one 0x00112023).params.dmemWords ≤
      wordIndex ((one 0x00112023).readReg 2 + (0 : BitVec 12).signExtend 32) ∧
    step (one 0x00112023) = .next (next (one 0x00112023)) ∧
    step (next (one 0x00112023)) = .next (next (next (one 0x00112023))) :=
  ⟨issuable_of (by decide) (by decide) (by decide) (by decide), by decide,
    step_of_goesOn (by decide), step_of_goesOn (by decide)⟩

/-! Assembler syntax: the source's own examples (R110). -/

theorem test_asm_examples :
    [Instr.addi 1 0 5, .add 3 1 2, .beq 0 0 8, .sw 1 2 0, .lw 3 2 0].map asm =
      [some "ADDI x1, x0, 5", some "ADD x3, x1, x2", some "BEQ x0, x0, +8", some "SW x1, 0(x2)",
        some "LW x3, 0(x2)"] := by decide
/-- R222, R212 and R231's forms. -/
theorem test_asm_forms : asm (.jalr 1 1 0xFFF) = some "JALR x1, -1(x1)" ∧
    asm (.bne 1 2 0x1FF8) = some "BNE x1, x2, -8" ∧ abiName 2 = "sp" ∧ abiName 31 = "t6" := by
  decide
/-- R113: li rd, 0x12345FFF needs the carry of 0x800 into the upper part. -/
theorem test_li_upper : (Pseudo.li 5 0x12345FFF).expand = [.lui 5 0x12346, .addi 5 5 0xFFF] := by
  decide

/-! Alone in the machine. -/

/-- A word alone at pc 0 with zero words behind it, and at the given pc. -/
theorem zeroWords_of {s : State} {a : Word} {n : Nat}
    (h : (List.range n).all (fun k =>
      match fetchIndex s.params (a + BitVec.ofNat 32 (4 * k)) with
      | .ok j => imemRead s.imem j == 0#32
      | .error _ => false) = true) : ZeroWordsFrom s a n := by
  intro k hk
  have := List.all_eq_true.mp h k (List.mem_range.mpr hk)
  cases hf : fetchIndex s.params (a + BitVec.ofNat 32 (4 * k)) with
  | error e => simp [hf] at this
  | ok j => exact ⟨j, rfl, by simpa [hf] using this⟩

theorem witness_aloneMatchesPseudocode :
    Alone (one 0x00C000EF) ⟨0x00C000EF, 0⟩ (.jal 1 12) ∧
    (∃ a, Arch.exec (.jal 1 12) { (one 0x00C000EF).arch with pc := 0 } = .next a ∧ a.pc = 12) ∧
    ZeroWordsFrom (one 0x00C000EF) 12 4 :=
  ⟨⟨by decide, by decide, by decide, by decide,
    by decide, by decide, by decide, by decide, by decide⟩, ⟨_, rfl, by decide⟩, zeroWords_of (by decide)⟩
theorem witness_aloneAbortsAsPseudocode :
    Alone (one 0x00012183) ⟨0x00012183, 0⟩ (.lw 3 2 0) ∧
    Arch.exec (.lw 3 2 0) { (one 0x00012183).arch with pc := 0 } = .fault (.dataOutOfBounds 0x40) ∧
    ZeroWordsFrom (one 0x00012183) (one 0x00012183).pc 3 :=
  ⟨⟨by decide, by decide, by decide, by decide,
    by decide, by decide, by decide, by decide, by decide⟩, rfl, zeroWords_of (by decide)⟩
theorem witness_pseudocodeFrame :
    ∃ b, Arch.exec (.sw 1 2 0xFFC) (one 0xFE112E23).arch = .next b := ⟨_, rfl⟩

/-! Encoding. -/

theorem witness_decodeOfEncode : (Instr.sw 31 1 0x800).wellFormed = true ∧
    (Instr.nop 0x00000073).wellFormed = true := by decide
theorem witness_narrowMemEncodings :
    (opcodeOf 0x00010183 = 0b0000011#7 ∧ funct3Of 0x00010183 = 0b000#3) ∧
    (opcodeOf 0x00111023 = 0b0100011#7 ∧ funct3Of 0x00111023 = 0b001#3) ∧
    opcodeOf 0x00000013 ≠ 0b0000011#7 ∧ opcodeOf 0x00000013 ≠ 0b0100011#7 := by decide
theorem witness_otherExtensionsAreNop :
    opcodeOf 0x00000073 = 0b1110011#7 ∧ opcodeOf 0x0FF0000F = 0b0001111#7 ∧
    opcodeOf 0x1000202F = 0b0101111#7 ∧
    (opcodeOf 0x022081B3 = 0b0110011#7 ∧ funct7Of 0x022081B3 = 0b0000001#7) ∧
    (0x00000000#32).extractLsb' 0 2 ≠ 0b11#2 := by decide

/-! Stages: each clause of each stage statement is met by a state that steps. -/

/-- ADD x3, x1, x2 held by the locks of x1 and x2, then the state after that step. -/
def held : State := { start 0x002081B3 5 7 with sb := 6 }

theorem witness_stepRunsDecodedInstruction :
    held.decodeHolds ⟨0x002081B3, 0⟩ (.add 3 1 2) ∧ State.reset.candidate = none ∧
    step State.reset = .next (next State.reset) ∧
    (next State.reset).fd = some ⟨0, 0⟩ ∧ (next State.reset).saved = none :=
  ⟨⟨by decide, by decide⟩, by decide, step_of_goesOn (by decide), by decide, by decide⟩
theorem witness_savedPayloadFirst :
    (step held = .next (next held) ∧ held.saved = none ∧ (next held).saved = some ⟨0x002081B3, 0⟩) ∧
    step (next held) = .next (next (next held)) ∧
    step State.reset = .next (next State.reset) ∧ State.reset.saved = none ∧ State.reset.fd = none :=
  ⟨⟨step_of_goesOn (by decide), by decide, by decide⟩, step_of_goesOn (by decide),
    step_of_goesOn (by decide), by decide, by decide⟩
theorem witness_hazardCondition :
    held.decodeHolds ⟨0x002081B3, 0⟩ (.add 3 1 2) ∧ held.hazardStall = true :=
  ⟨⟨by decide, by decide⟩, by decide⟩
theorem witness_hazardStallHolds :
    held.decodeHolds ⟨0x002081B3, 0⟩ (.add 3 1 2) ∧ held.hazardStall = true ∧
    (∃ m, memoryStage held = .ok m) ∧ held.redirectWire = none :=
  ⟨⟨by decide, by decide⟩, by decide, ⟨_, rfl⟩, by decide⟩
theorem witness_issueWritesPayload :
    Issuable (start 0x002081B3 5 7) ⟨0x002081B3, 0⟩ (.add 3 1 2) :=
  issuable_of (by decide) (by decide) (by decide) (by decide)
theorem witness_scoreboardUpdate :
    step { start 0x00700093 0 0 with sb := 2, wbc := some 1 } =
      .next (next { start 0x00700093 0 0 with sb := 2, wbc := some 1 }) :=
  step_of_goesOn (by decide)

/-- JAL x0, 12 in execute (V-T6, without the word in decode). -/
def jumping : State := { State.reset with
  pc := 8, de := some { idleIssue 0 with imm := some 12 } }
/-- V-T6: the same with BEQ x0, x0, 8 in decode. -/
def jumpingAndStalling : State := { jumping with fd := some ⟨0x00000463, 4⟩ }

theorem witness_fetchPriority :
    (step jumping = .next (next jumping) ∧ jumping.redirectWire = some 12) ∧
    (step held = .next (next held) ∧ held.redirectWire = none ∧ held.stallWire = true) ∧
    (step State.reset = .next (next State.reset) ∧ State.reset.redirectWire = none ∧
      State.reset.stallWire = false) :=
  ⟨⟨step_of_goesOn (by decide), by decide⟩, ⟨step_of_goesOn (by decide), by decide, by decide⟩,
    step_of_goesOn (by decide), by decide, by decide⟩
theorem witness_redirectDominatesStall :
    jumpingAndStalling.redirectWire = some 12 ∧ jumpingAndStalling.stallWire = true ∧
    ∃ m, memoryStage jumpingAndStalling = .ok m :=
  ⟨by decide, by decide, _, rfl⟩
/-- V-T6: PC' = 12 and FD' = none. -/
theorem test_redirect_dominates :
    (afterStep jumpingAndStalling).map (fun t => (t.pc, t.fd)) = some (12, none) := by decide
theorem witness_executeStageOutput :
    (step State.reset = .next (next State.reset) ∧ State.reset.de = none) ∧
    (step jumping = .next (next jumping) ∧ jumping.de = some { idleIssue 0 with imm := some 12 }) ∧
    (step (next (one 0x402081B3)) = .next (next (next (one 0x402081B3))) ∧
      ((next (one 0x402081B3)).de.map (·.imm)) = some none) :=
  ⟨⟨step_of_goesOn (by decide), by decide⟩, ⟨step_of_goesOn (by decide), by decide⟩,
    step_of_goesOn (by decide), by decide⟩
theorem witness_redirectResolution :
    jumping.de = some { idleIssue 0 with imm := some 12 } ∧
    ({ idleIssue 0 with imm := some 12 } : DEPayload).imm = some 12 := by decide
theorem witness_memoryStageAccess :
    (step State.reset = .next (next State.reset) ∧ State.reset.em = none) ∧
    (∀ op ∈ [MemOp.none, .load, .store],
      goesOn (inMemory { res := 0xB, sdata := 42, wbv := 1, mem := op, dest := some 3 }) = true) :=
  ⟨⟨step_of_goesOn (by decide), by decide⟩, by decide⟩
theorem witness_writeBackStage :
    step State.reset = .next (next State.reset) ∧ State.reset.mw = none ∧
    (∀ d ∈ [none, some 0#5, some 31#5],
      goesOn { State.reset with mw := some { val := 9, dest := d } } = true) :=
  ⟨step_of_goesOn (by decide), by decide, by decide⟩
theorem witness_execCycleFrame :
    exec (.addi 1 0 5) (one 0x00500093) = .next (next (one 0x00500093)) := by
  rw [← step_of_holds witness_iTypeResults.1.1]
  exact step_of_goesOn (by decide)
theorem witness_cycles : cycles 2 State.reset = .next (next (next State.reset)) :=
  cycles_succ_next.mpr ⟨_, step_of_goesOn (by decide),
    cycles_succ_next.mpr ⟨_, step_of_goesOn (by decide), rfl⟩⟩

/-! Invariants. -/

theorem witness_stepKeepsMemories :
    MemoriesWf (inMemory ⟨7, 99, 0, .store, none⟩) ∧
    step (inMemory ⟨7, 99, 0, .store, none⟩) = .next (next (inMemory ⟨7, 99, 0, .store, none⟩)) :=
  ⟨⟨by decide, by decide, by decide, by decide⟩, step_of_goesOn (by decide)⟩
theorem witness_stepKeepsPipelineInv :
    GoodState (one 0x00C000EF) ∧ step (one 0x00C000EF) = .next (next (one 0x00C000EF)) ∧
    GoodState (next (one 0x00C000EF)) :=
  ⟨witness_jumpResults_jal.2.1, step_of_goesOn (by decide), goodState_of_check (by decide)⟩
theorem witness_stepKeepsScoreboardExact :
    (one 0x00500093).params.wawInterlock = true ∧ ScoreboardExact (one 0x00500093) ∧
    CompletionReal (one 0x00500093) ∧ step (one 0x00500093) = .next (next (one 0x00500093)) :=
  ⟨by decide, witness_iTypeResults.2.1.scoreboard, witness_iTypeResults.2.1.completion,
    step_of_goesOn (by decide)⟩
theorem witness_launch :
    (LaunchInput.standard Params.conventional [0x00500093]).legal = true ∧
    (LaunchInput.standard Params.conventional [0x00500093]).params.wawInterlock = true := by decide
theorem witness_stallRedirectExclusive :
    PipelineInv (next (one 0x00C000EF)) ∧ (next (one 0x00C000EF)).redirectWire ≠ none :=
  ⟨witness_stepKeepsPipelineInv.2.2.pipeline, by decide⟩

/-! Timing: S4, ADDI x5, x0, 9 and ADD x6, x5, x5. -/

def s4 : State := fetched [0x00900293, 0x00528333, 0x0000006F]

theorem good_s4 : GoodState s4 := goodState_of_check (by decide)

theorem witness_lockHeldThreeCycles :
    GoodState s4 ∧ s4.issued = some (.addi 5 0 9) ∧ destOf (.addi 5 0 9) = some 5#5 ∧
    step s4 = .next (next s4) ∧ cycles 3 (next s4) = .next (next (next (next (next s4)))) :=
  ⟨good_s4, by decide, by decide, step_of_goesOn (by decide),
    cycles_succ_next.mpr ⟨_, step_of_goesOn (by decide), cycles_succ_next.mpr
      ⟨_, step_of_goesOn (by decide), cycles_succ_next.mpr ⟨_, step_of_goesOn (by decide), rfl⟩⟩⟩⟩
theorem witness_stallsAtMostThreeCycles :
    let s := next s4
    GoodState s ∧ step s = .next (next s) ∧ step (next s) = .next (next (next s)) ∧
    step (next (next s)) = .next (next (next (next s))) ∧
    s.hazardStall = true ∧ (next s).hazardStall = true ∧ (next (next s)).hazardStall = true :=
  ⟨goodState_of_check (by decide), step_of_goesOn (by decide), step_of_goesOn (by decide),
    step_of_goesOn (by decide), by decide, by decide, by decide⟩
theorem witness_rawStallLength :
    GoodState s4 ∧ s4.issued = some (.addi 5 0 9) ∧ step s4 = .next (next s4) ∧
    cycles (1 - 1) (next s4) = .next (next s4) ∧
    (next s4).candidate = some ⟨0x00528333, 4⟩ ∧
    (candidateControl (next s4) ⟨0x00528333, 4⟩).src1 = some 5#5 :=
  ⟨good_s4, by decide, step_of_goesOn (by decide), rfl, by decide, by decide⟩
theorem witness_controlTransferBubbles :
    PipelineInv (one 0x00000463) ∧ (one 0x00000463).decodeHolds ⟨0x00000463, 0⟩ (.beq 0 0 8) ∧
    (one 0x00000463).issued = some (.beq 0 0 8) ∧ (controlOf (.beq 0 0 8)).br ≠ .none ∧
    step (one 0x00000463) = .next (next (one 0x00000463)) ∧
    step (next (one 0x00000463)) = .next (next (next (one 0x00000463))) ∧
    (next (one 0x00000463)).redirectWire = some 8 ∧ (next (one 0x00001463)).redirectWire = none :=
  ⟨witness_branchResults_taken.2.1.pipeline, witness_branchResults_taken.1.1, by decide, by decide,
    step_of_goesOn (by decide), step_of_goesOn (by decide), by decide, by decide⟩
theorem witness_cycleRefinesSequential :
    GoodState s4 ∧ step s4 = .next (next s4) ∧ s4.issued = some (.addi 5 0 9) ∧
    GoodState (next s4) ∧ step (next s4) = .next (next (next s4)) ∧ (next s4).issued = none :=
  ⟨good_s4, step_of_goesOn (by decide), by decide, goodState_of_check (by decide),
    step_of_goesOn (by decide), by decide⟩
theorem witness_runRefinesSequential :
    (LaunchInput.standard Params.conventional [0x00900293]).legal = true ∧
    cycles 1 (program [0x00900293]) = .next (fetched [0x00900293]) :=
  ⟨by decide, cycles_succ_next.mpr ⟨_, step_of_goesOn (by decide), rfl⟩⟩

/-! End of run and several cores. -/

theorem witness_idleCoreStaysIdle : Idle 0 (program [0x0000006F]) :=
  ⟨by decide, by decide, by decide, ⟨0, by decide, by decide⟩,
    .inl ⟨by decide, by decide, by decide, by decide, .inl (by decide)⟩⟩
/-- `JAL x0, 4` into the idle loop at 4, at the boundary where the loop is in decode and the jump is
still in write-back: not idle (R276). -/
def loopEntered : State := next (next (next (next (program [0x0040006F, 0x0000006F]))))
theorem test_not_idle_before_retired :
    loopEntered.fd = some (idleFetch 4) ∧ loopEntered.mw ≠ none ∧ ¬ Idle 4 loopEntered :=
  ⟨by decide, by decide, fun h => absurd h.2.2.2.2 (by decide)⟩
theorem witness_idle_in_execute : Idle 4 (next loopEntered) :=
  ⟨by decide, by decide, by decide, ⟨1, by decide, by decide⟩,
    .inr (.inr ⟨by decide, by decide, by decide, by decide, by decide⟩)⟩
theorem witness_idle_in_memory : Idle 4 (next (next loopEntered)) :=
  ⟨by decide, by decide, by decide, ⟨1, by decide, by decide⟩,
    .inl ⟨by decide, by decide, by decide, by decide, .inr (by decide)⟩⟩
theorem witness_idle_in_writeBack : Idle 4 (next (next (next loopEntered))) :=
  ⟨by decide, by decide, by decide, ⟨1, by decide, by decide⟩,
    .inr (.inl ⟨by decide, by decide, by decide, by decide, .inr (by decide)⟩)⟩
theorem witness_coresStayEqual :
    ∃ r, Run.launch 2 (LaunchInput.standard Params.conventional [0x0000006F]) = some r :=
  ⟨_, rfl⟩
/-- K14: a core count of 0 is refused before any cycle. -/
theorem test_launch_no_cores :
    Run.launch 0 (LaunchInput.standard Params.conventional []) = none := by decide
theorem witness_abortReasonOrder :
    Run.cycle (.running [State.reset, inMemory ⟨0x40, 5, 0, .store, none⟩]) =
      .aborted [⟨1, .dataOutOfBounds 0x40⟩] [State.reset, inMemory ⟨0x40, 5, 0, .store, none⟩] := by
  decide
theorem witness_coresAreIndependent :
    ∃ next, Run.cycle (.running [State.reset, one 0x00500093]) = .running next := ⟨_, rfl⟩

end Sys2Proof.Tests
end

section
/-! What decode does in a cycle, for every state: its three cases, and what each leaves in the
scoreboard. The invariants below cite these and do not unfold decode. -/

namespace Sys2Proof.Machine

/-! ## Decode's three cases -/

theorem decodeStage_held {c : Control} {p : FDPayload} {s : State} (h : hazard c p s = true) :
    decodeStage c p s = { stall := true, de := none, saved := some p, sb := s.released } := by
  simp [decodeStage, h]

theorem decodeStage_issues {c : Control} {p : FDPayload} {s : State} (h : hazard c p s = false) :
    decodeStage c p s =
      { stall := c.br != .none, de := some (issuePayload c p s), saved := none,
        sb := lockDest s.released c.dest } := by
  simp [decodeStage, h]

/-- What decode does in a cycle (R126 to R134): it has no instruction, or holds one back, or issues
one. -/
theorem decodeOut_cases (s : State) :
    (s.candidate = none ∧ s.decodeOut = decodeNothing s) ∨
    (∃ p, s.candidate = some p ∧ hazard (candidateControl s p) p s = true ∧
      s.decodeOut = { stall := true, de := none, saved := some p, sb := s.released }) ∨
    (∃ p, s.candidate = some p ∧ hazard (candidateControl s p) p s = false ∧
      s.decodeOut =
        { stall := (candidateControl s p).br != .none,
          de := some (issuePayload (candidateControl s p) p s), saved := none,
          sb := lockDest s.released (candidateControl s p).dest }) := by
  cases hc : s.candidate with
  | none => exact .inl ⟨rfl, decodeOut_nothing hc⟩
  | some p =>
    have hd : s.decodeOut = decodeStage (candidateControl s p) p s := decodeOut_of_holds ⟨hc, rfl⟩
    cases hz : hazard (candidateControl s p) p s with
    | true => exact .inr (.inl ⟨p, rfl, hz, hd.trans (decodeStage_held hz)⟩)
    | false => exact .inr (.inr ⟨p, rfl, hz, hd.trans (decodeStage_issues hz)⟩)

/-- Every meaning, whatever decode holds, is a cycle with some work of decode. -/
theorem exec_eq_cycleWith (i : Instr) (s : State) : ∃ d, exec i s = cycleWith d s := by
  cases hc : s.candidate with
  | none => exact ⟨decodeNothing s, by simp [exec_eq_decodeCycle, decodeCycle, hc, idleCycle]⟩
  | some p => exact ⟨_, exec_of_candidate i hc⟩

/-! ## The scoreboard after decode -/

/-- The destination of the instruction decode issues in this cycle. -/
def State.issuedDest (s : State) : Option RegIdx := s.decodeOut.de.bind (·.dest)

/-- A register is locked after a cycle iff it stays locked after the release, or decode issues a
writer of it (R125, R131, R132, R133). -/
theorem decodeOut_sb_bit (s : State) (r : RegIdx) :
    s.decodeOut.sb.getLsbD r.toNat =
      (s.released.getLsbD r.toNat || (r != 0#5 && s.issuedDest == some r)) := by
  rcases decodeOut_cases s with ⟨-, h⟩ | ⟨p, -, -, h⟩ | ⟨p, -, -, h⟩
  · simp [State.issuedDest, h, decodeNothing]
  · simp [State.issuedDest, h]
  · simp [State.issuedDest, h, issuePayload, lockDest_bit]

/-- With the interlock decode issues no writer of a register that is still locked (R128, D9). -/
theorem released_bit_of_issuedDest {s : State} {r : RegIdx}
    (hw : s.params.wawInterlock = true) (hr : r ≠ 0#5) (hd : s.issuedDest = some r) :
    s.released.getLsbD r.toNat = false := by
  rcases decodeOut_cases s with ⟨-, h⟩ | ⟨p, -, -, h⟩ | ⟨p, -, hz, h⟩
  · simp [State.issuedDest, h, decodeNothing] at hd
  · simp [State.issuedDest, h] at hd
  · have hdest : (candidateControl s p).dest = some r := by
      simpa [State.issuedDest, h, issuePayload] using hd
    have hfree : lockedOpt s.released (some r) = false := by
      simp only [hazard, hw, hdest, Bool.true_and, Bool.or_eq_false_iff] at hz
      exact hz.2
    simpa [lockedOpt, locked, hr] using hfree

end Sys2Proof.Machine
end

section
/-! What a cycle that goes on does to the registers, the memories and the payloads in flight,
whatever decode does in it. -/

namespace Sys2Proof.Machine

/-- The memory stage passes its payload's destination on (R151, R152). -/
theorem memoryStage_dest {s : State} {w : Option MWPayload} {st : Option (Nat × Word)}
    (h : memoryStage s = .ok (w, st)) : w.bind (·.dest) = s.em.bind (·.dest) := by
  cases hem : s.em with
  | none =>
    rw [memoryStage_none hem] at h
    cases h
    rfl
  | some m =>
    rw [memoryStage_some hem] at h
    cases ha : accessMemory s.params s.dmem m with
    | error ea => simp [ha] at h
    | ok r =>
      simp only [ha, Except.ok.injEq, Prod.mk.injEq] at h
      obtain ⟨rfl, rfl⟩ := h
      exact (accessMemory_ok ha).1

/-- The memory stage writes DMEM only for a store, at its word index, inside DMem (R150, R151). -/
theorem memoryStage_write {s : State} {w : Option MWPayload} {i : Nat} {v : Word}
    (h : memoryStage s = .ok (w, some (i, v))) :
    ∃ m, s.em = some m ∧ m.mem = .store ∧ dataIndex s.params m.res = some i ∧ v = m.sdata := by
  cases hem : s.em with
  | none =>
    rw [memoryStage_none hem] at h
    cases h
  | some m =>
    rw [memoryStage_some hem] at h
    cases ha : accessMemory s.params s.dmem m with
    | error ea => simp [ha] at h
    | ok r =>
      obtain ⟨w', st⟩ := r
      simp only [ha, Except.ok.injEq, Prod.mk.injEq] at h
      obtain ⟨-, rfl⟩ := h
      obtain ⟨-, ⟨-, -, hst⟩ | ⟨-, j, -, -, hst⟩ | ⟨hm, j, hj, -, hst⟩⟩ := accessMemory_ok ha
      · cases hst
      · cases hst
      · cases hst
        exact ⟨m, rfl, hm, hj, rfl⟩

/-- Write-back changes no register but the one its payload names (R155). -/
theorem read_commitRf_writeBack (rf : RegFile) {mw : Option MWPayload} {r : RegIdx}
    (h : ∀ v, mw ≠ some { val := v, dest := some r }) :
    RegFile.read (commitRf rf (writeBack mw)) r = RegFile.read rf r := by
  cases hw : writeBack mw with
  | none => rfl
  | some x =>
    obtain ⟨r', v⟩ := x
    have hmw := (writeBack_some.mp hw).1
    have hne : r ≠ r' := by
      rintro rfl
      exact h v hmw
    exact RegFile.read_write_other rf v hne

@[simp] theorem commitRf_slot_zero (rf : RegFile) (x : Option (RegIdx × Word)) :
    (commitRf rf x).get 0 = rf.get 0 := by
  cases x with
  | none => rfl
  | some x => exact RegFile.write_slot_zero rf x.1 x.2

/-- The cycle's DMEM write keeps the canonical form (R160). -/
theorem commitDmem_wf {p : Params} {m : Memory} (st : Option (Nat × Word))
    (h : m.wf (dmemUnlisted p)) : (commitDmem p m st).wf (dmemUnlisted p) := by
  cases st with
  | none => exact h
  | some x => exact Memory.wf_writeWord x.1 x.2 h

/-- A step leaves IMEM alone (R47, R160). -/
theorem step_imem {s t : State} (h : step s = .next t) : t.imem = s.imem := by
  obtain ⟨m, f, -, -, rfl⟩ := step_next.mp h
  rfl

end Sys2Proof.Machine
end

section
/-! The memories stay canonical and inside their arrays. -/

namespace Sys2Proof.Machine

/-- Settles O39: the one write of a cycle is a store's word, at an index inside DMem. -/
theorem stepKeepsMemories : Obligations.StepKeepsMemories := by
  unfold Obligations.StepKeepsMemories
  rintro s t ⟨hiw, hin, hdw, hdn⟩ hstep
  obtain ⟨⟨w, st⟩, f, hm, -, rfl⟩ := step_next.mp hstep
  refine ⟨hiw, hin, commitDmem_wf st hdw, ?_⟩
  cases st with
  | none => exact hdn
  | some x =>
    obtain ⟨_, -, -, hi, -⟩ := memoryStage_write hm
    exact Memory.within_writeWord x.2 (dataIndex_some.mp hi).2 hdn

end Sys2Proof.Machine
end

section
/-! The pipeline's invariant. -/

namespace Sys2Proof.Machine

/-- Every row of R98 with a branch kind has an immediate. -/
theorem controlOf_imm_of_br {i : Instr} (h : (controlOf i).br ≠ .none) :
    (controlOf i).imm ≠ none := by
  cases i
  case add | sub | sll | slt | sltu | xor | srl | sra | or | and | nop => exact absurd rfl h
  all_goals exact Option.some_ne_none _

/-- Only a branch or jump in execute drives a redirect (R143). -/
theorem br_of_redirectWire {s : State} {a : Word} (h : s.redirectWire = some a) :
    ∃ e, s.de = some e ∧ e.br ≠ .none := by
  obtain ⟨e, he, hr⟩ := Option.bind_eq_some_iff.mp h
  refine ⟨e, he, fun hb => ?_⟩
  simp [redirectOf, hb, taken] at hr

/-- R53 for the wires: while decode holds an instruction, execute drives no redirect. -/
theorem PipelineInv.redirectWire_none {s : State} (hs : PipelineInv s) {p : FDPayload}
    (hc : s.candidate = some p) : s.redirectWire = none := by
  cases hr : s.redirectWire with
  | none => rfl
  | some a =>
    obtain ⟨e, he, hb⟩ := br_of_redirectWire hr
    obtain ⟨hfd, hsaved⟩ := hs.controlAlone e he hb
    simp [candidate_none.mpr ⟨hsaved, hfd⟩] at hc

/-- Where decode stalls fetch on an instruction and execute drives no redirect, PC stays and FD
becomes none (R122). -/
theorem fetchStage_stalled {s : State} {f : Word × Option FDPayload}
    (hr : s.redirectWire = none) (h : fetchStage true s.redirectWire s = .ok f) :
    f = (s.pc, none) := by
  simpa [fetchStage, hr] using h.symm

/-- What fetch puts in FD is the IMem word at its address, with PC just past it (R122). -/
theorem fetchStage_fd {stall : Bool} {redirect : Option Word} {s : State}
    {f : Word × Option FDPayload} {p : FDPayload} (h : fetchStage stall redirect s = .ok f)
    (hp : f.2 = some p) :
    f.1 = p.pc + 4#32 ∧ ∃ i, fetchIndex s.params p.pc = .ok i ∧ p.inst = imemRead s.imem i := by
  rcases fetchStage_ok h with ⟨a, -, rfl⟩ | ⟨-, -, rfl⟩ | ⟨-, -, i, hi, rfl⟩
  · cases hp
  · cases hp
  · cases hp
    exact ⟨rfl, i, hi, rfl⟩

/-- A state with nothing in decode and nothing of a control transfer in execute, but what fetch has
just read, meets the pipeline's invariant. -/
theorem pipelineInv_of_fetched {s : State} (hsaved : s.saved = none)
    (hde : ∀ e, s.de = some e → e.br = .none)
    (hfd : ∀ p, s.fd = some p →
      s.pc = p.pc + 4#32 ∧ ∃ i, fetchIndex s.params p.pc = .ok i ∧ p.inst = imemRead s.imem i) :
    PipelineInv s where
  savedExcludesFd h := absurd hsaved h
  controlAlone e he hb := absurd (hde e he) hb
  branchHasImm e he hb := absurd (hde e he) hb
  fetchPath := ⟨fun p hp => hfd p (candidate_fd hsaved ▸ hp), fun e he hb => absurd (hde e he) hb⟩

/-- Settles O40, by decode's three cases: with nothing in decode or an ordinary instruction issued
only fetch's word is left to check; a held instruction and an issued branch or jump stall fetch, and
as an instruction in decode shuts out a redirect, PC and the instruction's address stay as they
were. -/
theorem stepKeepsPipelineInv : Obligations.StepKeepsPipelineInv := by
  unfold Obligations.StepKeepsPipelineInv
  intro s t hs hstep
  obtain ⟨m, f, -, hf, rfl⟩ := step_next.mp hstep
  have hfd := fun p => fetchStage_fd (p := p) hf
  unfold State.stallWire at hf
  rcases decodeOut_cases s with ⟨-, hd⟩ | ⟨p, hc, -, hd⟩ | ⟨p, hc, -, hd⟩
  · exact pipelineInv_of_fetched (by simp [hd, decodeNothing]) (by simp [hd, decodeNothing]) hfd
  · rw [hd] at hf
    obtain rfl := fetchStage_stalled (hs.redirectWire_none hc) hf
    refine
      { savedExcludesFd := fun _ => rfl
        controlAlone := by simp [ControlAlone, hd]
        branchHasImm := by simp [BranchHasImm, hd]
        fetchPath := ⟨fun q hq => ?_, by simp [hd]⟩ }
    obtain rfl : p = q := by simpa [State.candidate, hd] using hq
    exact hs.fetchPath.1 p hc
  · by_cases hb : (candidateControl s p).br = .none
    · exact pipelineInv_of_fetched (by simp [hd]) (by simp [hd, issuePayload, hb]) hfd
    · have hstall : ((candidateControl s p).br != .none) = true := by simpa using hb
      rw [hd, hstall] at hf
      obtain rfl := fetchStage_stalled (hs.redirectWire_none hc) hf
      have hpc : s.pc = p.pc + 4#32 := (hs.fetchPath.1 p hc).1
      exact
        { savedExcludesFd := fun _ => rfl
          controlAlone := fun _ _ _ => ⟨rfl, by simp [hd]⟩
          branchHasImm := by
            simpa [BranchHasImm, hd, issuePayload, candidateControl] using controlOf_imm_of_br
          fetchPath := ⟨by simp [State.candidate, hd], by simp [hd, issuePayload, hpc]⟩ }

end Sys2Proof.Machine
end

section
/-! The scoreboard and the instructions in flight. -/

namespace Sys2Proof.Machine

/-- How often a register is the destination of one instruction: once, if it is not register 0. -/
theorem count_realDest (d : Option RegIdx) (r : RegIdx) :
    (realDest d).count r = if r ≠ 0#5 ∧ d = some r then 1 else 0 := by
  cases d with
  | none => simp [realDest]
  | some x =>
    by_cases hx : x = r
    · subst hx
      by_cases h0 : x = 0#5 <;> simp [realDest, h0]
    · by_cases h0 : x = 0#5
      · simpa [realDest, h0] using Ne.symm
      · simp [realDest, h0, hx]

/-- Write-back completes exactly a destination other than register 0 (R155, R156). -/
theorem realDest_completion (mw : Option MWPayload) :
    realDest ((writeBack mw).map Prod.fst) = realDest (mw.bind (·.dest)) := by
  cases hw : writeBack mw with
  | some x =>
    obtain ⟨r, v⟩ := x
    simp [(writeBack_some.mp hw).1]
  | none =>
    rcases mw with _ | ⟨v, _ | r⟩
    · rfl
    · rfl
    · have h0 : r = 0#5 := by
        by_contra h
        simp [writeBack, h] at hw
      simp [realDest, h0]

/-- The destinations in flight that have not completed: those in execute, memory and write-back. -/
def unfinished (s : State) : List RegIdx :=
  realDest (s.de.bind (·.dest)) ++ realDest (s.em.bind (·.dest)) ++ realDest (s.mw.bind (·.dest))

theorem inFlight_eq (s : State) : inFlight s = unfinished s ++ realDest s.wbc := rfl

/-- The instructions in flight move one stage on: the issued one joins, the completed one leaves. -/
theorem inFlight_step {s t : State} (h : step s = .next t) :
    inFlight t = realDest s.issuedDest ++ unfinished s := by
  obtain ⟨⟨w, st⟩, f, hm, -, rfl⟩ := step_next.mp h
  have hem : (s.de.map executePayload).bind (·.dest) = s.de.bind (·.dest) := by
    cases s.de <;> rfl
  simp [inFlight, unfinished, hem, memoryStage_dest hm, realDest_completion, State.issuedDest]

/-- After the release the scoreboard is exact for the instructions not yet completed (R125). -/
theorem released_exact {s : State} (hs : ScoreboardExact s) (hcomp : CompletionReal s)
    (r : RegIdx) :
    (unfinished s).count r ≤ 1 ∧
      (s.released.getLsbD r.toNat = true ↔ (unfinished s).count r = 1) := by
  obtain ⟨hone, hlock⟩ := hs r
  rw [inFlight_eq, List.count_append, count_realDest] at hone hlock
  rw [released_bit]
  by_cases hw : s.wbc = some r
  · have hr : r ≠ 0#5 := fun h0 => hcomp (h0 ▸ hw)
    simp only [hw, hr, ne_eq, not_false_eq_true, and_self, if_true] at hone
    have hzero : (unfinished s).count r = 0 := by omega
    simp [hw, hzero]
  · simp only [hw, and_false, if_false, Nat.add_zero] at hone hlock
    simpa [hw] using ⟨hone, hlock⟩

/-- Write-back never completes register 0 (R155). -/
theorem step_completionReal {s t : State} (h : step s = .next t) : CompletionReal t := by
  obtain ⟨m, f, -, -, rfl⟩ := step_next.mp h
  intro hw
  obtain ⟨⟨r, v⟩, hwrite, h0⟩ := Option.map_eq_some_iff.mp hw
  exact (writeBack_some.mp hwrite).2 h0

theorem step_sb {s t : State} (h : step s = .next t) : t.sb = s.decodeOut.sb := by
  obtain ⟨m, f, -, -, rfl⟩ := step_next.mp h
  rfl

/-- Settles O41: a register's lock and its number of writers in flight change together, by the
release and by the issue; the interlock lets decode issue only a writer of a free register. -/
theorem stepKeepsScoreboardExact : Obligations.StepKeepsScoreboardExact := by
  unfold Obligations.StepKeepsScoreboardExact
  intro s t hw hs hcomp hstep
  refine ⟨fun r => ?_, step_completionReal hstep⟩
  obtain ⟨hone, hlock⟩ := released_exact hs hcomp r
  rw [step_sb hstep, decodeOut_sb_bit, inFlight_step hstep, List.count_append, count_realDest]
  by_cases hd : r ≠ 0#5 ∧ s.issuedDest = some r
  · have hfree := released_bit_of_issuedDest hw hd.1 hd.2
    have hzero : (unfinished s).count r = 0 := by
      have : (unfinished s).count r ≠ 1 := by simpa [hfree] using hlock
      omega
    simp [hd, hzero]
  · have hnew : (r != 0#5 && s.issuedDest == some r) = false := by simpa using hd
    simpa only [hd, if_false, hnew, Bool.or_false, Nat.zero_add] using ⟨hone, hlock⟩

end Sys2Proof.Machine
end

section
/-! The frame of one cycle, and what no run changes. -/

namespace Sys2Proof.Machine

open Sys2Proof.Claims

/-- A cycle changes no register but the one write-back names (R155). -/
theorem commit_readReg {d : DecodeOut} {f : Word × Option FDPayload}
    {m : Option MWPayload × Option (Nat × Word)} {s : State} {r : RegIdx}
    (h : ∀ v, s.mw ≠ some { val := v, dest := some r }) :
    (commit d f m s).readReg r = s.readReg r :=
  read_commitRf_writeBack s.rf h

/-- A cycle changes no byte of DMEM outside the word of a store in the memory stage (R151). -/
theorem commit_dmemByte {d : DecodeOut} {f : Word × Option FDPayload}
    {m : Option MWPayload × Option (Nat × Word)} {s : State} {a : Nat}
    (hm : memoryStage s = .ok m)
    (h : ∀ e, s.em = some e → e.mem = .store → a / 4 ≠ wordIndex e.res) :
    dmemByte (commit d f m s) a = dmemByte s a := by
  obtain ⟨w, _ | ⟨i, v⟩⟩ := m
  · rfl
  · obtain ⟨e, he, hstore, hi, -⟩ := memoryStage_write hm
    have hai : a / 4 ≠ i := (dataIndex_some.mp hi).1 ▸ h e he hstore
    simp [dmemByte, commitDmem, dmemWrite, Memory.readByte_writeWord, hai]

/-- Settles O24: the cycle of every instruction is a commit, whatever decode does in it. -/
theorem execCycleFrame : Obligations.ExecCycleFrame := by
  unfold Obligations.ExecCycleFrame
  intro i s t h
  obtain ⟨d, hd⟩ := exec_eq_cycleWith i s
  obtain ⟨m, f, hm, -, rfl⟩ := cycleWith_next.mp (hd ▸ h)
  exact ⟨rfl, rfl, fun r hr => commit_readReg hr, fun a ha => commit_dmemByte hm ha⟩

/-- No run changes slot 0 of the register file (R28). -/
theorem cycles_slot_zero {k : Nat} {s t : State} (h : cycles k s = .next t) :
    t.rf.get 0 = s.rf.get 0 := by
  refine cycles_keep (P := fun u => u.rf.get 0 = s.rf.get 0) (fun {u v} hu huv => ?_) k rfl h
  obtain ⟨m, f, -, -, rfl⟩ := step_next.mp huv
  exact (commitRf_slot_zero _ _).trans hu

/-- No step locks register 0 (R131). -/
theorem step_sb_zero {s t : State} (h : step s = .next t) (ht : t.sb.getLsbD 0 = true) :
    s.sb.getLsbD 0 = true := by
  have hbit := decodeOut_sb_bit s 0#5
  rw [released_bit, ← step_sb h] at hbit
  simp only [BitVec.toNat_ofNat, Nat.zero_mod, ht, bne_self_eq_false, Bool.false_and,
    Bool.or_false] at hbit
  exact (Bool.and_eq_true_iff.mp hbit.symm).1

/-- No run locks register 0 (R28, R131). -/
theorem cycles_sb_zero {k : Nat} {s t : State} (h : cycles k s = .next t) :
    t.sb.getLsbD 0 = true → s.sb.getLsbD 0 = true :=
  cycles_keep (P := fun u => u.sb.getLsbD 0 = true → s.sb.getLsbD 0 = true)
    (fun hu huv hv => hu (step_sb_zero huv hv)) k id h

@[simp] theorem readReg_zero (s : State) : s.readReg 0#5 = 0#32 := RegFile.read_zero s.rf

@[simp] theorem locked_zero (sb : BitVec 32) : locked sb 0#5 = false := rfl

/-- Settles O26: every step keeps slot 0 and never locks register 0, and so does every run. -/
theorem registerZeroConstant : Obligations.RegisterZeroConstant := by
  unfold Obligations.RegisterZeroConstant
  intro k s t h
  exact ⟨readReg_zero t, readReg_zero s, cycles_slot_zero h, cycles_sb_zero h,
    locked_zero t.released, rfl⟩

/-- No run changes IMEM (R47). -/
theorem cycles_imem {k : Nat} {s t : State} (h : cycles k s = .next t) : t.imem = s.imem :=
  cycles_keep (P := fun u => u.imem = s.imem) (fun hu huv => (step_imem huv).trans hu)
    k rfl h

end Sys2Proof.Machine
end

section
/-! Launch: the program image, and the invariants. -/

namespace Sys2Proof.Machine

/-! ## The empty memory and the image (R272) -/

@[simp] theorem readByte_nil (d : Nat → Byte) (a : Nat) : Memory.readByte d [] a = d a := rfl

/-- Byte `k` of a DMEM word no store has written is byte `k` of its DMEM_INIT entry (R51, R73). -/
theorem dmemUnlisted_word (p : Params) (i : Nat) {k : Nat} (hk : k < 4) :
    dmemUnlisted p (4 * i + k) = byteOf (p.dmemInit.getD i 0#32) k := by
  have hdiv : (4 * i + k) / 4 = i := by omega
  have hmod : (4 * i + k) % 4 = k := by omega
  rw [dmemUnlisted, hdiv, hmod]

/-- Where nothing is listed DMEM reads as DMEM_INIT (R51, R273). -/
@[simp] theorem dmemRead_nil (p : Params) (i : Nat) : dmemRead p [] i = p.dmemInit.getD i 0#32 := by
  have h0 : dmemUnlisted p (4 * i) = _ := dmemUnlisted_word p i (by decide : 0 < 4)
  have h1 := dmemUnlisted_word p i (by decide : 1 < 4)
  have h2 := dmemUnlisted_word p i (by decide : 2 < 4)
  have h3 := dmemUnlisted_word p i (by decide : 3 < 4)
  simp only [dmemRead, Memory.readWord, readByte_nil, h0, h1, h2, h3, wordOfBytes_byteOf]

@[simp] theorem imemRead_nil (i : Nat) : imemRead [] i = 0#32 := by
  simp only [imemRead, Memory.readWord, readByte_nil, imemUnlisted]
  decide

theorem imageFrom_cons (i : Nat) (w : Word) (ws : List Word) (m : Memory) :
    imageFrom i (w :: ws) m = imageFrom (i + 1) ws (m.writeWord imemUnlisted i w) := rfl

/-- Placing words from index `i` on leaves the words below alone. -/
theorem imemRead_imageFrom_below (ws : List Word) {i j : Nat} (m : Memory) (h : j < i) :
    imemRead (imageFrom i ws m) j = imemRead m j := by
  induction ws generalizing i m with
  | nil => rfl
  | cons w ws ih =>
    rw [imageFrom_cons, ih _ (by omega)]
    exact Memory.readWord_writeWord_other _ _ _ (by omega)

/-- Word `i + k` after placing words from index `i` on: the `k`-th of them, else as before. -/
theorem imemRead_imageFrom (ws : List Word) (i k : Nat) (m : Memory) :
    imemRead (imageFrom i ws m) (i + k) = ws.getD k (imemRead m (i + k)) := by
  induction ws generalizing i k m with
  | nil => rfl
  | cons w ws ih =>
    rw [imageFrom_cons]
    cases k with
    | zero =>
      rw [Nat.add_zero i, imemRead_imageFrom_below ws _ i.lt_add_one]
      exact Memory.readWord_writeWord_same _ _ _ _
    | succ k =>
      have hother : imemRead (m.writeWord imemUnlisted i w) (i + 1 + k) = imemRead m (i + 1 + k) :=
        Memory.readWord_writeWord_other _ _ _ (by omega)
      rw [show i + (k + 1) = i + 1 + k by omega, ih, hother, List.getD_cons_succ]

/-- IMem word `i` is word `i` of the image, 0 past its end (R47, R272). -/
theorem imemRead_imageOf (ws : List Word) (i : Nat) : imemRead (imageOf ws) i = ws.getD i 0#32 := by
  have h := imemRead_imageFrom ws 0 i []
  rwa [Nat.zero_add, imemRead_nil] at h

theorem imageFrom_wf (ws : List Word) (i : Nat) {m : Memory} (h : m.wf imemUnlisted) :
    (imageFrom i ws m).wf imemUnlisted := by
  induction ws generalizing i m with
  | nil => exact h
  | cons w ws ih => exact ih (i + 1) (Memory.wf_writeWord i w h)

theorem imageFrom_within (ws : List Word) {i words : Nat} {m : Memory}
    (hfit : i + ws.length ≤ words) (h : m.within words) : (imageFrom i ws m).within words := by
  induction ws generalizing i m with
  | nil => exact h
  | cons w ws ih =>
    rw [List.length_cons] at hfit
    exact ih (by omega) (Memory.within_writeWord w (by omega) h)

theorem imageOf_wf (ws : List Word) : (imageOf ws).wf imemUnlisted :=
  imageFrom_wf ws 0 ⟨List.Pairwise.nil, by simp⟩

/-- A legal launch input's image lies inside IMem (R7, R272). -/
theorem imageOf_within {l : LaunchInput} (h : l.legal = true) :
    (imageOf l.image).within l.params.imemWords := by
  have hfit : l.image.length ≤ l.params.imemWords := by
    simp only [LaunchInput.legal, Bool.and_eq_true, decide_eq_true_eq] at h
    exact h.2
  exact imageFrom_within l.image (by omega) (by simp)

/-- Settles O25: the launch image read word by word, its bound, and IMEM kept by every step. -/
theorem imemReadOnly : Obligations.ImemReadOnly := by
  unfold Obligations.ImemReadOnly
  exact ⟨fun l i => imemRead_imageOf l.image i, fun l hl => imageOf_within hl,
    fun k s t h => cycles_imem h⟩

/-! ## The launch state (R51) -/

theorem memoriesWf_launch {l : LaunchInput} (h : l.legal = true) : MemoriesWf (State.launch l) :=
  ⟨imageOf_wf l.image, imageOf_within h, ⟨List.Pairwise.nil, by simp [State.launch]⟩,
    by simp [State.launch]⟩

theorem zeroSlot_launch (l : LaunchInput) : ZeroSlot (State.launch l) := by
  simp [ZeroSlot, State.launch, Vector.get_eq_getElem]

/-- An empty pipeline meets the pipeline's invariant. -/
theorem pipelineInv_launch (l : LaunchInput) : PipelineInv (State.launch l) :=
  pipelineInv_of_fetched rfl (by simp [State.launch]) (by simp [State.launch])

/-- At launch nothing is locked and nothing is in flight. -/
theorem scoreboardExact_launch (l : LaunchInput) : ScoreboardExact (State.launch l) := by
  intro r
  have hnone : inFlight (State.launch l) = [] := rfl
  have hfree : (State.launch l).sb = 0#32 := rfl
  simp [hnone, hfree]

theorem completionReal_launch (l : LaunchInput) : CompletionReal (State.launch l) := by
  simp [CompletionReal, State.launch]

/-- Settles O42: canonical memories of a legal image, an empty pipeline and an empty scoreboard. -/
theorem launchMeetsInvariants : Obligations.LaunchMeetsInvariants := by
  unfold Obligations.LaunchMeetsInvariants
  intro l hl
  have hpipe := pipelineInv_launch l
  have hboard := scoreboardExact_launch l
  have hcomp := completionReal_launch l
  exact ⟨memoriesWf_launch hl, zeroSlot_launch l, hpipe, hboard, hcomp,
    fun hw => ⟨hw, hpipe, hboard, hcomp⟩⟩

/-- State.reset is the launch of the conventional parameters with no image. -/
theorem reset_eq_launch :
    State.reset = State.launch (LaunchInput.standard Params.conventional []) := by
  decide

/-- Settles O43: State.reset is a launch of a legal input. -/
theorem resetMeetsInvariants : Obligations.ResetMeetsInvariants := by
  unfold Obligations.ResetMeetsInvariants
  rw [reset_eq_launch]
  obtain ⟨hmem, hzero, -, -, -, hgood⟩ := launchMeetsInvariants
    (LaunchInput.standard Params.conventional []) (by decide)
  exact ⟨hmem, hzero, hgood rfl⟩

theorem readReg_two_launch (l : LaunchInput) : (State.launch l).readReg 2#5 = l.spInit := by
  simp [State.readReg, RegFile.read, State.launch, Vector.get_eq_getElem]

/-- Every register but 0 and 2 starts at its RF_INIT entry (R51, D8). -/
theorem readReg_other_launch (l : LaunchInput) {r : RegIdx} (h0 : r ≠ 0#5) (h2 : r ≠ 2#5) :
    (State.launch l).readReg r = l.rfInit.get r.toFin := by
  have hn0 : 0 ≠ r.toNat := fun h => h0 (BitVec.eq_of_toNat_eq h.symm)
  have hn2 : 2 ≠ r.toNat := fun h => h2 (BitVec.eq_of_toNat_eq h.symm)
  simp [State.readReg, RegFile.read, State.launch, Vector.get_eq_getElem, h0, hn0, hn2]

/-- Settles O45: the fields of the launch state, and State.reset as a launch. -/
theorem launchState : Obligations.LaunchState := by
  unfold Obligations.LaunchState
  refine ⟨fun l => ⟨rfl, rfl, rfl, rfl, rfl, rfl, rfl, rfl, readReg_zero _, readReg_two_launch l,
    fun r => readReg_other_launch l, dmemRead_nil l.params⟩, reset_eq_launch, ?_⟩
  rw [reset_eq_launch, readReg_two_launch]
  rfl

end Sys2Proof.Machine
end

section
/-! The image in IMEM byte by byte (R73). -/

namespace Sys2Proof.Machine

/-! ## The bytes of a word -/

/-- Bit `j` of byte `k` of a word is its bit `8k + j` (R73). -/
theorem getLsbD_byteOf (w : Word) (k : Nat) {j : Nat} (hj : j < 8) :
    (byteOf w k).getLsbD j = w.getLsbD (8 * k + j) := by
  simp [byteOf, hj]

section
variable (b0 b1 b2 b3 : Byte)

@[simp] theorem byteOf_wordOfBytes_zero : byteOf (wordOfBytes b0 b1 b2 b3) 0 = b0 :=
  BitVec.extractLsb'_append_eq_right

@[simp] theorem byteOf_wordOfBytes_one : byteOf (wordOfBytes b0 b1 b2 b3) 1 = b1 :=
  (BitVec.extractLsb'_append_eq_of_le (by decide)).trans BitVec.extractLsb'_append_eq_right

@[simp] theorem byteOf_wordOfBytes_two : byteOf (wordOfBytes b0 b1 b2 b3) 2 = b2 :=
  (BitVec.extractLsb'_append_eq_of_le (by decide)).trans <|
    (BitVec.extractLsb'_append_eq_of_le (by decide)).trans BitVec.extractLsb'_append_eq_right

@[simp] theorem byteOf_wordOfBytes_three : byteOf (wordOfBytes b0 b1 b2 b3) 3 = b3 :=
  (BitVec.extractLsb'_append_eq_of_le (by decide)).trans <|
    (BitVec.extractLsb'_append_eq_of_le (by decide)).trans BitVec.extractLsb'_append_eq_left

end

/-- Byte `k` of the word read at index `i` is the byte at address `4i + k` (R73). -/
theorem Memory.byteOf_readWord (d : Nat → Byte) (m : Memory) (i : Nat) {k : Nat} (hk : k < 4) :
    byteOf (m.readWord d i) k = m.readByte d (4 * i + k) := by
  interval_cases k <;> simp [Memory.readWord]

/-- Byte `4i + k` of the launch image is byte `k` of the image's word `i` (R73, R272). -/
theorem readByte_imageOf (ws : List Word) (i : Nat) {k : Nat} (hk : k < 4) :
    (imageOf ws).readByte imemUnlisted (4 * i + k) = byteOf (ws.getD i 0#32) k := by
  rw [← Memory.byteOf_readWord _ _ _ hk, ← imemRead, imemRead_imageOf]

/-- Settles O46: a byte of IMEM is a byte of the word read there, which is the image's. -/
theorem imageBytePacking : Obligations.ImageBytePacking := by
  unfold Obligations.ImageBytePacking
  intro l i k j hk hj
  have himage : (State.launch l).imem = imageOf l.image := rfl
  rw [himage, readByte_imageOf _ _ hk, getLsbD_byteOf _ _ hj]

end Sys2Proof.Machine
end

section
/-! The decoder by major opcode (spec/30_encoding.md R95), the operands an encoded word carries, and
the word that a format makes of a word's own fields (R91 to R93). -/

namespace Sys2Proof

/-! ## The decoder by major opcode (R95) -/

/-- The major opcodes of R95 that hold a recognised instruction. -/
def majorOpcodes : List (BitVec 7) :=
  [0b0110011#7, 0b0010011#7, 0b0000011#7, 0b0100011#7, 0b1100011#7, 0b1101111#7, 0b1100111#7,
   0b0110111#7, 0b0010111#7]

section
variable (nm : NarrowMem) {w : Word}

theorem decodeWord_op (h : opcodeOf w = 0b0110011#7) : decodeWord nm w = decodeOp w := by
  simp [decodeWord, h]

theorem decodeWord_load (h : opcodeOf w = 0b0000011#7) : decodeWord nm w = decodeLoad nm w := by
  simp [decodeWord, h]

theorem decodeWord_store (h : opcodeOf w = 0b0100011#7) : decodeWord nm w = decodeStore nm w := by
  simp [decodeWord, h]

theorem decodeWord_other (h : opcodeOf w ∉ majorOpcodes) : decodeWord nm w = .nop w := by
  simp only [majorOpcodes, List.mem_cons, List.not_mem_nil, or_false, not_or] at h
  simp [decodeWord, h]

theorem decodeLoad_narrowMem_irrel (nm' : NarrowMem) (h : ¬ (funct3Of w = 0b000#3 ∨
    funct3Of w = 0b001#3 ∨ funct3Of w = 0b100#3 ∨ funct3Of w = 0b101#3)) :
    decodeLoad nm w = decodeLoad nm' w := by
  simp only [decodeLoad, h, and_false]

theorem decodeStore_narrowMem_irrel (nm' : NarrowMem)
    (h : ¬ (funct3Of w = 0b000#3 ∨ funct3Of w = 0b001#3)) :
    decodeStore nm w = decodeStore nm' w := by
  simp only [decodeStore, h, and_false]

/-- NARROW_MEM matters to LOAD and STORE words alone (R101). -/
theorem decodeWord_narrowMem_irrel (nm' : NarrowMem) (hl : opcodeOf w ≠ 0b0000011#7)
    (hs : opcodeOf w ≠ 0b0100011#7) : decodeWord nm w = decodeWord nm' w := by
  simp only [decodeWord, if_neg hl, if_neg hs]

end

/-! ## The scrambled immediates bit by bit (R93) -/

theorem getElem_immSOf (w : Word) {i : Nat} (hi : i < 12) :
    (immSOf w)[i] = if i < 5 then w.getLsbD (7 + i) else w.getLsbD (20 + i) := by
  refine (BitVec.getElem_append hi).trans ?_
  simp only [BitVec.getElem_extractLsb']
  interval_cases i <;> simp

theorem getElem_immBOf (w : Word) {i : Nat} (hi : i < 13) :
    (immBOf w)[i] =
      if i = 0 then false else if i < 5 then w.getLsbD (7 + i) else if i < 11 then w.getLsbD (20 + i)
      else if i = 11 then w.getLsbD 7 else w.getLsbD 31 := by
  refine (BitVec.getElem_append hi).trans ?_
  simp only [BitVec.getElem_append, BitVec.getElem_extractLsb']
  interval_cases i <;> simp

theorem getElem_immJOf (w : Word) {i : Nat} (hi : i < 21) :
    (immJOf w)[i] =
      if i = 0 then false else if i < 11 then w.getLsbD (20 + i) else if i = 11 then w.getLsbD 20
      else if i < 20 then w.getLsbD i else w.getLsbD 31 := by
  refine (BitVec.getElem_append hi).trans ?_
  simp only [BitVec.getElem_append, BitVec.getElem_extractLsb']
  interval_cases i <;> simp

/-! ## The operands of an encoded word -/

theorem encodeS_operands (f3 : BitVec 3) (op : BitVec 7) (rs2 rs1 : RegIdx) (imm : BitVec 12) :
    rs2Of (encodeS f3 op rs2 rs1 imm) = rs2 ∧ rs1Of (encodeS f3 op rs2 rs1 imm) = rs1 ∧
    immSOf (encodeS f3 op rs2 rs1 imm) = imm := by
  refine ⟨?_, ?_, ?_⟩ <;>
    (ext i hi
     interval_cases i <;> simp [rs2Of, rs1Of, getElem_immSOf, encodeS, place])

/-- The offset of a B word is the one encoded if its bit 0, which the word does not hold, is 0 (R93). -/
theorem encodeB_operands (f3 : BitVec 3) (op : BitVec 7) (rs1 rs2 : RegIdx) {imm : BitVec 13}
    (h0 : imm[0] = false) :
    rs1Of (encodeB f3 op rs1 rs2 imm) = rs1 ∧ rs2Of (encodeB f3 op rs1 rs2 imm) = rs2 ∧
    immBOf (encodeB f3 op rs1 rs2 imm) = imm := by
  refine ⟨?_, ?_, ?_⟩ <;>
    (ext i hi
     interval_cases i <;> simp [rs1Of, rs2Of, getElem_immBOf, encodeB, place, h0])

theorem encodeU_operands (op : BitVec 7) (rd : RegIdx) (imm : BitVec 20) :
    rdOf (encodeU op rd imm) = rd ∧ immUOf (encodeU op rd imm) = imm := by
  refine ⟨?_, ?_⟩ <;>
    (ext i hi
     interval_cases i <;> simp [rdOf, immUOf, encodeU, place])

/-- As `encodeB_operands`, for the 21-bit offset of a J word. -/
theorem encodeJ_operands (op : BitVec 7) (rd : RegIdx) {imm : BitVec 21} (h0 : imm[0] = false) :
    rdOf (encodeJ op rd imm) = rd ∧ immJOf (encodeJ op rd imm) = imm := by
  refine ⟨?_, ?_⟩ <;>
    (ext i hi
     interval_cases i <;> simp [rdOf, getElem_immJOf, encodeJ, place, h0])

/-! ## A word from its own fields (R91 to R93) -/

section
variable {w : Word} {op : BitVec 7} {f3 : BitVec 3}

theorem encodeR_of_fields {f7 : BitVec 7} (hop : opcodeOf w = op) (h3 : funct3Of w = f3)
    (h7 : funct7Of w = f7) : encodeR f7 f3 op (rdOf w) (rs1Of w) (rs2Of w) = w := by
  subst hop h3 h7
  ext i hi
  interval_cases i <;> simp [encodeR, place, opcodeOf, funct3Of, funct7Of, rdOf, rs1Of, rs2Of]

theorem encodeI_of_fields (hop : opcodeOf w = op) (h3 : funct3Of w = f3) :
    encodeI f3 op (rdOf w) (rs1Of w) (immIOf w) = w := by
  subst hop h3
  ext i hi
  interval_cases i <;> simp [encodeI, place, opcodeOf, funct3Of, rdOf, rs1Of, immIOf]

theorem encodeS_of_fields (hop : opcodeOf w = op) (h3 : funct3Of w = f3) :
    encodeS f3 op (rs2Of w) (rs1Of w) (immSOf w) = w := by
  subst hop h3
  ext i hi
  interval_cases i <;> simp [encodeS, place, opcodeOf, funct3Of, rs1Of, rs2Of, getElem_immSOf]

theorem encodeB_of_fields (hop : opcodeOf w = op) (h3 : funct3Of w = f3) :
    encodeB f3 op (rs1Of w) (rs2Of w) (immBOf w) = w := by
  subst hop h3
  ext i hi
  interval_cases i <;> simp [encodeB, place, opcodeOf, funct3Of, rs1Of, rs2Of, getElem_immBOf]

theorem encodeU_of_fields (hop : opcodeOf w = op) : encodeU op (rdOf w) (immUOf w) = w := by
  subst hop
  ext i hi
  interval_cases i <;> simp [encodeU, place, opcodeOf, rdOf, immUOf]

theorem encodeJ_of_fields (hop : opcodeOf w = op) : encodeJ op (rdOf w) (immJOf w) = w := by
  subst hop
  ext i hi
  interval_cases i <;> simp [encodeJ, place, opcodeOf, rdOf, getElem_immJOf]

end

end Sys2Proof
end

section
/-! Decoding and encoding are inverse (spec/30_encoding.md R90 to R101). -/

namespace Sys2Proof

/-! ## Decoding an encoded instruction -/

/-- Every recognised instruction decodes back from its word, whatever NARROW_MEM says (R92, R96). -/
theorem decodeWord_encode (nm : NarrowMem) {i : Instr} (hwf : i.wellFormed = true)
    (hnop : ∀ w, i ≠ .nop w) : decodeWord nm (encode i) = i := by
  cases i
  case nop w => exact absurd rfl (hnop w)
  case add | sub | sll | slt | sltu | xor | srl | sra | or | and =>
    simp [encode, decodeWord, decodeOp, encodeR_fields]
  case addi | slti | sltiu | xori | ori | andi =>
    simp [encode, decodeWord, decodeOpImm, encodeI_fields]
  case slli | srli | srai => simp [encode, decodeWord, decodeOpImm, encodeR_fields]
  case lw => simp [encode, decodeWord, decodeLoad, encodeI_fields]
  case sw => simp [encode, decodeWord, decodeStore, encodeS_opcode, encodeS_operands]
  case beq | bne | blt | bge | bltu | bgeu =>
    have h0 := by simpa [Instr.wellFormed] using hwf
    simp [encode, decodeWord, decodeBranch, encodeB_opcode, encodeB_operands _ _ _ _ h0]
  case jal =>
    have h0 := by simpa [Instr.wellFormed] using hwf
    simp [encode, decodeWord, encodeJ_opcode, encodeJ_operands _ _ h0]
  case jalr => simp [encode, decodeWord, encodeI_fields]
  case lui | auipc => simp [encode, decodeWord, encodeU_opcode, encodeU_operands]

/-! ## Encoding a decoded word -/

/-- What the decoder may answer for `w`: the no-operation, or a recognised instruction whose word is
`w`. -/
def Reads (w : Word) (i : Instr) : Prop :=
  i = .nop w ∨ i.wellFormed = true ∧ encode i = w ∧ ∀ v, i ≠ .nop v

theorem funct3_cases (f : BitVec 3) : f = 0b000#3 ∨ f = 0b001#3 ∨ f = 0b010#3 ∨ f = 0b011#3 ∨
    f = 0b100#3 ∨ f = 0b101#3 ∨ f = 0b110#3 ∨ f = 0b111#3 := by
  decide +revert

section
variable {w : Word}

theorem reads_decodeOp (hop : opcodeOf w = 0b0110011#7) : Reads w (decodeOp w) := by
  by_cases h0 : funct7Of w = 0b0000000#7
  · rcases funct3_cases (funct3Of w) with h | h | h | h | h | h | h | h <;>
      simp [Reads, decodeOp, h0, h, Instr.wellFormed, encode, encodeR_of_fields hop h h0]
  by_cases h1 : funct7Of w = 0b0100000#7
  · rcases funct3_cases (funct3Of w) with h | h | h | h | h | h | h | h <;>
      simp [Reads, decodeOp, h1, h, Instr.wellFormed, encode, encodeR_of_fields hop h h1]
  · exact .inl (by simp [decodeOp, h0, h1])

theorem reads_decodeOpImm (hop : opcodeOf w = 0b0010011#7) : Reads w (decodeOpImm w) := by
  rcases funct3_cases (funct3Of w) with h | h | h | h | h | h | h | h
  -- the shifts, funct3 001 and 101, check funct7 too (R94)
  case inr.inl | inr.inr.inr.inr.inr.inl =>
    by_cases h0 : funct7Of w = 0b0000000#7
    · simp [Reads, decodeOpImm, h0, h, Instr.wellFormed, encode, encodeR_of_fields hop h h0]
    by_cases h1 : funct7Of w = 0b0100000#7
    · simp [Reads, decodeOpImm, h1, h, Instr.wellFormed, encode, encodeR_of_fields hop h h1]
    · exact .inl (by simp [decodeOpImm, h, h0, h1])
  all_goals simp [Reads, decodeOpImm, h, Instr.wellFormed, encode, encodeI_of_fields hop h]

theorem reads_decodeLoad (hop : opcodeOf w = 0b0000011#7) : Reads w (decodeLoad .nop w) := by
  by_cases h : funct3Of w = 0b010#3 <;>
    simp [Reads, decodeLoad, h, Instr.wellFormed, encode, encodeI_of_fields hop]

theorem reads_decodeStore (hop : opcodeOf w = 0b0100011#7) : Reads w (decodeStore .nop w) := by
  by_cases h : funct3Of w = 0b010#3 <;>
    simp [Reads, decodeStore, h, Instr.wellFormed, encode, encodeS_of_fields hop]

theorem reads_decodeBranch (hop : opcodeOf w = 0b1100011#7) : Reads w (decodeBranch w) := by
  rcases funct3_cases (funct3Of w) with h | h | h | h | h | h | h | h <;>
    simp [Reads, decodeBranch, h, Instr.wellFormed, encode, encodeB_of_fields hop h, getElem_immBOf]

theorem reads_decodeWord (w : Word) : Reads w (decodeWord .nop w) := by
  simp only [decodeWord]
  split_ifs with hop himm hld hst hbr hjal hjalr h3 hlui hauipc
  · exact reads_decodeOp hop
  · exact reads_decodeOpImm himm
  · exact reads_decodeLoad hld
  · exact reads_decodeStore hst
  · exact reads_decodeBranch hbr
  · exact .inr ⟨by simp [Instr.wellFormed, getElem_immJOf], encodeJ_of_fields hjal, by simp⟩
  · exact .inr ⟨rfl, encodeI_of_fields hjalr h3, by simp⟩
  · exact .inl rfl
  · exact .inr ⟨rfl, encodeU_of_fields hlui, by simp⟩
  · exact .inr ⟨rfl, encodeU_of_fields hauipc, by simp⟩
  · exact .inl rfl

end

/-! ## The match table (R96) -/

open Laws in
/-- The word of every well-formed instruction matches its own row. -/
theorem encodesItsRow : ∀ i : Instr, EncodesItsRow.Statement i
  | .add _ _ _ => EncodesItsRow.add _ _ _
  | .sub _ _ _ => EncodesItsRow.sub _ _ _
  | .sll _ _ _ => EncodesItsRow.sll _ _ _
  | .slt _ _ _ => EncodesItsRow.slt _ _ _
  | .sltu _ _ _ => EncodesItsRow.sltu _ _ _
  | .xor _ _ _ => EncodesItsRow.xor _ _ _
  | .srl _ _ _ => EncodesItsRow.srl _ _ _
  | .sra _ _ _ => EncodesItsRow.sra _ _ _
  | .or _ _ _ => EncodesItsRow.or _ _ _
  | .and _ _ _ => EncodesItsRow.and _ _ _
  | .addi _ _ _ => EncodesItsRow.addi _ _ _
  | .slti _ _ _ => EncodesItsRow.slti _ _ _
  | .sltiu _ _ _ => EncodesItsRow.sltiu _ _ _
  | .xori _ _ _ => EncodesItsRow.xori _ _ _
  | .ori _ _ _ => EncodesItsRow.ori _ _ _
  | .andi _ _ _ => EncodesItsRow.andi _ _ _
  | .slli _ _ _ => EncodesItsRow.slli _ _ _
  | .srli _ _ _ => EncodesItsRow.srli _ _ _
  | .srai _ _ _ => EncodesItsRow.srai _ _ _
  | .lw _ _ _ => EncodesItsRow.lw _ _ _
  | .sw _ _ _ => EncodesItsRow.sw _ _ _
  | .beq _ _ _ => EncodesItsRow.beq _ _ _
  | .bne _ _ _ => EncodesItsRow.bne _ _ _
  | .blt _ _ _ => EncodesItsRow.blt _ _ _
  | .bge _ _ _ => EncodesItsRow.bge _ _ _
  | .bltu _ _ _ => EncodesItsRow.bltu _ _ _
  | .bgeu _ _ _ => EncodesItsRow.bgeu _ _ _
  | .jal _ _ => EncodesItsRow.jal _ _
  | .jalr _ _ _ => EncodesItsRow.jalr _ _ _
  | .lui _ _ => EncodesItsRow.lui _ _
  | .auipc _ _ => EncodesItsRow.auipc _ _
  | .nop _ => EncodesItsRow.nop _

section
variable {w : Word} {r : MatchRow}

/-- Every instruction but NOP has a row. -/
theorem exists_row {i : Instr} (h : ∀ v, i ≠ .nop v) : ∃ r ∈ matchTable, r.mnemonic = i.mnemonic := by
  cases i
  case nop w => exact absurd rfl (h w)
  all_goals simp [matchTable, Instr.mnemonic]

/-- A word that a row hits decodes to that row's instruction: the fields the row fixes pick the
decoder's branch. -/
theorem mnemonic_of_hits (hr : r ∈ matchTable) (h : r.hits w = true) :
    (decodeWord .nop w).mnemonic = r.mnemonic := by
  have hfields := (row_hits hr w).mp h
  fin_cases hr <;> simp [opcodeOf, funct3Of, funct7Of] at hfields <;>
    simp [decodeWord, decodeOp, decodeOpImm, decodeLoad, decodeStore, decodeBranch, opcodeOf,
      funct3Of, funct7Of, hfields, Instr.mnemonic]

theorem recognised_iff : recognised w = true ↔ ∃ r ∈ matchTable, r.hits w = true := by
  simp [recognised]

/-- No row is NOP's, so a word that the decoder makes a NOP is hit by none (R235). -/
theorem not_recognised_of_nop {v : Word} (h : decodeWord .nop w = .nop v) :
    recognised w = false := by
  have hne : ∀ r ∈ matchTable, "NOP" ≠ r.mnemonic := by decide
  rw [Bool.eq_false_iff, ne_eq, recognised_iff]
  rintro ⟨r, hr, hw⟩
  have hm := mnemonic_of_hits hr hw
  rw [h] at hm
  exact hne r hr hm

theorem decodeWord_wellFormed (w : Word) : (decodeWord .nop w).wellFormed = true := by
  rcases reads_decodeWord w with h | ⟨hwf, -, -⟩
  · simp [h, Instr.wellFormed, not_recognised_of_nop h]
  · exact hwf

theorem encode_decodeWord (w : Word) : encode (decodeWord .nop w) = w := by
  rcases reads_decodeWord w with h | ⟨-, henc, -⟩
  · rw [h, encode]
  · exact henc

/-- A row hits a word iff the word decodes to the row's instruction. -/
theorem hits_iff (hr : r ∈ matchTable) :
    r.hits w = true ↔ (decodeWord .nop w).mnemonic = r.mnemonic := by
  refine ⟨mnemonic_of_hits hr, fun h => ?_⟩
  have hits := encodesItsRow _ (decodeWord_wellFormed w) r hr h.symm
  rwa [encode_decodeWord] at hits

theorem decodeWord_eq_nop_iff : decodeWord .nop w = .nop w ↔ recognised w = false := by
  refine ⟨not_recognised_of_nop, fun h => ?_⟩
  rcases reads_decodeWord w with hnop | ⟨-, -, hne⟩
  · exact hnop
  · obtain ⟨r, hr, hm⟩ := exists_row hne
    have htrue := recognised_iff.mpr ⟨r, hr, (hits_iff hr).mpr hm.symm⟩
    exact absurd h (by simp [htrue])

end

/-! ## The statements -/

/-- Settles O1: field by field for the recognised instructions; a NOP's word matches no row. -/
theorem decodeOfEncode : Obligations.DecodeOfEncode := by
  unfold Obligations.DecodeOfEncode
  intro i hwf
  by_cases hnop : ∃ w, i = .nop w
  · obtain ⟨w, rfl⟩ := hnop
    have hw : recognised w = false := by simpa [Instr.wellFormed] using hwf
    exact ⟨decodeWord_eq_nop_iff.mpr hw, fun h => absurd rfl (h w)⟩
  · have hne := not_exists.mp hnop
    exact ⟨decodeWord_encode .nop hwf hne, decodeWord_encode .asWord hwf⟩

/-- Settles O2: each branch of the decoder keeps all the word's fields. -/
theorem encodeOfDecode : Obligations.EncodeOfDecode := by
  unfold Obligations.EncodeOfDecode
  exact fun w => ⟨decodeWord_wellFormed w, encode_decodeWord w⟩

/-- Settles O3: rows that hit one word have its instruction's mnemonic, which names one row. -/
theorem decodeFollowsMatchTable : Obligations.DecodeFollowsMatchTable := by
  unfold Obligations.DecodeFollowsMatchTable
  have hinj : ∀ r ∈ matchTable, ∀ r' ∈ matchTable, r.mnemonic = r'.mnemonic → r = r' := by decide
  refine fun w => ⟨fun r hr => hits_iff hr, fun r hr r' hr' h h' => ?_, ?_⟩
  · exact hinj r hr r' hr' ((mnemonic_of_hits hr h).symm.trans (mnemonic_of_hits hr' h'))
  · simp [decodeWord_eq_nop_iff, recognised]

/-- Settles O5: only the LOAD and STORE branches of the decoder look at NARROW_MEM. -/
theorem narrowMemEncodings : Obligations.NarrowMemEncodings := by
  unfold Obligations.NarrowMemEncodings
  intro w f3 narrowLoad narrowStore
  refine ⟨?_, ?_, fun hl hs => ?_⟩
  · rintro ⟨hop, h | h | h | h⟩ <;> simp [decodeWord_load _ hop, decodeLoad, f3, h]
  · rintro ⟨hop, h | h⟩ <;> simp [decodeWord_store _ hop, decodeStore, f3, h]
  · by_cases hload : opcodeOf w = 0b0000011#7
    · rw [decodeWord_load _ hload, decodeWord_load _ hload]
      exact decodeLoad_narrowMem_irrel _ _ fun h => hl ⟨hload, h⟩
    by_cases hstore : opcodeOf w = 0b0100011#7
    · rw [decodeWord_store _ hstore, decodeWord_store _ hstore]
      exact decodeStore_narrowMem_irrel _ _ fun h => hs ⟨hstore, h⟩
    · exact decodeWord_narrowMem_irrel _ _ hload hstore

/-- Settles O6: no major opcode of R95 is SYSTEM, MISC-MEM or AMO, all end in 11, and OP has no row
with funct7 0000001. -/
theorem otherExtensionsAreNop : Obligations.OtherExtensionsAreNop := by
  unfold Obligations.OtherExtensionsAreNop
  rintro nm w (h | h | h | ⟨hop, h7⟩ | h)
  · exact decodeWord_other nm (by simp [h, majorOpcodes])
  · exact decodeWord_other nm (by simp [h, majorOpcodes])
  · exact decodeWord_other nm (by simp [h, majorOpcodes])
  · simp [decodeWord_op nm hop, decodeOp, h7]
  · have hlow : ∀ op ∈ majorOpcodes, op.extractLsb' 0 2 = 0b11#2 := by decide
    have hop : (opcodeOf w).extractLsb' 0 2 = w.extractLsb' 0 2 :=
      BitVec.extractLsb'_extractLsb'_of_le (by decide)
    exact decodeWord_other nm fun hmem => h (hop ▸ hlow _ hmem)

/-- Settles O7: the decoder run on each word. -/
theorem sampleWordsDecode : Obligations.SampleWordsDecode := by
  unfold Obligations.SampleWordsDecode
  decide

end Sys2Proof
end

section
/-! The immediates as signed numbers (spec/30_encoding.md R93). -/

namespace Sys2Proof.Machine

theorem toNat_field (w : Word) (k n : Nat) : (w.extractLsb' k n).toNat = w.toNat / 2 ^ k % 2 ^ n := by
  rw [BitVec.extractLsb'_toNat, Nat.shiftRight_eq_div_pow]

/-- Bit 31 of a word, as a sign. -/
theorem toInt_signBit (w : Word) : (w.extractLsb' 31 1).toInt = -((w.toNat / 2 ^ 31 : Nat) : Int) := by
  have hw := w.isLt
  rw [BitVec.toInt_eq_toNat_cond, toNat_field]
  omega

/-- A field of a word put below a signed number. -/
theorem toInt_append_field {m : Nat} (hm : m ≠ 0) (x : BitVec m) (w : Word) (k n : Nat) :
    (x ++ w.extractLsb' k n).toInt = 2 ^ n * x.toInt + ((w.toNat / 2 ^ k % 2 ^ n : Nat) : Int) := by
  rw [BitVec.toInt_append, if_neg (by simpa using hm), toNat_field]

/-- An offset is even (R93): it ends in a 0 bit. -/
theorem toInt_append_zero {m : Nat} (hm : m ≠ 0) (x : BitVec m) : (x ++ 0#1).toInt = 2 * x.toInt := by
  rw [BitVec.toInt_append, if_neg (by simpa using hm)]
  simp

/-- A field that ends in bit 31 of the word, as a signed number. -/
theorem toInt_topField (w : Word) {k n : Nat} (h : 31 = k + n) :
    (w.extractLsb' k (1 + n)).toInt =
      2 ^ n * -((w.toNat / 2 ^ 31 : Nat) : Int) + ((w.toNat / 2 ^ k % 2 ^ n : Nat) : Int) := by
  rw [← BitVec.extractLsb'_append_extractLsb'_eq_extractLsb' h, toInt_append_field (by decide),
    toInt_signBit]

/-- Settles O4: each immediate is bit 31 of the word, as its sign, with fields of the word below it. -/
theorem immediateAssembly : Obligations.ImmediateAssembly := by
  unfold Obligations.ImmediateAssembly
  refine fun w => ⟨?_, ?_, ?_, ?_, ?_⟩
  case refine_1 =>
    rw [sext12, BitVec.toInt_signExtend_of_le (by decide)]
    refine (toInt_topField w (n := 11) rfl).trans ?_
    omega
  case refine_2 =>
    rw [sext12, BitVec.toInt_signExtend_of_le (by decide)]
    refine (toInt_append_field (by decide) _ w 7 5).trans ?_
    rw [toInt_topField w (n := 6) rfl]
    omega
  case refine_3 =>
    rw [sext13, BitVec.toInt_signExtend_of_le (by decide)]
    refine (toInt_append_zero (by decide) _).trans ?_
    rw [toInt_append_field (by decide), toInt_append_field (by decide), toInt_append_field (by decide),
      toInt_signBit]
    omega
  case refine_4 =>
    have hw := w.isLt
    rw [upper20, immUOf, BitVec.toNat_shiftLeft, BitVec.toNat_setWidth, toNat_field]
    omega
  case refine_5 =>
    rw [sext21, BitVec.toInt_signExtend_of_le (by decide)]
    refine (toInt_append_zero (by decide) _).trans ?_
    rw [toInt_append_field (by decide), toInt_append_field (by decide), toInt_append_field (by decide),
      toInt_signBit]
    omega

end Sys2Proof.Machine
end

section
/-! The pseudo-instructions (spec/30_encoding.md R113) in the instruction-level reading. -/

namespace Sys2Proof.Machine

open Claims

/-! ## Registers and pc after the three ways an instruction writes them -/

section
variable (a : Arch) (rd : RegIdx) (v : Word)

@[simp] theorem Arch.reg_zero : a.reg 0#5 = 0#32 := RegFile.read_zero a.rf

@[simp] theorem Arch.reg_put_same : (a.put rd v).reg rd = if rd = 0#5 then 0#32 else v := by
  split_ifs with h
  · rw [h, Arch.reg_zero]
  · exact RegFile.read_write_same a.rf v h

theorem Arch.reg_put_other {x : RegIdx} (h : x ≠ rd) : (a.put rd v).reg x = a.reg x :=
  RegFile.read_write_other a.rf v h

theorem Arch.reg_link_same (target : Word) (h : rd ≠ 0#5) :
    (a.link rd target).reg rd = a.pc + 4#32 :=
  RegFile.read_write_same a.rf _ h

theorem Arch.reg_link_other {x : RegIdx} (target : Word) (h : x ≠ rd) :
    (a.link rd target).reg x = a.reg x :=
  RegFile.read_write_other a.rf _ h

@[simp] theorem Arch.reg_link_zero (target : Word) (x : RegIdx) :
    (a.link 0#5 target).reg x = a.reg x := by
  simp [Arch.link, Arch.reg]

@[simp] theorem Arch.put_pc : (a.put rd v).pc = a.pc + 4#32 := rfl

end

/-! ## One or two instructions -/

section
variable {p : Pseudo} {a : Arch} {i j : Instr} {rd : RegIdx} {v : Word}

theorem execAll_one {b : Arch} (hi : Arch.exec i a = .next b) : Arch.execAll [i] a = .next b := by
  simp [Arch.execAll, hi]

theorem execAll_two {b c : Arch} (hi : Arch.exec i a = .next b) (hj : Arch.exec j b = .next c) :
    Arch.execAll [i, j] a = .next c := by
  simp [Arch.execAll, hi, hj]

theorem puts_one (hp : p.expand = [i]) (hi : Arch.exec i a = .next (a.put rd v)) : Puts p a rd v := by
  refine ⟨a.put rd v, ?_, ?_, fun x hx => Arch.reg_put_other a rd v hx, rfl, ?_⟩
  · rw [hp, execAll_one hi]
  · rw [Arch.reg_put_same]
  · simp [hp]

/-- An upper part into rd, then `ADDI rd, rd, lo`. -/
theorem puts_two {u : Word} {lo : BitVec 12} (hp : p.expand = [i, .addi rd rd lo])
    (hi : Arch.exec i a = .next (a.put rd u)) : Puts p a rd (u + lo.signExtend 32) := by
  have hj : Arch.exec (.addi rd rd lo) (a.put rd u) = .next ((a.put rd u).put rd _) := rfl
  have hrun := execAll_two hi hj
  rw [← hp] at hrun
  refine ⟨_, hrun, ?_, fun x hx => ?_, rfl, ?_⟩
  · rw [Arch.reg_put_same, Arch.reg_put_same]
    split_ifs <;> rfl
  · rw [Arch.reg_put_other _ _ _ hx, Arch.reg_put_other _ _ _ hx]
  · simp [hp, BitVec.add_assoc]

/-- A conditional branch, its condition stated in another way. -/
theorem goes_branch {c : Prop} [Decidable c] {b : Bool} {off : BitVec 13} (hp : p.expand = [i])
    (hi : Arch.exec i a = .next (a.branchIf c off)) (hc : c ↔ b = true) :
    Goes p a (if b = true then a.pc + off.signExtend 32 else a.pc + 4#32) none := by
  refine ⟨a.branchIf c off, ?_, ?_, rfl, by simp, fun x _ => rfl⟩
  · rw [hp, execAll_one hi]
  · simp only [Arch.branchIf, hc]

/-- A jump that links into x0 changes no register (R28). -/
theorem goes_jump {target : Word} (hp : p.expand = [i])
    (hi : Arch.exec i a = .next (a.link 0#5 target)) : Goes p a target none := by
  refine ⟨a.link 0#5 target, ?_, rfl, rfl, by simp, fun x _ => ?_⟩
  · rw [hp, execAll_one hi]
  · rw [Arch.reg_link_zero]

theorem goes_link {target : Word} (hp : p.expand = [i]) (hrd : rd ≠ 0#5)
    (hi : Arch.exec i a = .next (a.link rd target)) :
    Goes p a target (some (rd, a.pc + 4#32)) := by
  refine ⟨a.link rd target, ?_, rfl, rfl, ?_, fun x hx => ?_⟩
  · rw [hp, execAll_one hi]
  · rintro r v ⟨⟩
    rw [Arch.reg_link_same _ _ _ hrd]
  · rw [Arch.reg_link_other]
    rintro rfl
    exact hx _ rfl

end

/-! ## A word from its upper and lower part -/

theorem toNat_lowerPart (v : Word) : (lowerPart v).toNat = v.toNat % 4096 := by
  rw [lowerPart, BitVec.extractLsb'_toNat, Nat.shiftRight_zero]

theorem toNat_upperPart (v : Word) :
    (upperPart v).toNat = (v.toNat + 2048) % 4294967296 / 4096 := by
  rw [upperPart, BitVec.extractLsb'_toNat, Nat.shiftRight_eq_div_pow, BitVec.toNat_add,
    BitVec.toNat_ofNat]
  omega

/-- The rounding of the upper part makes up for the sign of the lower part. -/
theorem upper_add_lower (v : Word) :
    (upperPart v ++ 0x000#12) + (lowerPart v).signExtend 32 = v := by
  have hv := v.isLt
  have happ : (upperPart v ++ 0x000#12).toNat = (upperPart v).toNat * 4096 :=
    (BitVec.toNat_append _ _).trans (by simp [Nat.shiftLeft_eq])
  apply BitVec.eq_of_toNat_eq
  rw [BitVec.toNat_add, happ, toNat_upperPart, BitVec.toNat_signExtend, BitVec.msb_eq_decide,
    BitVec.toNat_setWidth, toNat_lowerPart]
  simp only [decide_eq_true_eq]
  split_ifs <;> omega

/-- A value that fits in twelve bits is its lower part. -/
theorem signExtend_lowerPart {v : Word} (h : -2048 ≤ v.toInt ∧ v.toInt ≤ 2047) :
    (lowerPart v).signExtend 32 = v := by
  apply BitVec.eq_of_toInt_eq
  rw [BitVec.toInt_signExtend_of_le (by decide)]
  rw [BitVec.toInt_eq_toNat_cond] at h ⊢
  rw [BitVec.toInt_eq_toNat_cond, toNat_lowerPart]
  omega

/-! ## The expansions -/

theorem puts_li (a : Arch) (rd : RegIdx) (v : Word) : Puts (.li rd v) a rd v := by
  by_cases h : -2048 ≤ v.toInt ∧ v.toInt ≤ 2047
  · refine puts_one (i := .addi rd 0#5 (lowerPart v)) (by rw [Pseudo.expand, if_pos h]) ?_
    simp [Arch.exec, signExtend_lowerPart h]
  · have hputs := puts_two (p := .li rd v) (a := a) (by rw [Pseudo.expand, if_neg h]) rfl
    rwa [upper_add_lower] at hputs

theorem puts_la (a : Arch) (rd : RegIdx) (d : Word) : Puts (.la rd d) a rd (a.pc + d) := by
  have hputs := puts_two (p := .la rd d) (a := a) rfl rfl
  rwa [BitVec.add_assoc, upper_add_lower] at hputs

/-- `AUIPC r, upper` and `JALR rd, lower(r)` go on at the distance `d` from the first of them. -/
theorem execAll_far (a : Arch) (rd : RegIdx) {r : RegIdx} (d : Word) (hr : r ≠ 0#5) :
    Arch.execAll [.auipc r (upperPart d), .jalr rd r (lowerPart d)] a =
      .next ((a.put r (a.pc + (upperPart d ++ 0x000#12))).link rd ((a.pc + d) &&& 0xFFFFFFFE#32)) := by
  refine execAll_two rfl ?_
  rw [Arch.exec, Arch.reg_put_same, if_neg hr, BitVec.add_assoc, upper_add_lower]

theorem goes_call (a : Arch) (d : Word) :
    Goes (.call d) a ((a.pc + d) &&& 0xFFFFFFFE#32) (some (1#5, a.pc + 8#32)) := by
  refine ⟨_, execAll_far a 1#5 d (by decide), rfl, rfl, ?_, fun x hx => ?_⟩
  · rintro r v ⟨⟩
    rw [Arch.reg_link_same _ _ _ (by decide), Arch.put_pc, BitVec.add_assoc]
    rfl
  · have hne : x ≠ 1#5 := by
      rintro rfl
      exact hx _ rfl
    rw [Arch.reg_link_other _ _ _ hne, Arch.reg_put_other _ _ _ hne]

theorem goes_tail (a : Arch) (d : Word) :
    Goes (.tail d) a ((a.pc + d) &&& 0xFFFFFFFE#32)
      (some (6#5, a.pc + (upperPart d ++ 0x000#12))) := by
  refine ⟨_, execAll_far a 0#5 d (by decide), rfl, rfl, ?_, fun x hx => ?_⟩
  · rintro r v ⟨⟩
    rw [Arch.reg_link_zero, Arch.reg_put_same, if_neg (by decide)]
  · have hne : x ≠ 6#5 := by
      rintro rfl
      exact hx _ rfl
    rw [Arch.reg_link_zero, Arch.reg_put_other _ _ _ hne]

theorem puts_value (a : Arch) (rd rs : RegIdx) :
    ∀ c ∈ pseudoValues rd rs, Puts c.1 a rd (c.2 (a.reg rs)) := by
  have hones : (0xFFF#12).signExtend 32 = BitVec.allOnes 32 := by decide
  have hzero : (a.reg rs).toNat < 1 ↔ a.reg rs = 0#32 := by simp [BitVec.toNat_eq]
  have hnonzero : 0 < (a.reg rs).toNat ↔ a.reg rs ≠ 0#32 := by
    simp [BitVec.toNat_eq, Nat.pos_iff_ne_zero]
  simp only [pseudoValues, List.forall_mem_cons]
  refine ⟨puts_one rfl ?mv, puts_one rfl ?not, puts_one rfl ?neg, puts_one rfl ?seqz,
    puts_one rfl ?snez, puts_one rfl ?sltz, puts_one rfl ?sgtz, by simp⟩
  case not => rw [Arch.exec, hones, BitVec.xor_allOnes]
  case seqz => simp [Arch.exec, hzero]
  case snez => simp [Arch.exec, hnonzero]
  all_goals simp [Arch.exec]

theorem goes_condition (a : Arch) (rs rt : RegIdx) (off : BitVec 13) :
    ∀ c ∈ pseudoBranches rs rt off,
      Goes c.1 a (if c.2 (a.reg rs) (a.reg rt) = true then a.pc + off.signExtend 32 else a.pc + 4#32)
        none := by
  intro c hc
  simp only [pseudoBranches, List.mem_cons, List.not_mem_nil, or_false] at hc
  rcases hc with rfl | rfl | rfl | rfl | rfl | rfl | rfl | rfl | rfl | rfl <;>
    exact goes_branch rfl rfl (by simp)

/-- Settles O8: each expansion is one write, branch or jump, or an upper part with the lower part added
to it. -/
theorem pseudoInstructionsDo : Obligations.PseudoInstructionsDo := by
  unfold Obligations.PseudoInstructionsDo
  refine fun a => ⟨?_, ?_, ?_, ?_, ?_, ?_, ?_, ?_, ?_, ?_, ?_, ?_⟩
  · exact puts_one rfl (by simp [Arch.exec])
  · exact puts_li a
  · exact puts_la a
  · exact puts_value a
  · exact goes_condition a
  · exact fun off => goes_jump rfl rfl
  · exact fun off => goes_link rfl (by decide) rfl
  · exact fun rs => goes_jump rfl (by simp [Arch.exec])
  · exact fun rs => goes_link rfl (by decide) (by simp [Arch.exec])
  · exact goes_jump rfl (by simp [Arch.exec])
  · exact goes_call a
  · exact fun d => ⟨_, goes_tail a d⟩

end Sys2Proof.Machine
end

section
/-! The sources an instruction names, and the control fields its payload carries from decode (R98,
R99, R130). -/

namespace Sys2Proof.Machine

/-! ## Sources (R99) -/

/-- Each source that an instruction names is its field of the word, [19:15] or [24:20] (R99). -/
def SourcesInFields (w : Word) (i : Instr) : Prop :=
  ((controlOf i).src1 = none ∨ (controlOf i).src1 = some (rs1Of w)) ∧
  ((controlOf i).src2 = none ∨ (controlOf i).src2 = some (rs2Of w))

theorem sourcesInFields_nop (w : Word) : SourcesInFields w (.nop w) := ⟨.inl rfl, .inl rfl⟩

theorem sourcesInFields_decodeOp (w : Word) : SourcesInFields w (decodeOp w) := by
  simp only [decodeOp]
  split_ifs <;> simp [SourcesInFields, controlOf, rType, nopType]

theorem sourcesInFields_decodeOpImm (w : Word) : SourcesInFields w (decodeOpImm w) := by
  simp only [decodeOpImm]
  split_ifs <;> simp [SourcesInFields, controlOf, iType, nopType]

theorem sourcesInFields_decodeBranch (w : Word) : SourcesInFields w (decodeBranch w) := by
  simp only [decodeBranch]
  split_ifs <;> simp [SourcesInFields, controlOf, branchType, nopType]

theorem sourcesInFields_decodeWord (nm : NarrowMem) (w : Word) :
    SourcesInFields w (decodeWord nm w) := by
  simp only [decodeWord, decodeLoad, decodeStore]
  split_ifs
  · exact sourcesInFields_decodeOp w
  · exact sourcesInFields_decodeOpImm w
  · exact ⟨.inr rfl, .inl rfl⟩
  · exact sourcesInFields_nop w
  · exact ⟨.inr rfl, .inr rfl⟩
  · exact sourcesInFields_nop w
  · exact sourcesInFields_decodeBranch w
  · exact ⟨.inl rfl, .inl rfl⟩
  · exact ⟨.inr rfl, .inl rfl⟩
  · exact sourcesInFields_nop w
  · exact ⟨.inl rfl, .inl rfl⟩
  · exact ⟨.inl rfl, .inl rfl⟩
  · exact sourcesInFields_nop w

section
variable {s : State} {p : FDPayload} {i : Instr} {r : RegIdx}

/-- Under both values of HAZARD_SOURCES decode checks and reads a source the instruction uses
(R99). -/
theorem source1_of_src1 (h : s.decodeHolds p i) (hr : (controlOf i).src1 = some r) :
    source1 s.params.hazardSources (controlOf i) p.inst = some r := by
  have hw := (sourcesInFields_decodeWord s.params.narrowMem p.inst).1
  rw [h.2, hr] at hw
  cases hs : s.params.hazardSources with
  | used => exact hr
  | raw => simpa [source1, eq_comm] using hw

theorem source2_of_src2 (h : s.decodeHolds p i) (hr : (controlOf i).src2 = some r) :
    source2 s.params.hazardSources (controlOf i) p.inst = some r := by
  have hw := (sourcesInFields_decodeWord s.params.narrowMem p.inst).2
  rw [h.2, hr] at hw
  cases hs : s.params.hazardSources with
  | used => exact hr
  | raw => simpa [source2, eq_comm] using hw

end

/-! ## The payload of an instruction (R98, R130) -/

/-- The payload carries the control fields `c`, the pc of `a`, and the values that the sources `c`
uses have in `a`. -/
structure Carries (e : DEPayload) (c : Control) (a : Arch) : Prop where
  dest_eq : e.dest = c.dest
  alu_eq  : e.alu = c.alu
  br_eq   : e.br = c.br
  mem_eq  : e.mem = c.mem
  imm_eq  : e.imm = c.imm
  pc_eq   : e.pc = a.pc
  v1_eq   : ∀ {r}, c.src1 = some r → e.v1 = a.reg r
  v2_eq   : ∀ {r}, c.src2 = some r → e.v2 = a.reg r

/-- What decode issues carries the instruction with its sources as committed (R49, R130). -/
theorem carries_issuePayload {s : State} {p : FDPayload} {i : Instr} (h : s.decodeHolds p i) :
    Carries (issuePayload (controlOf i) p s) (controlOf i) { s.arch with pc := p.pc } where
  dest_eq := rfl
  alu_eq := rfl
  br_eq := rfl
  mem_eq := rfl
  imm_eq := rfl
  pc_eq := rfl
  v1_eq hr := by rw [issuePayload, source1_of_src1 h hr]; rfl
  v2_eq hr := by rw [issuePayload, source2_of_src2 h hr]; rfl

end Sys2Proof.Machine
end

section
/-! The pseudocode of R171 to R235 against the stages: the effect of an instruction is what execute,
memory and write-back make of its payload. -/

namespace Sys2Proof.Machine

/-! ## A payload in execute -/

theorem redirectOf_ordinary {e : DEPayload} (h : e.br = .none) : redirectOf e = none := by
  simp [redirectOf, h, taken]

/-- A branch or JAL goes to pc + imm where it is taken (R143). -/
theorem redirectOf_relative {e : DEPayload} {imm : Word} (hi : e.imm = some imm)
    (h : e.br ≠ .jalr) :
    redirectOf e = if taken e.br e.v1 e.v2 = true then some (e.pc + imm) else none := by
  cases hb : e.br
  case jalr => exact absurd hb h
  all_goals simp [redirectOf, branchTarget, hi, hb]

/-- JALR goes to the source plus the immediate, bit 0 cleared (R143). -/
theorem redirectOf_jalr {e : DEPayload} {imm : Word} (hi : e.imm = some imm) (h : e.br = .jalr) :
    redirectOf e = some ((e.v1 + imm) &&& 0xFFFFFFFE#32) := by
  simp [redirectOf, branchTarget, hi, h, taken]

/-- The address decode goes on from after a payload in execute: its redirect, else pc + 4. -/
def DEPayload.nextPc (e : DEPayload) : Word := (redirectOf e).getD (e.pc + 4#32)

theorem nextPc_ordinary {e : DEPayload} (h : e.br = .none) : e.nextPc = e.pc + 4#32 := by
  rw [DEPayload.nextPc, redirectOf_ordinary h, Option.getD_none]

/-- Every payload but a jump's writes back its ALU result (R144). -/
theorem linkOrResult_of_ne_jump {e : DEPayload} (h1 : e.br ≠ .jal) (h2 : e.br ≠ .jalr) :
    linkOrResult e = aluResult e := by
  cases hb : e.br
  case jal => exact absurd hb h1
  case jalr => exact absurd hb h2
  all_goals simp [linkOrResult, hb]

theorem aluResult_of_imm {e : DEPayload} {v : Word} (h : e.imm = some v) :
    aluResult e = alu e.alu e.v1 v e.pc := by
  simp [aluResult, operand2, h]

theorem aluResult_of_no_imm {e : DEPayload} (h : e.imm = none) :
    aluResult e = alu e.alu e.v1 e.v2 e.pc := by
  simp [aluResult, operand2, h]

/-! ## The rest of a payload's way, carried out at once -/

/-- What execute, memory and write-back make of a payload, carried out on `a`, going on at `pc`. -/
def Arch.finish (a : Arch) (pc : Word) : Option DEPayload → SeqResult
  | none => .next { a with pc := pc }
  | some e =>
    match accessMemory a.params a.dmem (executePayload e) with
    | .error ea => .fault (.dataOutOfBounds ea)
    | .ok (w, st) => .next { a with pc := pc, rf := commitRf a.rf (writeBack (some w)),
                                    dmem := commitDmem a.params a.dmem st }

theorem finish_of_access_error {a : Arch} (pc : Word) {e : DEPayload} {ea : Word}
    (h : accessMemory a.params a.dmem (executePayload e) = .error ea) :
    a.finish pc (some e) = .fault (.dataOutOfBounds ea) := by
  simp [Arch.finish, h]

theorem finish_of_access_ok {a : Arch} (pc : Word) {e : DEPayload}
    {r : MWPayload × Option (Nat × Word)}
    (h : accessMemory a.params a.dmem (executePayload e) = .ok r) :
    a.finish pc (some e) = .next { a with pc := pc, rf := commitRf a.rf (writeBack (some r.1)),
                                          dmem := commitDmem a.params a.dmem r.2 } := by
  simp [Arch.finish, h]

@[simp] theorem commitRf_none (rf : RegFile) : commitRf rf none = rf := rfl

@[simp] theorem commitDmem_none (p : Params) (dm : Memory) : commitDmem p dm none = dm := rfl

@[simp] theorem writeBack_none : writeBack none = none := rfl

@[simp] theorem writeBack_no_dest (v : Word) : writeBack (some { val := v, dest := none }) = none :=
  rfl

@[simp] theorem writeBack_zero (v : Word) :
    writeBack (some { val := v, dest := some 0#5 }) = none := rfl

/-- Write-back of a value with a destination is the register write of R28. -/
@[simp] theorem commitRf_writeBack_some (rf : RegFile) (v : Word) (rd : RegIdx) :
    commitRf rf (writeBack (some { val := v, dest := some rd })) = RegFile.write rf rd v := by
  by_cases h : rd = 0#5 <;> simp [writeBack, commitRf, h]

theorem dataIndex_eq (p : Params) (ea : Word) :
    dataIndex p ea = if ea.toNat / 4 < p.dmemWords then some (ea.toNat / 4) else none := by
  split_ifs with h
  · exact dataIndex_some.mpr ⟨rfl, h⟩
  · exact dataIndex_none.mpr (by omega)

section
variable {e : DEPayload} {a : Arch} {pc : Word} {rd : RegIdx}

theorem finish_write (hm : e.mem = .none) (hd : e.dest = some rd) :
    a.finish pc (some e) =
      .next { a with pc := pc, rf := RegFile.write a.rf rd (linkOrResult e) } := by
  simp [Arch.finish, accessMemory, executePayload, hm, hd]

theorem finish_silent (hm : e.mem = .none) (hd : e.dest = none) :
    a.finish pc (some e) = .next { a with pc := pc } := by
  simp [Arch.finish, accessMemory, executePayload, hm, hd]

/-- A load aborts outside DMem, else it reads the word at its address / 4 (R150, R151). -/
theorem finish_load {ea : Word} (hm : e.mem = .load) (hd : e.dest = some rd)
    (hea : aluResult e = ea) :
    a.finish pc (some e) =
      if ea.toNat / 4 < a.params.dmemWords then
        .next { a with pc := pc,
                       rf := RegFile.write a.rf rd (dmemRead a.params a.dmem (ea.toNat / 4)) }
      else .fault (.dataOutOfBounds ea) := by
  subst hea
  simp only [Arch.finish, accessMemory, executePayload, hm, hd, dataIndex_eq]
  split_ifs <;> simp

theorem finish_store {ea : Word} (hm : e.mem = .store) (hd : e.dest = none)
    (hea : aluResult e = ea) :
    a.finish pc (some e) =
      if ea.toNat / 4 < a.params.dmemWords then
        .next { a with pc := pc, dmem := dmemWrite a.params a.dmem (ea.toNat / 4) e.v2 }
      else .fault (.dataOutOfBounds ea) := by
  subst hea
  simp only [Arch.finish, accessMemory, executePayload, hm, hd, dataIndex_eq]
  split_ifs <;> simp [commitDmem]

end

/-! ## One lemma per row of R98 -/

section
variable {e : DEPayload} {a : Arch} {op : AluOp} {rd r1 r2 : RegIdx} {imm : Word}

/-- An ALU instruction puts its result in its destination and goes on at pc + 4. -/
theorem Carries.finish_alu {c : Control} (h : Carries e c a) (hm : c.mem = .none)
    (hb : c.br = .none) (hd : c.dest = some rd) :
    a.finish e.nextPc (some e) = .next (a.put rd (aluResult e)) := by
  have hbr : e.br = .none := h.br_eq.trans hb
  rw [finish_write (h.mem_eq.trans hm) (h.dest_eq.trans hd), nextPc_ordinary hbr, h.pc_eq,
    linkOrResult_of_ne_jump (by simp [hbr]) (by simp [hbr]), Arch.put]

theorem Carries.finish_rType (h : Carries e (rType op rd r1 r2) a) :
    a.finish e.nextPc (some e) = .next (a.put rd (alu op (a.reg r1) (a.reg r2) a.pc)) := by
  rw [h.finish_alu rfl rfl rfl, aluResult_of_no_imm h.imm_eq, h.alu_eq, h.v1_eq rfl, h.v2_eq rfl,
    h.pc_eq]
  rfl

theorem Carries.finish_iType (h : Carries e (iType op rd r1 imm) a) :
    a.finish e.nextPc (some e) = .next (a.put rd (alu op (a.reg r1) imm a.pc)) := by
  rw [h.finish_alu rfl rfl rfl, aluResult_of_imm h.imm_eq, h.alu_eq, h.v1_eq rfl, h.pc_eq]
  rfl

theorem Carries.finish_uType (h : Carries e (uType op rd imm) a) :
    a.finish e.nextPc (some e) = .next (a.put rd (alu op e.v1 imm a.pc)) := by
  rw [h.finish_alu rfl rfl rfl, aluResult_of_imm h.imm_eq, h.alu_eq, h.pc_eq]
  rfl

theorem Carries.finish_loadType (h : Carries e (loadType rd r1 imm) a) :
    a.finish e.nextPc (some e) =
      if (a.reg r1 + imm).toNat / 4 < a.params.dmemWords then
        .next (a.put rd (dmemRead a.params a.dmem ((a.reg r1 + imm).toNat / 4)))
      else .fault (.dataOutOfBounds (a.reg r1 + imm)) := by
  have hea : aluResult e = a.reg r1 + imm := by
    rw [aluResult_of_imm h.imm_eq, h.alu_eq, h.v1_eq rfl]
    rfl
  rw [finish_load h.mem_eq h.dest_eq hea, nextPc_ordinary h.br_eq, h.pc_eq]
  rfl

theorem Carries.finish_storeType (h : Carries e (storeType r2 r1 imm) a) :
    a.finish e.nextPc (some e) =
      if (a.reg r1 + imm).toNat / 4 < a.params.dmemWords then
        .next { a with dmem := dmemWrite a.params a.dmem ((a.reg r1 + imm).toNat / 4) (a.reg r2),
                       pc := a.pc + 4#32 }
      else .fault (.dataOutOfBounds (a.reg r1 + imm)) := by
  have hea : aluResult e = a.reg r1 + imm := by
    rw [aluResult_of_imm h.imm_eq, h.alu_eq, h.v1_eq rfl]
    rfl
  rw [finish_store h.mem_eq h.dest_eq hea, nextPc_ordinary h.br_eq, h.pc_eq, h.v2_eq rfl]

/-- A conditional branch writes nothing and goes to its target iff its comparison holds (R143). -/
theorem Carries.finish_branchType {k : BrKind} {off : BitVec 13} {cond : Prop} [Decidable cond]
    (h : Carries e (branchType k r1 r2 (sext13 off)) a) (hk : k ≠ .jalr)
    (hc : taken k (a.reg r1) (a.reg r2) = true ↔ cond) :
    a.finish e.nextPc (some e) = .next (a.branchIf cond off) := by
  have hbr : e.br = k := h.br_eq
  have hnext : e.nextPc = if cond then a.pc + off.signExtend 32 else a.pc + 4#32 := by
    rw [DEPayload.nextPc, redirectOf_relative h.imm_eq (hbr ▸ hk), hbr, h.v1_eq rfl, h.v2_eq rfl,
      h.pc_eq]
    simp only [hc]
    split_ifs <;> rfl
  rw [finish_silent h.mem_eq h.dest_eq, hnext, Arch.branchIf]

theorem Carries.finish_jalType (h : Carries e (jalType rd imm) a) :
    a.finish e.nextPc (some e) = .next (a.link rd (a.pc + imm)) := by
  have hbr : e.br = .jal := h.br_eq
  rw [finish_write h.mem_eq h.dest_eq, DEPayload.nextPc, redirectOf_relative h.imm_eq (by simp [hbr]),
    hbr, linkOrResult, hbr, h.pc_eq]
  rfl

theorem Carries.finish_jalrType (h : Carries e (jalrType rd r1 imm) a) :
    a.finish e.nextPc (some e) = .next (a.link rd ((a.reg r1 + imm) &&& 0xFFFFFFFE#32)) := by
  have hbr : e.br = .jalr := h.br_eq
  rw [finish_write h.mem_eq h.dest_eq, DEPayload.nextPc, redirectOf_jalr h.imm_eq hbr,
    linkOrResult, hbr, h.pc_eq, h.v1_eq rfl]
  rfl

theorem Carries.finish_nopType (h : Carries e nopType a) :
    a.finish e.nextPc (some e) = .next { a with pc := a.pc + 4#32 } := by
  rw [finish_silent h.mem_eq h.dest_eq, nextPc_ordinary h.br_eq, h.pc_eq]

end

/-! ## Every instruction -/

/-- A shift uses the low five bits of operand 2 (R142). -/
theorem toNat_shiftAmount (v : Word) : (v.extractLsb' 0 5).toNat = v.toNat % 32 := by
  simp [BitVec.extractLsb'_toNat]

/-- The low five bits of a shift's immediate are its shift amount (R94). -/
theorem shiftAmount_shiftImm (f7 : BitVec 7) (sh : BitVec 5) :
    (shiftImm f7 sh).extractLsb' 0 5 = sh := by
  have hlow : (shiftImm f7 sh).extractLsb' 0 5 = (f7 ++ sh).extractLsb' 0 5 := by
    ext k hk
    have hk32 : 0 + k < 32 := by omega
    rw [BitVec.getElem_extractLsb', BitVec.getElem_extractLsb', shiftImm, BitVec.getLsbD_signExtend,
      if_pos (by omega), decide_eq_true hk32, Bool.true_and]
  rw [hlow, BitVec.extractLsb'_append_eq_right]

/-- The U immediate is the 20 bits over twelve zeros (R93). -/
theorem upper20_eq_append (imm : BitVec 20) : upper20 imm = imm ++ 0x000#12 := by
  have happ : (imm ++ 0x000#12).toNat = imm.toNat * 4096 :=
    (BitVec.toNat_append _ _).trans (by simp [Nat.shiftLeft_eq])
  apply BitVec.eq_of_toNat_eq
  rw [happ, upper20, BitVec.toNat_shiftLeft, BitVec.toNat_setWidth, Nat.shiftLeft_eq]
  omega

theorem boolWord_decide (c : Prop) [Decidable c] :
    boolWord (decide c) = if c then 1#32 else 0#32 := by
  simp [boolWord]

theorem toInt_sext12 (imm : BitVec 12) : (sext12 imm).toInt = imm.toInt :=
  BitVec.toInt_signExtend_of_le (by decide)

/-- The pseudocode of an instruction is what the later stages make of its payload, and the pc it
leaves is the redirect of that payload, else pc + 4. -/
theorem exec_eq_finish {e : DEPayload} {i : Instr} {a : Arch} (h : Carries e (controlOf i) a) :
    Arch.exec i a = a.finish e.nextPc (some e) := by
  cases i
  case add | sub | xor | or | and => exact h.finish_rType.symm
  case sll | srl | sra => rw [h.finish_rType, alu, toNat_shiftAmount, Arch.exec]
  case slt => rw [h.finish_rType, alu, signedLess, boolWord_decide, Arch.exec]
  case sltu => rw [h.finish_rType, alu, unsignedLess, boolWord_decide, Arch.exec]
  case addi | xori | ori | andi => exact h.finish_iType.symm
  case slti => rw [h.finish_iType, alu, signedLess, boolWord_decide, toInt_sext12, Arch.exec]
  case sltiu => rw [h.finish_iType, alu, unsignedLess, boolWord_decide, sext12, Arch.exec]
  case slli | srli | srai => rw [h.finish_iType, alu, shiftAmount_shiftImm, Arch.exec]
  case lw => exact h.finish_loadType.symm
  case sw => exact h.finish_storeType.symm
  case beq | bne | blt | bge | bltu | bgeu =>
    exact (h.finish_branchType (by decide) (by simp [taken, signedLess, unsignedLess])).symm
  case jal => exact h.finish_jalType.symm
  case jalr => exact h.finish_jalrType.symm
  case lui | auipc => rw [h.finish_uType, alu, upper20_eq_append, Arch.exec]
  case nop => exact h.finish_nopType.symm

end Sys2Proof.Machine
end

section
/-! The state that the issued instructions lead to, over one cycle (R161, R164). -/

namespace Sys2Proof.Machine

open Sys2Proof.Claims

/-! ## What one step leaves for the next -/

/-- The good states are kept by every step. -/
theorem goodState_step {s t : State} (hs : GoodState s) (h : step s = .next t) : GoodState t := by
  obtain ⟨hboard, hcomp⟩ := stepKeepsScoreboardExact s t hs.interlock hs.scoreboard hs.completion h
  have hparams : t.params = s.params := by
    obtain ⟨m, f, -, -, rfl⟩ := step_next.mp h
    rfl
  exact ⟨hparams ▸ hs.interlock, stepKeepsPipelineInv s t hs.pipeline h, hboard, hcomp⟩

/-- What decode holds back or has not got, it does not issue. -/
theorem issued_none {s : State} :
    s.issued = none ↔ s.candidate = none ∨ s.hazardStall = true := by
  cases hc : s.candidate with
  | none => simp [State.issued, hc]
  | some p => simp [State.issued, State.hazardStall, hc]

theorem hazardStall_of_holds {s : State} {p : FDPayload} {i : Instr} (h : s.decodeHolds p i) :
    s.hazardStall = hazard (controlOf i) p s := by
  simp [State.hazardStall, h.1, candidateControl, h.2]

theorem decodeOut_of_held {s : State} (h : s.hazardStall = true) :
    ∃ p, s.candidate = some p ∧
      s.decodeOut = { stall := true, de := none, saved := some p, sb := s.released } := by
  cases hc : s.candidate with
  | none => simp [State.hazardStall, hc] at h
  | some p =>
    have hz : hazard (candidateControl s p) p s = true := by simpa [State.hazardStall, hc] using h
    exact ⟨p, rfl, (decodeOut_of_holds ⟨hc, rfl⟩).trans (decodeStage_held hz)⟩

theorem decodeOut_of_issue {s : State} {p : FDPayload} {i : Instr} (h : s.decodeHolds p i)
    (hz : hazard (controlOf i) p s = false) :
    s.decodeOut = { stall := (controlOf i).br != .none, de := some (issuePayload (controlOf i) p s),
                    saved := none, sb := lockDest s.released (controlOf i).dest } :=
  (decodeOut_of_holds h).trans (decodeStage_issues hz)

theorem step_de {s t : State} (h : step s = .next t) : t.de = s.decodeOut.de := by
  obtain ⟨m, f, -, -, rfl⟩ := step_next.mp h
  rfl

theorem de_of_no_issue {s t : State} (h : step s = .next t) (hi : s.issued = none) :
    t.de = none := by
  rw [step_de h]
  rcases issued_none.mp hi with hc | hz
  · rw [decodeOut_nothing hc, decodeNothing]
  · obtain ⟨p, -, hd⟩ := decodeOut_of_held hz
    rw [hd]

/-! ## The address of the next instruction to issue -/

theorem redirectWire_none_of_de {s : State} (h : s.de = none) : s.redirectWire = none := by
  simp [State.redirectWire, h]

theorem nextIssuePc_redirect {s : State} {a : Word} (h : s.redirectWire = some a) :
    s.nextIssuePc = a := by simp [State.nextIssuePc, h]

theorem nextIssuePc_candidate {s : State} {p : FDPayload} (h : s.redirectWire = none)
    (hc : s.candidate = some p) : s.nextIssuePc = p.pc := by simp [State.nextIssuePc, h, hc]

theorem nextIssuePc_empty {s : State} (h : s.redirectWire = none) (hc : s.candidate = none) :
    s.nextIssuePc = s.pc := by simp [State.nextIssuePc, h, hc]

/-- A cycle that issues nothing leaves the address of the next instruction to issue as it is. -/
theorem nextIssuePc_of_no_issue {s t : State} (hs : PipelineInv s) (h : step s = .next t)
    (hi : s.issued = none) : t.nextIssuePc = s.nextIssuePc := by
  obtain ⟨m, f, -, hf, rfl⟩ := step_next.mp h
  unfold State.stallWire at hf
  rcases issued_none.mp hi with hc | hz
  · rw [decodeOut_nothing hc] at hf ⊢
    have hnone : (commit (decodeNothing s) f m s).redirectWire = none := redirectWire_none_of_de rfl
    have hfd : (commit (decodeNothing s) f m s).candidate = f.2 := rfl
    rcases fetchStage_ok hf with ⟨a, ha, rfl⟩ | ⟨-, hstall, -⟩ | ⟨hr, -, i, -, rfl⟩
    · rw [nextIssuePc_empty hnone hfd, nextIssuePc_redirect ha, commit_pc]
    · cases hstall
    · rw [nextIssuePc_candidate hnone hfd, nextIssuePc_empty hr hc]
  · obtain ⟨p, hc, hd⟩ := decodeOut_of_held hz
    have hr := hs.redirectWire_none hc
    rw [nextIssuePc_candidate hr hc]
    exact nextIssuePc_candidate (redirectWire_none_of_de (by simp [hd]))
      (candidate_saved (by simp [hd]))

/-- A cycle that issues an instruction goes on at its redirect, else behind it. -/
theorem nextIssuePc_of_issue {s t : State} {p : FDPayload} {i : Instr} (h : step s = .next t)
    (hr : s.redirectWire = none) (hpc : s.pc = p.pc + 4#32) (hp : s.decodeHolds p i)
    (hz : hazard (controlOf i) p s = false) :
    t.nextIssuePc = (issuePayload (controlOf i) p s).nextPc := by
  obtain ⟨m, f, -, hf, rfl⟩ := step_next.mp h
  have hd := decodeOut_of_issue hp hz
  rw [State.stallWire, hd] at hf
  have hwire : (commit s.decodeOut f m s).redirectWire =
      redirectOf (issuePayload (controlOf i) p s) := by simp [State.redirectWire, hd]
  have hcand : (commit s.decodeOut f m s).candidate = f.2 := by simp [State.candidate, hd]
  cases ht : redirectOf (issuePayload (controlOf i) p s) with
  | some a => rw [nextIssuePc_redirect (hwire.trans ht), DEPayload.nextPc, ht, Option.getD_some]
  | none =>
    rw [DEPayload.nextPc, ht, Option.getD_none]
    rcases fetchStage_ok hf with ⟨a, ha, -⟩ | ⟨-, -, rfl⟩ | ⟨-, -, j, -, rfl⟩
    · simp [hr] at ha
    · rw [nextIssuePc_empty (hwire.trans ht) hcand]
      exact hpc
    · rw [nextIssuePc_candidate (hwire.trans ht) hcand]
      exact hpc

/-! ## The drained state -/

/-- The architecture with the payloads in write-back and memory carried out, the memory stage's
answer being `m`. -/
def State.settled (s : State) (m : Option MWPayload × Option (Nat × Word)) : Arch :=
  { s.arch with rf := commitRf (commitRf s.rf (writeBack s.mw)) (writeBack m.1)
                dmem := commitDmem s.params s.dmem m.2 }

theorem drain_of_memory_ok {s : State} {m : Option MWPayload × Option (Nat × Word)}
    (h : memoryStage s = .ok m) : s.drain = (s.settled m).finish s.nextIssuePc s.de := by
  obtain ⟨w, st⟩ := m
  cases hd : s.de with
  | none => simp [State.drain, h, hd, Arch.finish, State.settled, State.arch]
  | some e =>
    cases ha : accessMemory s.params (commitDmem s.params s.dmem st) (executePayload e) <;>
      simp [State.drain, h, hd, ha, Arch.finish, State.settled, State.arch]

theorem drain_of_memory_error {s : State} {ea : Word} (h : memoryStage s = .error ea) :
    s.drain = .fault (.dataOutOfBounds ea) := by
  simp [State.drain, h]

/-- A cycle carries out what settles in it: the payload in execute is the one the next memory stage
works on. -/
theorem drain_step {s t : State} (h : step s = .next t) :
    s.drain = match memoryStage t with
      | .error ea => .fault (.dataOutOfBounds ea)
      | .ok m => .next { t.settled m with pc := s.nextIssuePc } := by
  obtain ⟨⟨w, st⟩, f, hm, -, rfl⟩ := step_next.mp h
  rw [drain_of_memory_ok hm]
  cases hd : s.de with
  | none => simp [memoryStage, hd, Arch.finish, State.settled, State.arch]
  | some e =>
    cases ha : accessMemory s.params (commitDmem s.params s.dmem st) (executePayload e) <;>
      simp [memoryStage, hd, ha, Arch.finish, State.settled, State.arch]

/-- The drained state keeps IMEM and the parameters, and its pc is the next to issue. -/
theorem drain_next {s : State} {a : Arch} (h : s.drain = .next a) :
    a.params = s.params ∧ a.imem = s.imem ∧ a.pc = s.nextIssuePc := by
  cases hm : memoryStage s with
  | error ea => simp [drain_of_memory_error hm] at h
  | ok m =>
    rw [drain_of_memory_ok hm] at h
    cases hd : s.de with
    | none =>
      rw [hd, Arch.finish] at h
      cases h
      exact ⟨rfl, rfl, rfl⟩
    | some e =>
      rw [hd, Arch.finish] at h
      split at h <;> cases h
      exact ⟨rfl, rfl, rfl⟩

/-- The instruction in decode is the one that the drained state reads at its pc (R161). -/
theorem drain_reads {s : State} {p : FDPayload} {i : Instr} {a : Arch} (hs : PipelineInv s)
    (hp : s.decodeHolds p i) (h : s.drain = .next a) :
    a.pc = p.pc ∧ ∃ j, fetchIndex a.params a.pc = .ok j ∧
      decodeWord a.params.narrowMem (imemRead a.imem j) = i := by
  obtain ⟨hparams, himem, hpc⟩ := drain_next h
  obtain ⟨-, j, hj, hinst⟩ := hs.fetchPath.1 p hp.1
  rw [nextIssuePc_candidate (hs.redirectWire_none hp.1) hp.1] at hpc
  refine ⟨hpc, j, ?_, ?_⟩
  · rw [hparams, hpc, hj]
  · rw [hparams, himem, ← hinst, hp.2]

theorem arch_step_of_reads {a : Arch} {i : Instr} {j : Nat} (hj : fetchIndex a.params a.pc = .ok j)
    (hi : decodeWord a.params.narrowMem (imemRead a.imem j) = i) : a.step = Arch.exec i a := by
  simp [Arch.step, hj, hi]

/-! ## Values in flight -/

/-- A register is locked at decode iff an instruction that has not completed writes it (R44, R128). -/
theorem locked_iff_unfinished {s : State} (hs : ScoreboardExact s) (hcomp : CompletionReal s)
    (r : RegIdx) : locked s.released r = true ↔ r ∈ unfinished s := by
  obtain ⟨hone, hbit⟩ := released_exact hs hcomp r
  rw [← List.count_pos_iff]
  by_cases h0 : r = 0#5
  · simp [h0, unfinished, List.count_append, count_realDest]
  · have hlock : locked s.released r = s.released.getLsbD r.toNat := by simp [locked, h0]
    rw [hlock, hbit]
    omega

/-- What decode issues reads no register that an instruction in flight still has to write (R128). -/
theorem source_not_unfinished {s : State} (hs : GoodState s) {p : FDPayload} {i : Instr}
    {r : RegIdx} (hp : s.decodeHolds p i) (hz : hazard (controlOf i) p s = false)
    (hr : (controlOf i).src1 = some r ∨ (controlOf i).src2 = some r) : r ∉ unfinished s := by
  rw [← locked_iff_unfinished hs.scoreboard hs.completion, Bool.not_eq_true]
  simp only [hazard, Bool.or_eq_false_iff] at hz
  obtain ⟨⟨h1, h2⟩, -⟩ := hz
  rcases hr with hr | hr
  · rwa [source1_of_src1 hp hr] at h1
  · rwa [source2_of_src2 hp hr] at h2

/-- Write-back changes no register but a destination other than register 0 (R155). -/
theorem read_commitRf_of_not_dest (rf : RegFile) {mw : Option MWPayload} {r : RegIdx}
    (h : r ∉ realDest (mw.bind (·.dest))) :
    RegFile.read (commitRf rf (writeBack mw)) r = RegFile.read rf r := by
  by_cases h0 : r = 0#5
  · simp [h0]
  · refine read_commitRf_writeBack rf fun v hv => h ?_
    simp [hv, realDest, h0]

/-- A register that no instruction in flight has to write reads, once they are carried out, as it
does now. -/
theorem reg_settled_step {s t : State} (h : step s = .next t)
    {m : Option MWPayload × Option (Nat × Word)} (hm : memoryStage t = .ok m) {r : RegIdx}
    (hr : r ∉ unfinished s) : (t.settled m).reg r = s.readReg r := by
  obtain ⟨n, f, hn, -, rfl⟩ := step_next.mp h
  have hde : m.1.bind (·.dest) = s.de.bind (·.dest) := by
    rw [memoryStage_dest hm, commit_em]
    cases s.de <;> rfl
  have hem : n.1.bind (·.dest) = s.em.bind (·.dest) := memoryStage_dest hn
  simp only [unfinished, List.mem_append, not_or, ← hde, ← hem] at hr
  obtain ⟨⟨hm1, hn1⟩, hmw⟩ := hr
  exact (read_commitRf_of_not_dest _ hm1).trans <|
    (read_commitRf_of_not_dest _ hn1).trans (read_commitRf_of_not_dest _ hmw)

theorem Carries.congr {e : DEPayload} {c : Control} {a b : Arch} (h : Carries e c a)
    (hpc : b.pc = a.pc) (hreg : ∀ {r}, c.src1 = some r ∨ c.src2 = some r → b.reg r = a.reg r) :
    Carries e c b where
  dest_eq := h.dest_eq
  alu_eq := h.alu_eq
  br_eq := h.br_eq
  mem_eq := h.mem_eq
  imm_eq := h.imm_eq
  pc_eq := h.pc_eq.trans hpc.symm
  v1_eq hr := (h.v1_eq hr).trans (hreg (.inl hr)).symm
  v2_eq hr := (h.v2_eq hr).trans (hreg (.inr hr)).symm

/-! ## One cycle against the sequential reading (R164) -/

/-- A cycle that issues nothing leaves the drained state as it is. -/
theorem drain_of_no_issue {s t : State} (hs : PipelineInv s) (h : step s = .next t)
    (hi : s.issued = none) : t.drain = s.drain := by
  rw [drain_step h, ← nextIssuePc_of_no_issue hs h hi]
  cases hm : memoryStage t with
  | error ea => rw [drain_of_memory_error hm]
  | ok m => rw [drain_of_memory_ok hm, de_of_no_issue h hi, Arch.finish]

/-- A cycle that issues an instruction moves the drained state by it. -/
theorem drain_of_issue {s t : State} {i : Instr} (hs : GoodState s) (h : step s = .next t)
    (hi : s.issued = some i) : t.drain = thenStep s.drain := by
  obtain ⟨p, hp, hz⟩ := issued_some.mp hi
  have hr := hs.pipeline.redirectWire_none hp.1
  have hde : t.de = some (issuePayload (controlOf i) p s) := by
    rw [step_de h, decodeOut_of_issue hp hz]
  have hdrain := drain_step h
  cases hm : memoryStage t with
  | error ea =>
    rw [hm] at hdrain
    rw [drain_of_memory_error hm, hdrain, thenStep]
  | ok m =>
    rw [hm] at hdrain
    obtain ⟨hpc, j, hj, hdec⟩ := drain_reads hs.pipeline hp hdrain
    have hcarries := (carries_issuePayload hp).congr
      (b := { t.settled m with pc := s.nextIssuePc }) hpc
      fun hsrc => reg_settled_step h hm (source_not_unfinished hs hp hz hsrc)
    rw [hdrain, thenStep, arch_step_of_reads hj hdec, exec_eq_finish hcarries,
      drain_of_memory_ok hm, hde, nextIssuePc_of_issue h hr (hs.pipeline.fetchPath.1 p hp.1).1 hp hz]
    rfl

/-- Settles O52: the payload issued is carried out after everything in flight, and reads no register
that is still to be written. -/
theorem cycleRefinesSequential : Obligations.CycleRefinesSequential := by
  unfold Obligations.CycleRefinesSequential
  intro s t hs h
  refine ⟨drain_of_no_issue hs.pipeline h, fun i hi => ⟨drain_of_issue hs h hi, fun a ha => ?_⟩⟩
  obtain ⟨p, hp, -⟩ := issued_some.mp hi
  exact (drain_reads hs.pipeline hp ha).2

end Sys2Proof.Machine
end

section
/-! Decode, cycle by cycle (R122 to R134). -/

namespace Sys2Proof.Machine

open Sys2Proof.Claims

/-! ## What decode holds, and the hazard -/

/-- Settles O9: `step` dispatches on the word in decode, and every meaning is the cycle of its row of
R98. -/
theorem stepRunsDecodedInstruction : Obligations.StepRunsDecodedInstruction := by
  unfold Obligations.StepRunsDecodedInstruction
  refine fun s => ⟨fun p i hp => ⟨step_of_holds hp, exec_of_candidate i hp.1⟩, fun hc => ?_,
    fun t p _ hfd hsaved => ?_⟩
  · rw [step_eq_cycle, decodeOut_nothing hc]
  · rw [candidate_fd hsaved, hfd]

theorem decodeOut_saved {s : State} {p : FDPayload} (h : s.decodeOut.saved = some p) :
    s.candidate = some p ∧ s.hazardStall = true := by
  rcases decodeOut_cases s with ⟨-, hd⟩ | ⟨q, hc, hz, hd⟩ | ⟨q, -, -, hd⟩ <;> rw [hd] at h
  · cases h
  · cases h
    exact ⟨hc, by simpa [State.hazardStall, hc] using hz⟩
  · cases h

/-- Settles O10, by decode's three cases: only a held instruction is saved. -/
theorem savedPayloadFirst : Obligations.SavedPayloadFirst := by
  unfold Obligations.SavedPayloadFirst
  intro s t h
  obtain ⟨m, f, -, -, rfl⟩ := step_next.mp h
  refine ⟨fun p => candidate_saved, candidate_fd, fun hsaved hfd => ?_, fun p => decodeOut_saved⟩
  have hd := decodeOut_nothing (candidate_none.mpr ⟨hsaved, hfd⟩)
  simp [State.stallWire, hd, decodeNothing]

/-- A register is locked at decode iff it was locked and is not completed in this cycle (R125,
R128). -/
theorem locked_released {s : State} {r : RegIdx} :
    locked s.released r = true ↔ r ≠ 0#5 ∧ s.sb.getLsbD r.toNat = true ∧ s.wbc ≠ some r := by
  simp [locked, released_bit]

theorem lockedOpt_eq_true {sb : BitVec 32} {o : Option RegIdx} :
    lockedOpt sb o = true ↔ ∃ r, o = some r ∧ locked sb r = true := by
  cases o <;> simp [lockedOpt]

/-- The hazard condition of R128: a register decode checks is locked. -/
theorem hazard_eq_true {c : Control} {p : FDPayload} {s : State} :
    hazard c p s = true ↔ ∃ r, locked s.released r = true ∧
      ((source1 s.params.hazardSources c p.inst = some r ∨
          source2 s.params.hazardSources c p.inst = some r) ∨
        s.params.wawInterlock = true ∧ c.dest = some r) := by
  simp only [hazard, Bool.or_eq_true, Bool.and_eq_true, lockedOpt_eq_true]
  constructor
  · rintro ((⟨r, hr, hl⟩ | ⟨r, hr, hl⟩) | ⟨hw, r, hr, hl⟩)
    · exact ⟨r, hl, .inl (.inl hr)⟩
    · exact ⟨r, hl, .inl (.inr hr)⟩
    · exact ⟨r, hl, .inr ⟨hw, hr⟩⟩
  · rintro ⟨r, hl, (hr | hr) | ⟨hw, hr⟩⟩
    · exact .inl (.inl ⟨r, hr, hl⟩)
    · exact .inl (.inr ⟨r, hr, hl⟩)
    · exact .inr ⟨hw, r, hr, hl⟩

/-- Settles O11: the hazard condition with the lock and the source fields written out. -/
theorem hazardCondition : Obligations.HazardCondition := by
  unfold Obligations.HazardCondition
  intro s p i hp
  rw [hazardStall_of_holds hp, hazard_eq_true]
  simp only [locked_released, and_assoc]
  cases hs : s.params.hazardSources <;> simp [source1, source2]

/-- Settles O12: the fetch of a stalled cycle with no redirect holds the PC and cannot abort. -/
theorem hazardStallHolds : Obligations.HazardStallHolds := by
  unfold Obligations.HazardStallHolds
  rintro s p i hp hz ⟨m, hm⟩ hr
  obtain ⟨q, hq, hd⟩ := decodeOut_of_held hz
  obtain rfl : p = q := by simpa [hp.1] using hq
  have hstall : s.stallWire = true := by simp [State.stallWire, hd]
  have hf : fetchStage s.stallWire s.redirectWire s = .ok (s.pc, none) := by
    simp [fetchStage, hstall, hr]
  rw [← step_of_holds hp]
  exact ⟨_, step_next.mpr ⟨m, _, hm, hf, rfl⟩, by simp [hd], by simp [hd], hstall, by simp [hd], rfl,
    rfl⟩

/-! ## Issue -/

/-- The destination issued in a cycle is that of the instruction issued. -/
theorem issuedDest_eq (s : State) : s.issuedDest = s.issued.bind destOf := by
  cases hi : s.issued with
  | none =>
    rcases issued_none.mp hi with hc | hz
    · simp [State.issuedDest, decodeOut_nothing hc, decodeNothing]
    · obtain ⟨p, -, hd⟩ := decodeOut_of_held hz
      simp [State.issuedDest, hd]
  | some i =>
    obtain ⟨p, hp, hz⟩ := issued_some.mp hi
    simp [State.issuedDest, decodeOut_of_issue hp hz, issuePayload, destOf]

/-- Settles O14: the release, then the lock of the issued destination. -/
theorem scoreboardUpdate : Obligations.ScoreboardUpdate := by
  unfold Obligations.ScoreboardUpdate
  intro s t h r
  rw [step_sb h, decodeOut_sb_bit, released_bit, issuedDest_eq]
  simp only [Bool.or_eq_true, Bool.and_eq_true, bne_iff_ne, beq_iff_eq, Option.bind_eq_some_iff,
    Bool.not_eq_true', beq_eq_false_iff_ne]
  constructor
  · rintro (hold | ⟨h0, i, hi, hd⟩)
    · exact .inr hold
    · exact .inl ⟨i, hi, hd, h0⟩
  · rintro (⟨i, hi, hd, h0⟩ | hold)
    · exact .inr ⟨h0, i, hi, hd⟩
    · exact .inl hold

/-- Settles O13: the issued payload carries the instruction, and the lock of its destination is set
last. -/
theorem issueWritesPayload : Obligations.IssueWritesPayload := by
  unfold Obligations.IssueWritesPayload
  rintro s p i ⟨hp, hz, ⟨m, hm⟩, f, hf⟩
  have hd := decodeOut_of_issue hp hz
  have hstep : step s = .next (commit s.decodeOut f m s) := step_next.mpr ⟨m, f, hm, hf, rfl⟩
  have hc := carries_issuePayload hp
  refine ⟨_, issuePayload (controlOf i) p s, step_of_holds hp ▸ hstep, by simp [hd], by simp [hd],
    hc.dest_eq, hc.alu_eq, hc.br_eq, hc.mem_eq, hc.imm_eq, hc.pc_eq, fun r => hc.v1_eq,
    fun r => hc.v2_eq, fun rd hrd h0 => ?_, by simp [State.stallWire, hd]⟩
  exact (scoreboardUpdate s _ hstep rd).mpr (.inl ⟨i, issued_some.mpr ⟨p, hp, hz⟩, hrd, h0⟩)

/-! ## Fetch -/

/-- Settles O15: fetch's three cases. -/
theorem fetchPriority : Obligations.FetchPriority := by
  unfold Obligations.FetchPriority
  intro s t h
  obtain ⟨m, f, -, hf, rfl⟩ := step_next.mp h
  rcases fetchStage_ok hf with ⟨a, hr, rfl⟩ | ⟨hr, hstall, rfl⟩ | ⟨hr, hstall, i, hi, rfl⟩
  · simp [hr]
  · simp [hr, hstall]
  · exact ⟨by simp [hr], by simp [hstall], fun _ _ => ⟨rfl, i, hi, rfl⟩⟩

/-- Settles O16: fetch looks at the redirect first and reads nothing. -/
theorem redirectDominatesStall : Obligations.RedirectDominatesStall := by
  unfold Obligations.RedirectDominatesStall
  rintro s a hr - ⟨m, hm⟩
  have hf : fetchStage s.stallWire s.redirectWire s = .ok (a, none) := by simp [fetchStage, hr]
  exact ⟨_, step_next.mpr ⟨m, _, hm, hf, rfl⟩, rfl, rfl⟩

/-- Settles O44: with a redirect decode holds nothing, and so asserts no stall. -/
theorem stallRedirectExclusive : Obligations.StallRedirectExclusive := by
  unfold Obligations.StallRedirectExclusive
  intro s hs hr
  cases hc : s.candidate with
  | none => simp [State.stallWire, decodeOut_nothing hc, decodeNothing]
  | some p => exact absurd (hs.redirectWire_none hc) hr

end Sys2Proof.Machine
end

section
/-! Execute, memory and write-back, cycle by cycle (R140 to R156). -/

namespace Sys2Proof.Machine

open Sys2Proof.Claims

/-! ## Execute -/

/-- Settles O17: execute's payload, field by field. -/
theorem executeStageOutput : Obligations.ExecuteStageOutput := by
  unfold Obligations.ExecuteStageOutput
  intro s t h
  obtain ⟨m, f, -, -, rfl⟩ := step_next.mp h
  refine ⟨fun hde => ⟨by simp [hde], redirectWire_none_of_de hde⟩, fun e he => ?_⟩
  refine ⟨executePayload e, by simp [he], rfl, rfl, rfl, fun i => aluResult_of_imm,
    aluResult_of_no_imm, ?_, linkOrResult_of_ne_jump⟩
  rintro (hb | hb) <;> simp [executePayload, linkOrResult, hb]

theorem toNat_boolWord (b : Bool) : (boolWord b).toNat = if b = true then 1 else 0 := by
  cases b <;> rfl

/-- Settles O18: each operation of the ALU by the integer value of its result. -/
theorem aluArithmetic : Obligations.AluArithmetic := by
  unfold Obligations.AluArithmetic
  intro a b pc
  have hshift := toNat_shiftAmount b
  have ha := a.isLt
  have hb := b.isLt
  refine ⟨?_, ?_, ?_, ?_, ?_, ?_, ?_, ?_, ?_, ?_, ?_, ?_⟩
  · exact BitVec.toNat_add a b
  · rw [alu, BitVec.toNat_sub]
    omega
  · exact fun k => BitVec.getLsbD_and
  · exact fun k => BitVec.getLsbD_or
  · exact fun k => BitVec.getLsbD_xor
  · rw [alu, hshift, BitVec.toNat_shiftLeft, Nat.shiftLeft_eq]
  · rw [alu, hshift, BitVec.toNat_ushiftRight, Nat.shiftRight_eq_div_pow]
  · rw [alu, hshift, BitVec.toInt_sshiftRight, Int.shiftRight_eq_div_pow]
    rfl
  · simp [alu, toNat_boolWord, signedLess]
  · simp [alu, toNat_boolWord, unsignedLess]
  · rfl
  · exact BitVec.toNat_add pc b

/-- The redirect wire with a payload in execute is what that payload drives (R143). -/
theorem redirectWire_of_de {s : State} {e : DEPayload} (h : s.de = some e) :
    s.redirectWire = redirectOf e := by
  simp [State.redirectWire, h]

/-- Settles O19: JALR has its own target; every other kind goes to pc + imm where it is taken. -/
theorem redirectResolution : Obligations.RedirectResolution := by
  unfold Obligations.RedirectResolution
  intro s e imm he hi
  have relative {k : BrKind} (hb : e.br = k) (hk : k ≠ .jalr) : redirectOf e =
      if taken k e.v1 e.v2 = true then some (e.pc + imm) else none := by
    rw [redirectOf_relative hi (hb ▸ hk), hb]
  rw [redirectWire_of_de he]
  refine ⟨redirectOf_ordinary, fun hb => ?beq, fun hb => ?bne, fun hb => ?blt, fun hb => ?bge,
    fun hb => ?bltu, fun hb => ?bgeu, fun hb => ?jal, redirectOf_jalr hi⟩
  all_goals
    rw [relative hb (by decide)]
    simp [taken, signedLess, unsignedLess]

/-! ## Memory -/

theorem memoryStage_ok_some {s : State} {m : EMPayload} {w : Option MWPayload}
    {st : Option (Nat × Word)} (hem : s.em = some m) (h : memoryStage s = .ok (w, st)) :
    ∃ w', w = some w' ∧ accessMemory s.params s.dmem m = .ok (w', st) := by
  rw [memoryStage_some hem] at h
  cases ha : accessMemory s.params s.dmem m with
  | error ea => simp [ha] at h
  | ok r =>
    simp only [ha, Except.ok.injEq, Prod.mk.injEq] at h
    obtain ⟨rfl, rfl⟩ := h
    exact ⟨r.1, rfl, rfl⟩

/-- Settles O20, by the memory stage's cases on its payload. -/
theorem memoryStageAccess : Obligations.MemoryStageAccess := by
  unfold Obligations.MemoryStageAccess
  intro s t h
  obtain ⟨⟨w, st⟩, f, hm, -, rfl⟩ := step_next.mp h
  refine ⟨fun hem => ?_, fun m hem => ?_⟩
  · cases (memoryStage_none hem).symm.trans hm
    exact ⟨rfl, rfl⟩
  · obtain ⟨w', rfl, ha⟩ := memoryStage_ok_some hem hm
    obtain ⟨hdest, hcases⟩ := accessMemory_ok ha
    rcases hcases with ⟨hk, hval, rfl⟩ | ⟨hk, i, hi, hval, rfl⟩ | ⟨hk, i, hi, hval, rfl⟩
    · exact ⟨w', rfl, hdest, fun _ => ⟨hval, rfl⟩, by simp [hk], by simp [hk]⟩
    · rw [(dataIndex_some.mp hi).1] at hval
      exact ⟨w', rfl, hdest, by simp [hk], fun _ => ⟨hval, rfl⟩, by simp [hk]⟩
    · refine ⟨w', rfl, hdest, by simp [hk], by simp [hk], fun _ => ⟨hval, ?_, fun a ha => ?_⟩⟩
      · rw [wordIndex, ← (dataIndex_some.mp hi).1]
        exact Memory.readWord_writeWord_same _ _ _ _
      · refine commit_dmemByte hm fun e he _ => ?_
        obtain rfl : m = e := by simpa [hem] using he
        exact ha

/-! ## Write-back -/

/-- Settles O21: write-back writes exactly for a destination other than register 0. -/
theorem writeBackStage : Obligations.WriteBackStage := by
  unfold Obligations.WriteBackStage
  intro s t h
  obtain ⟨m, f, -, -, rfl⟩ := step_next.mp h
  refine ⟨?_, fun v hmw => ?_, fun v r hmw h0 => ?_⟩
  · rintro (hmw | ⟨v, hmw⟩) <;> simp [hmw]
  · simp [hmw]
  · refine ⟨by simp [hmw, writeBack, h0], ?_, fun x hx => commit_readReg fun v' hv' => hx ?_⟩
    · rw [State.readReg, commit_rf, hmw, commitRf_writeBack_some]
      exact RegFile.read_write_same s.rf v h0
    · rw [hmw] at hv'
      cases hv'
      rfl

end Sys2Proof.Machine
end

section
/-! Word indexes, and when a cycle aborts (R124, R150, R241 to R244). -/

namespace Sys2Proof.Machine

/-- FetchIndex by the value of the PC (R77, R124). -/
theorem fetchIndex_eq (p : Params) (pc : Word) :
    fetchIndex p pc =
      if p.misalignedFetch = .fatal ∧ pc.toNat % 4 ≠ 0 then
        if p.imemWords ≤ pc.toNat / 4 then .error (.misalignedOutOfBounds pc)
        else .error (.misaligned pc)
      else if p.imemWords ≤ pc.toNat / 4 then .error (.outOfBounds pc)
      else .ok (pc.toNat / 4) := by
  have hdiv : (pc >>> 2).toNat = pc.toNat / 4 := by simp [Nat.shiftRight_eq_div_pow]
  have hlow : pc.extractLsb' 0 2 = 0#2 ↔ pc.toNat % 4 = 0 := by
    rw [← BitVec.toNat_inj]
    simp [BitVec.extractLsb'_toNat]
  simp only [fetchIndex, hdiv, ne_eq, hlow]

theorem fetchIndex_ok {p : Params} {pc : Word} {i : Nat} :
    fetchIndex p pc = .ok i ↔
      (p.misalignedFetch = .truncate ∨ pc.toNat % 4 = 0) ∧ pc.toNat / 4 < p.imemWords ∧
        i = pc.toNat / 4 := by
  have hvalue : p.misalignedFetch = .truncate ↔ p.misalignedFetch ≠ .fatal := by
    cases p.misalignedFetch <;> simp
  rw [fetchIndex_eq, hvalue]
  split_ifs with hm ho ho
  · simp [hm]
  · simp [hm]
  · simp [Nat.not_lt.mpr ho]
  · have haligned : p.misalignedFetch ≠ .fatal ∨ pc.toNat % 4 = 0 := by
      rwa [not_and_or, not_ne_iff] at hm
    rw [Except.ok.injEq, eq_comm]
    simp [haligned, Nat.lt_of_not_le ho]

/-- Settles O22: both conversions drop the low two bits and check the bound. -/
theorem wordIndexOfAddress : Obligations.WordIndexOfAddress := by
  unfold Obligations.WordIndexOfAddress
  exact fun p a i => ⟨fetchIndex_ok, dataIndex_some.trans (by omega)⟩

/-- When the memory stage aborts (R150, R241). -/
theorem memoryStage_error {s : State} {ea : Word} :
    memoryStage s = .error ea ↔ ∃ m, s.em = some m ∧ m.mem ≠ .none ∧ m.res = ea ∧
      s.params.dmemWords ≤ ea.toNat / 4 := by
  cases hem : s.em with
  | none => simp [memoryStage_none hem]
  | some m =>
    have hstage : memoryStage s = .error ea ↔ accessMemory s.params s.dmem m = .error ea := by
      rw [memoryStage_some hem]
      cases accessMemory s.params s.dmem m <;> simp
    rw [hstage, accessMemory_error]
    constructor
    · rintro ⟨hk, rfl, hi⟩
      exact ⟨m, rfl, hk, rfl, dataIndex_none.mp hi⟩
    · rintro ⟨m', ⟨⟩, hk, rfl, hi⟩
      exact ⟨hk, rfl, dataIndex_none.mpr hi⟩

section
variable {p : Params} {pc : Word} (x : Word)

/-- A fetch abort carries FetchMisaligned iff that condition holds of the PC (R244). -/
theorem fetchIndex_error_misaligned :
    (∃ a, fetchIndex p pc = .error a ∧ .fetchMisaligned x ∈ a.reasons) ↔
      (p.misalignedFetch = .fatal ∧ pc.toNat % 4 ≠ 0) ∧ x = pc := by
  rw [fetchIndex_eq]
  split_ifs with hm ho ho <;> simp [FetchAbort.reasons, hm]

/-- A fetch abort carries FetchOutOfBounds iff that condition holds of the PC (R244). -/
theorem fetchIndex_error_outOfBounds :
    (∃ a, fetchIndex p pc = .error a ∧ .fetchOutOfBounds x ∈ a.reasons) ↔
      p.imemWords ≤ pc.toNat / 4 ∧ x = pc := by
  rw [fetchIndex_eq]
  split_ifs with hm ho ho <;> simp [FetchAbort.reasons, ho]

theorem dataOutOfBounds_not_mem (a : FetchAbort) : .dataOutOfBounds x ∉ a.reasons := by
  cases a <;> simp [FetchAbort.reasons]

end

theorem fetchIndex_aborts {p : Params} {pc : Word} :
    (∃ a, fetchIndex p pc = .error a) ↔
      (p.misalignedFetch = .fatal ∧ pc.toNat % 4 ≠ 0) ∨ p.imemWords ≤ pc.toNat / 4 := by
  rw [fetchIndex_eq]
  split_ifs with hm ho ho <;> simp [hm, ho]

/-- The reason to name is the first of an abort's reasons (R244). -/
theorem head_reasons (f : Fault) : f.reasons.head? = some f.named := by
  rcases f with ea | ⟨pc | pc | pc⟩ | ⟨ea, pc | pc | pc⟩ <;> rfl

/-- An abort's reasons stand in the order of R244. -/
theorem reasons_ordered (f : Fault) : f.reasons.Pairwise (fun x y => x.rank < y.rank) := by
  rcases f with ea | ⟨pc | pc | pc⟩ | ⟨ea, pc | pc | pc⟩ <;>
    simp [Fault.reasons, FetchAbort.reasons, AbortReason.rank]

/-- How a step aborts: by the memory stage, by fetch, or by both, with the reasons of each (R244). -/
theorem step_fault {s : State} {f : Fault} (h : step s = .fault f) (x : AbortReason) :
    x ∈ f.reasons ↔ (∃ ea, memoryStage s = .error ea ∧ x = .dataOutOfBounds ea) ∨
      ∃ a, fetchStage s.stallWire s.redirectWire s = .error a ∧ x ∈ a.reasons := by
  rw [step_eq_cycle, cycleWith_fault] at h
  unfold State.stallWire
  rcases h with ⟨ea, g, hm, hf, rfl⟩ | ⟨m, a, hm, hf, rfl⟩ | ⟨ea, a, hm, hf, rfl⟩ <;>
    simp [hm, hf, Fault.reasons, eq_comm]

theorem step_aborts {s : State} :
    (∃ f, step s = .fault f) ↔ (∃ ea, memoryStage s = .error ea) ∨
      ∃ a, fetchStage s.stallWire s.redirectWire s = .error a := by
  rw [step_eq_cycle]
  unfold State.stallWire
  cases hm : memoryStage s <;> cases hf : fetchStage s.decodeOut.stall s.redirectWire s <;>
    simp [cycleWith, hm, hf]

/-- Settles O23: the two stages that abort, each with its conditions. -/
theorem abortsExactly : Obligations.AbortsExactly := by
  unfold Obligations.AbortsExactly
  intro s dataOut reads misaligned fetchOut
  have hdata : ∀ ea, memoryStage s = .error ea ↔ dataOut ea := fun ea => memoryStage_error
  have hfetch : ∀ a, fetchStage s.stallWire s.redirectWire s = .error a ↔
      reads ∧ fetchIndex s.params s.pc = .error a := fun a =>
    fetchStage_error.trans and_assoc.symm
  refine ⟨?_, fun f hf => ⟨fun ea => ?_, fun x => ?_, fun x => ?_, head_reasons f, reasons_ordered f⟩,
    step_not_refused s⟩
  · rw [step_aborts]
    simp only [hdata, hfetch, exists_and_left, fetchIndex_aborts, misaligned, fetchOut, and_or_left]
  · rw [step_fault hf]
    simp [hdata, dataOutOfBounds_not_mem]
  · rw [step_fault hf]
    simp [hfetch, and_assoc, exists_and_left, fetchIndex_error_misaligned, misaligned]
  · rw [step_fault hf]
    simp [hfetch, and_assoc, exists_and_left, fetchIndex_error_outOfBounds, fetchOut]

end Sys2Proof.Machine
end

section
/-! How long a lock and a hazard stall last (R163, R282, R287). -/

namespace Sys2Proof.Machine

open Sys2Proof.Claims

/-! ## Destinations move one stage on in each cycle -/

section
variable {s t : State} (h : step s = .next t)
include h

theorem step_em_dest : t.em.bind (·.dest) = s.de.bind (·.dest) := by
  obtain ⟨m, f, -, -, rfl⟩ := step_next.mp h
  rw [commit_em]
  cases s.de <;> rfl

theorem step_mw_dest : t.mw.bind (·.dest) = s.em.bind (·.dest) := by
  obtain ⟨⟨w, st⟩, f, hm, -, rfl⟩ := step_next.mp h
  exact memoryStage_dest hm

theorem step_wbc_dest : realDest t.wbc = realDest (s.mw.bind (·.dest)) := by
  obtain ⟨m, f, -, -, rfl⟩ := step_next.mp h
  exact realDest_completion s.mw

theorem step_de_dest : t.de.bind (·.dest) = s.issued.bind destOf := by
  rw [step_de h, ← issuedDest_eq, State.issuedDest]

end

theorem mem_realDest {d : Option RegIdx} {r : RegIdx} : r ∈ realDest d ↔ r ≠ 0#5 ∧ d = some r := by
  rw [← List.count_pos_iff, count_realDest]
  split_ifs with h <;> simp [h]

theorem goodState_cycles {k : Nat} {s t : State} (hs : GoodState s) (h : cycles k s = .next t) :
    GoodState t :=
  cycles_keep (fun hs => goodState_step hs) k hs h

/-- Settles O48: the destination is in execute, memory and write-back in the three cycles after the
issue, and in WBC in the fourth. -/
theorem lockHeldThreeCycles : Obligations.LockHeldThreeCycles := by
  unfold Obligations.LockHeldThreeCycles
  intro s t i rd hs hi hrd h0 h
  have hde : rd ∈ realDest (t.de.bind (·.dest)) := by
    rw [step_de_dest h, hi]
    exact mem_realDest.mpr ⟨h0, hrd⟩
  refine ⟨fun k u hk hu => ?_, fun u hu => ?_⟩
  · have hgood := goodState_cycles (goodState_step hs h) hu
    rw [locked_iff_unfinished hgood.scoreboard hgood.completion]
    simp only [unfinished, List.mem_append]
    match k, hk with
    | 0, _ =>
      cases hu
      exact .inl (.inl hde)
    | 1, _ =>
      obtain ⟨_, h1, ⟨⟩⟩ := cycles_succ_next.mp hu
      exact .inl (.inr (step_em_dest h1 ▸ hde))
    | 2, _ =>
      obtain ⟨_, h1, hu⟩ := cycles_succ_next.mp hu
      obtain ⟨_, h2, ⟨⟩⟩ := cycles_succ_next.mp hu
      exact .inr (step_mw_dest h2 ▸ step_em_dest h1 ▸ hde)
  · obtain ⟨_, h1, hu⟩ := cycles_succ_next.mp hu
    obtain ⟨_, h2, hu⟩ := cycles_succ_next.mp hu
    obtain ⟨_, h3, ⟨⟩⟩ := cycles_succ_next.mp hu
    have hwbc : u.wbc = some rd :=
      (mem_realDest.mp (step_wbc_dest h3 ▸ step_mw_dest h2 ▸ step_em_dest h1 ▸ hde)).2
    refine ⟨?_, hwbc⟩
    rw [← Bool.not_eq_true, locked_released]
    exact fun hl => hl.2.2 hwbc

/-! ## Cycles that issue nothing -/

/-- A hazard stall keeps the instruction in decode (R129). -/
theorem candidate_of_hazardStall {s t : State} (h : step s = .next t)
    (hz : s.hazardStall = true) : t.candidate = s.candidate := by
  obtain ⟨m, f, -, -, rfl⟩ := step_next.mp h
  obtain ⟨p, hc, hd⟩ := decodeOut_of_held hz
  rw [hc]
  exact candidate_saved (by simp [hd])

/-- A cycle that issues nothing and has no redirect leaves an instruction in decode. -/
theorem candidate_of_no_issue {s t : State} (h : step s = .next t) (hr : s.redirectWire = none)
    (hi : s.issued = none) : t.candidate ≠ none := by
  cases hc : s.candidate with
  | none =>
    obtain ⟨m, f, -, hf, rfl⟩ := step_next.mp h
    have hd := decodeOut_nothing hc
    have hcand : (commit s.decodeOut f m s).candidate = f.2 := by
      simp [State.candidate, hd, decodeNothing]
    rw [State.stallWire, hd, hr] at hf
    rcases fetchStage_ok hf with ⟨a, ha, -⟩ | ⟨-, hstall, -⟩ | ⟨-, -, i, -, rfl⟩
    · cases ha
    · cases hstall
    · rw [hcand]
      exact Option.some_ne_none _
  | some p =>
    have hz : s.hazardStall = true := by simpa [hc] using issued_none.mp hi
    rw [candidate_of_hazardStall h hz, hc]
    exact Option.some_ne_none p

/-- Where nothing is in flight decode issues the instruction it holds. -/
theorem issued_of_unfinished_nil {s : State} (hs : GoodState s) (hnil : unfinished s = [])
    (hc : s.candidate ≠ none) : s.issued ≠ none := by
  intro hi
  obtain ⟨p, hp⟩ := Option.ne_none_iff_exists'.mp hc
  have hz : s.hazardStall = true := (issued_none.mp hi).resolve_left hc
  rw [hazardStall_of_holds ⟨hp, rfl⟩, hazard_eq_true] at hz
  obtain ⟨r, hl, -⟩ := hz
  rw [locked_iff_unfinished hs.scoreboard hs.completion, hnil] at hl
  exact List.not_mem_nil hl

/-- After three cycles that issue nothing the next one issues. -/
theorem issued_after_three {s s1 s2 s3 : State} (hs : GoodState s) (h : step s = .next s1)
    (h1 : step s1 = .next s2) (h2 : step s2 = .next s3) (hi : s.issued = none)
    (hi1 : s1.issued = none) (hi2 : s2.issued = none) : s3.issued ≠ none := by
  have hgood := goodState_step (goodState_step (goodState_step hs h) h1) h2
  refine issued_of_unfinished_nil hgood ?_ ?_
  · rw [unfinished, step_de_dest h2, step_em_dest h2, step_mw_dest h2, step_de_dest h1,
      step_em_dest h1, step_de_dest h, hi, hi1, hi2]
    rfl
  · exact candidate_of_no_issue h2 (redirectWire_none_of_de (de_of_no_issue h1 hi1)) hi2

/-- Settles O49: three stalls issue nothing, so everything older has left write-back. -/
theorem stallsAtMostThreeCycles : Obligations.StallsAtMostThreeCycles := by
  unfold Obligations.StallsAtMostThreeCycles
  intro s s1 s2 s3 hs h h1 h2 hz hz1 hz2
  have hissue := issued_after_three hs h h1 h2 (issued_none.mpr (.inr hz))
    (issued_none.mpr (.inr hz1)) (issued_none.mpr (.inr hz2))
  refine ⟨?_, ?_, hissue⟩
  · exact Bool.eq_false_iff.mpr fun hz3 => hissue (issued_none.mpr (.inr hz3))
  · rw [candidate_of_hazardStall h2 hz2, candidate_of_hazardStall h1 hz1,
      candidate_of_hazardStall h hz]

end Sys2Proof.Machine
end

section
/-! A run from launch against the sequential reading (R164). -/

namespace Sys2Proof.Machine

open Sys2Proof.Claims

/-! ## The sequential reading -/

/-- The payload of control fields `c` with the values that its sources have in `a`. -/
def Arch.payload (a : Arch) (c : Control) : DEPayload :=
  { dest := c.dest, alu := c.alu, br := c.br, mem := c.mem, imm := c.imm,
    v1 := a.reg (c.src1.getD 0#5), v2 := a.reg (c.src2.getD 0#5), pc := a.pc }

theorem carries_payload (a : Arch) (c : Control) : Carries (a.payload c) c a where
  dest_eq := rfl
  alu_eq := rfl
  br_eq := rfl
  mem_eq := rfl
  imm_eq := rfl
  pc_eq := rfl
  v1_eq hr := by rw [Arch.payload, hr, Option.getD_some]
  v2_eq hr := by rw [Arch.payload, hr, Option.getD_some]

/-- Carrying a payload out goes on at the pc given, or aborts at its data address. -/
theorem finish_cases (a : Arch) (pc : Word) (d : Option DEPayload) :
    (∃ b, a.finish pc d = .next b ∧ b.params = a.params ∧ b.imem = a.imem ∧ b.pc = pc) ∨
    ∃ ea, a.finish pc d = .fault (.dataOutOfBounds ea) := by
  cases d with
  | none => exact .inl ⟨_, rfl, rfl, rfl, rfl⟩
  | some e =>
    cases ha : accessMemory a.params a.dmem (executePayload e) with
    | error ea => exact .inr ⟨ea, finish_of_access_error pc ha⟩
    | ok r => exact .inl ⟨_, finish_of_access_ok pc ha, rfl, rfl, rfl⟩

theorem finish_ne_refused (a : Arch) (pc : Word) (d : Option DEPayload) (r : Refusal) :
    a.finish pc d ≠ .refused r := by
  rcases finish_cases a pc d with ⟨b, hb, -⟩ | ⟨ea, hb⟩ <;> simp [hb]

theorem drain_ne_refused (s : State) (r : Refusal) : s.drain ≠ .refused r := by
  cases hm : memoryStage s with
  | error ea => simp [drain_of_memory_error hm]
  | ok m =>
    rw [drain_of_memory_ok hm]
    exact finish_ne_refused _ _ _ r

/-- An instruction that is no branch or jump goes on at pc + 4, or aborts. -/
theorem exec_ordinary {i : Instr} (a : Arch) (h : (controlOf i).br = .none) :
    (∃ b, Arch.exec i a = .next b ∧ b.params = a.params ∧ b.imem = a.imem ∧ b.pc = a.pc + 4#32) ∨
    ∃ ea, Arch.exec i a = .fault (.dataOutOfBounds ea) := by
  have hc := carries_payload a (controlOf i)
  rw [exec_eq_finish hc, nextPc_ordinary (hc.br_eq.trans h), hc.pc_eq]
  exact finish_cases a _ _

theorem arch_step_ne_refused (a : Arch) (r : Refusal) : a.step ≠ .refused r := by
  cases hi : fetchIndex a.params a.pc with
  | error f => simp [Arch.step, hi]
  | ok j =>
    rw [arch_step_of_reads hi rfl, exec_eq_finish (carries_payload a _)]
    exact finish_ne_refused a _ _ r

section
variable {a b : Arch} {f : Fault} (k : Nat)

theorem arch_run_next (h : a.step = .next b) : Arch.run (k + 1) a = Arch.run k b := by
  simp [Arch.run, h]

theorem arch_run_fault (h : a.step = .fault f) : Arch.run (k + 1) a = .fault f := by
  simp [Arch.run, h]

theorem arch_run_add {n : Nat} (h : Arch.run n a = .next b) : Arch.run (n + k) a = Arch.run k b := by
  induction n generalizing a with
  | zero =>
    cases h
    rw [Nat.zero_add]
  | succ n ih =>
    rw [Nat.add_right_comm]
    cases hs : a.step with
    | next c =>
      rw [arch_run_next _ hs] at h ⊢
      exact ih h
    | fault g => simp [arch_run_fault _ hs] at h
    | refused r => exact absurd hs (arch_step_ne_refused a r)

/-- The sequential reading visits first the instruction it reads at its pc. -/
theorem arch_visits_next {i : Instr} {j : Nat} (hj : fetchIndex a.params a.pc = .ok j)
    (hi : decodeWord a.params.narrowMem (imemRead a.imem j) = i) (h : a.step = .next b) :
    Arch.visits (k + 1) a = i :: Arch.visits k b := by
  simp [Arch.visits, hj, hi, h]

end

/-! ## Runs of the machine -/

theorem issuedIn_next {s t : State} (k : Nat) (h : step s = .next t) :
    issuedIn (k + 1) s = s.issued.toList ++ issuedIn k t := by
  simp [issuedIn, h]

/-- Once the issued instructions lead to an abort they do so to the end of the run. -/
theorem drain_fault_cycles {n : Nat} {s u : State} {f : Fault} (hs : GoodState s)
    (hf : s.drain = .fault f) (h : cycles n s = .next u) : u.drain = .fault f := by
  refine (cycles_keep (P := fun x => GoodState x ∧ x.drain = .fault f) ?_ n ⟨hs, hf⟩ h).2
  rintro x y ⟨hx, hxf⟩ hxy
  refine ⟨goodState_step hx hxy, ?_⟩
  cases hi : x.issued with
  | none => rw [drain_of_no_issue hx.pipeline hxy hi, hxf]
  | some i => rw [drain_of_issue hx hxy hi, hxf, thenStep]

/-- A run from a good state issues what the sequential reading visits from its drained state, and
leads to the state that reading reaches. -/
theorem cycles_refine_run {n : Nat} {s u : State} {a : Arch} (hs : GoodState s)
    (ha : s.drain = .next a) (h : cycles n s = .next u) :
    u.drain = Arch.run (issuedIn n s).length a ∧
      ∀ b, Arch.run (issuedIn n s).length a = .next b →
        issuedIn n s = Arch.visits (issuedIn n s).length a := by
  induction n generalizing s a with
  | zero =>
    cases h
    exact ⟨ha, fun _ _ => rfl⟩
  | succ n ih =>
    obtain ⟨t, hst, hu⟩ := cycles_succ_next.mp h
    have ht := goodState_step hs hst
    rw [issuedIn_next n hst]
    cases hi : s.issued with
    | none => exact ih ht ((drain_of_no_issue hs.pipeline hst hi).trans ha) hu
    | some i =>
      obtain ⟨j, hj, hdec⟩ := ((cycleRefinesSequential s t hs hst).2 i hi).2 a ha
      have hdrain : t.drain = a.step := by rw [drain_of_issue hs hst hi, ha, thenStep]
      simp only [Option.toList_some, List.singleton_append, List.length_cons]
      cases hstep : a.step with
      | next b =>
        obtain ⟨hlead, hvisit⟩ := ih ht (hdrain.trans hstep) hu
        rw [arch_run_next _ hstep, arch_visits_next _ hj hdec hstep]
        exact ⟨hlead, fun c hc => congrArg (i :: ·) (hvisit c hc)⟩
      | fault f =>
        rw [arch_run_fault _ hstep, drain_fault_cycles ht (hdrain.trans hstep) hu]
        exact ⟨rfl, fun b hb => by cases hb⟩
      | refused r => exact absurd hstep (arch_step_ne_refused a r)

/-- With nothing in execute, memory and write-back the committed state is the drained one. -/
theorem drain_of_empty {s : State} (hde : s.de = none) (hem : s.em = none) (hmw : s.mw = none) :
    s.drain = .next { s.arch with pc := s.nextIssuePc } := by
  rw [drain_of_memory_ok (memoryStage_none hem), hde, State.settled, hmw]
  rfl

theorem drain_launch (l : LaunchInput) : (State.launch l).drain = .next (State.launch l).arch :=
  drain_of_empty rfl rfl rfl

theorem goodState_launch {l : LaunchInput} (hl : l.legal = true)
    (hw : l.params.wawInterlock = true) : GoodState (State.launch l) := by
  obtain ⟨-, -, -, -, -, hgood⟩ := launchMeetsInvariants l hl
  exact hgood hw

/-- Settles O53, by induction on the cycles from the launch state. -/
theorem runRefinesSequential : Obligations.RunRefinesSequential := by
  unfold Obligations.RunRefinesSequential
  intro l n s hl hw h issued reading
  obtain ⟨hlead, hvisit⟩ := cycles_refine_run (goodState_launch hl hw) (drain_launch l) h
  refine ⟨hlead, hvisit, fun _ _ hde hem hmw _ => ?_⟩
  exact ⟨_, hlead.symm.trans (drain_of_empty hde hem hmw), rfl, rfl⟩

/-! ## Runs that never abort -/

/-- The run from `s` never aborts. -/
def Forever (s : State) : Prop := ∀ n, SafeFor n s

theorem forever_step {s : State} (hs : Forever s) : ∃ t, step s = .next t ∧ Forever t := by
  obtain ⟨_, h⟩ := hs 1
  obtain ⟨t, ht, -⟩ := cycles_succ_next.mp h
  refine ⟨t, ht, fun n => ?_⟩
  obtain ⟨u, hu⟩ := hs (n + 1)
  obtain ⟨t', ht', hu⟩ := cycles_succ_next.mp hu
  cases ht.symm.trans ht'
  exact ⟨u, hu⟩

/-- The issued instructions of a run that never aborts do not lead to an abort: the memory stage would
reach it in this cycle or the next. -/
theorem drain_of_forever {s : State} (hs : Forever s) : ∃ a, s.drain = .next a := by
  obtain ⟨t, hst, ht⟩ := forever_step hs
  obtain ⟨u, htu, -⟩ := forever_step ht
  obtain ⟨m, f, hm, -, -⟩ := step_next.mp htu
  exact ⟨_, by rw [drain_step hst, hm]⟩

/-- A run that never aborts issues another instruction, and until then its drained state stays. -/
theorem forever_issues {s : State} (hs : GoodState s) (hf : Forever s) :
    ∃ u i, GoodState u ∧ Forever u ∧ u.drain = s.drain ∧ u.issued = some i := by
  by_contra hno
  have hnone : ∀ {x}, GoodState x → Forever x → x.drain = s.drain → x.issued = none := by
    intro x hx hxf hxd
    by_contra hi
    obtain ⟨i, hi⟩ := Option.ne_none_iff_exists'.mp hi
    exact hno ⟨x, i, hx, hxf, hxd, hi⟩
  have advance : ∀ {x}, GoodState x → Forever x → x.drain = s.drain →
      ∃ y, step x = .next y ∧ GoodState y ∧ Forever y ∧ y.drain = s.drain := by
    intro x hx hxf hxd
    obtain ⟨y, hxy, hyf⟩ := forever_step hxf
    exact ⟨y, hxy, goodState_step hx hxy, hyf,
      (drain_of_no_issue hx.pipeline hxy (hnone hx hxf hxd)).trans hxd⟩
  obtain ⟨s1, h, hs1, hf1, hd1⟩ := advance hs hf rfl
  obtain ⟨s2, h1, hs2, hf2, hd2⟩ := advance hs1 hf1 hd1
  obtain ⟨s3, h2, hs3, hf3, hd3⟩ := advance hs2 hf2 hd2
  exact issued_after_three hs h h1 h2 (hnone hs hf rfl) (hnone hs1 hf1 hd1) (hnone hs2 hf2 hd2)
    (hnone hs3 hf3 hd3)

/-- If the run never aborts, neither does the sequential reading. -/
theorem arch_run_of_forever (k : Nat) {s : State} {a : Arch} (hs : GoodState s) (hf : Forever s)
    (ha : s.drain = .next a) : ∃ b, Arch.run k a = .next b := by
  induction k generalizing s a with
  | zero => exact ⟨a, rfl⟩
  | succ k ih =>
    obtain ⟨u, i, hu, huf, hud, hi⟩ := forever_issues hs hf
    obtain ⟨t, hut, htf⟩ := forever_step huf
    obtain ⟨b, hb⟩ := drain_of_forever htf
    have hstep : a.step = .next b := by
      rw [← hb, drain_of_issue hu hut hi, hud, ha, thenStep]
    rw [arch_run_next k hstep]
    exact ih (goodState_step hu hut) htf hb

/-! ## Runs that abort -/

theorem cycles_ne_refused (k : Nat) (s : State) (r : Refusal) : cycles k s ≠ .refused r := by
  induction k generalizing s with
  | zero => simp
  | succ k ih =>
    cases h : step s with
    | next t => simpa [cycles, h] using ih t
    | fault f => simp [cycles, h]
    | refused x => exact absurd h (step_not_refused s x)

/-- A run that aborts does so in a cycle from a state it reaches. -/
theorem cycles_fault {n : Nat} {s : State} {f : Fault} (h : cycles n s = .fault f) :
    ∃ j u, cycles j s = .next u ∧ step u = .fault f := by
  induction n generalizing s with
  | zero => cases h
  | succ n ih =>
    cases hst : step s with
    | next t =>
      obtain ⟨j, u, hu, huf⟩ := ih (s := t) (by simpa [cycles, hst] using h)
      exact ⟨j + 1, u, cycles_succ_next.mpr ⟨t, hst, hu⟩, huf⟩
    | fault g => exact ⟨0, s, rfl, by simpa [cycles, hst] using h⟩
    | refused r => exact absurd hst (step_not_refused s r)

/-- Where the cycle aborts, the sequential reading from the drained state does too: at once for a data
address; for a fetch, when it comes to the address fetch reads, at most one instruction later. -/
theorem arch_run_fault_of_step {s : State} {f : Fault} {a : Arch} (hs : PipelineInv s)
    (h : step s = .fault f) (ha : s.drain = .next a) : ∃ k g, Arch.run k a = .fault g := by
  obtain ⟨hparams, himem, hpc⟩ := drain_next ha
  rcases step_aborts.mp ⟨f, h⟩ with ⟨ea, hm⟩ | ⟨x, hx⟩
  · simp [drain_of_memory_error hm] at ha
  obtain ⟨hr, hstall, hx⟩ := fetchStage_error.mp hx
  cases hc : s.candidate with
  | none =>
    rw [nextIssuePc_empty hr hc] at hpc
    exact ⟨1, .fetch x, arch_run_fault 0 (by simp [Arch.step, hparams, hpc, hx])⟩
  | some p =>
    have hp : s.decodeHolds p (decodeWord s.params.narrowMem p.inst) := ⟨hc, rfl⟩
    obtain ⟨hapc, j, hj, hdec⟩ := drain_reads hs hp ha
    have hbr : (controlOf (decodeWord s.params.narrowMem p.inst)).br = .none := by
      rw [State.stallWire, decodeOut_of_holds hp, decodeStage] at hstall
      split at hstall
      · cases hstall
      · simpa using hstall
    have hstep := arch_step_of_reads hj hdec
    rcases exec_ordinary a hbr with ⟨b, hb, hbparams, -, hbpc⟩ | ⟨ea, hb⟩
    · have hnext : b.pc = s.pc := by rw [hbpc, hapc, (hs.fetchPath.1 p hc).1]
      refine ⟨2, .fetch x, (arch_run_next 1 (hstep.trans hb)).trans (arch_run_fault 0 ?_)⟩
      simp [Arch.step, hbparams, hparams, hnext, hx]
    · exact ⟨1, _, arch_run_fault 0 (hstep.trans hb)⟩

/-- Settles O54: a run that never aborts keeps issuing, so the sequential reading never does; and a
cycle that aborts has the reading at most two instructions before its own abort. -/
theorem abortsIffSequentialAborts : Obligations.AbortsIffSequentialAborts := by
  unfold Obligations.AbortsIffSequentialAborts
  intro l hl hw
  have hgood := goodState_launch hl hw
  constructor
  · rintro ⟨n, f, h⟩
    obtain ⟨j, u, hu, huf⟩ := cycles_fault h
    have hlead := (cycles_refine_run hgood (drain_launch l) hu).1
    cases hd : u.drain with
    | next a =>
      obtain ⟨k, g, hk⟩ := arch_run_fault_of_step (goodState_cycles hgood hu).pipeline huf hd
      exact ⟨_, g, (arch_run_add k (hlead.symm.trans hd)).trans hk⟩
    | fault g => exact ⟨_, g, hlead.symm.trans hd⟩
    | refused r => exact absurd hd (drain_ne_refused u r)
  · rintro ⟨k, f, hk⟩
    by_contra hno
    have hforever : Forever (State.launch l) := by
      intro n
      cases hn : cycles n (State.launch l) with
      | next t => exact ⟨t, hn⟩
      | fault g => exact absurd ⟨n, g, hn⟩ hno
      | refused r => exact absurd hn (cycles_ne_refused n _ r)
    obtain ⟨b, hb⟩ := arch_run_of_forever k hgood hforever (drain_launch l)
    simp [hk] at hb

end Sys2Proof.Machine
end

section
/-! One instruction alone in the pipeline, followed by zero words (R163, R164). -/

namespace Sys2Proof.Machine

open Sys2Proof.Claims

/-! ## Zero words behind an instruction -/

theorem zeroWordsFrom_mono {s : State} {a : Word} {n k : Nat} (h : ZeroWordsFrom s a n) (hk : k ≤ n) :
    ZeroWordsFrom s a k :=
  fun j hj => h j (hj.trans_le hk)

theorem zeroWordsFrom_head {s : State} {a : Word} {n : Nat} (h : ZeroWordsFrom s a (n + 1)) :
    ∃ j, fetchIndex s.params a = .ok j ∧ imemRead s.imem j = 0#32 := by
  simpa using h 0 (by omega)

theorem zeroWordsFrom_tail {s : State} {a : Word} {n : Nat} (h : ZeroWordsFrom s a (n + 1)) :
    ZeroWordsFrom s (a + 4#32) n := by
  intro k hk
  have hk4 : BitVec.ofNat 32 (4 * (k + 1)) = 4#32 + BitVec.ofNat 32 (4 * k) := by
    rw [Nat.mul_succ, Nat.add_comm, BitVec.ofNat_add]
  have hword := h (k + 1) (by omega)
  rwa [hk4, ← BitVec.add_assoc] at hword

/-- Execute holds nothing or a no-operation. -/
def NopInExecute (s : State) : Prop :=
  ∀ e, s.de = some e → e.dest = none ∧ e.mem = .none ∧ e.br = .none

/-- Decode holds nothing or a zero word, and `n` zero words follow at the address fetch reads next. -/
structure ZerosFollow (n : Nat) (s : State) : Prop where
  saved : s.saved = none
  fd    : ∀ p, s.fd = some p → p.inst = 0#32
  words : ZeroWordsFrom s (s.redirectWire.getD s.pc) n

theorem decodeWord_zero (nm : NarrowMem) : decodeWord nm 0#32 = .nop 0#32 := by
  cases nm <;> decide

/-- A zero word in decode issues as a no-operation: it checks no register but register 0 (R99,
R128). -/
theorem decodeOut_zeros {n : Nat} {s : State} (hs : ZerosFollow n s) :
    s.decodeOut.stall = false ∧ s.decodeOut.saved = none ∧
      ∀ e, s.decodeOut.de = some e → e.dest = none ∧ e.mem = .none ∧ e.br = .none := by
  cases hfd : s.fd with
  | none => simp [decodeOut_nothing (candidate_none.mpr ⟨hs.saved, hfd⟩), decodeNothing]
  | some p =>
    have hinst := hs.fd p hfd
    have hp : s.decodeHolds p (.nop 0#32) :=
      ⟨(candidate_fd hs.saved).trans hfd, by rw [hinst, decodeWord_zero]⟩
    have hz : hazard (controlOf (.nop 0#32)) p s = false := by
      rw [← Bool.not_eq_true, hazard_eq_true]
      rintro ⟨r, hl, hr⟩
      have h0 := (locked_released.mp hl).1
      cases hsrc : s.params.hazardSources <;>
        simp [source1, source2, hsrc, controlOf, nopType, hinst, rs1Of, rs2Of, Ne.symm h0] at hr
    simp [decodeOut_of_issue hp hz, issuePayload, controlOf, nopType]

theorem redirectWire_of_nop {s : State} (h : NopInExecute s) : s.redirectWire = none := by
  cases hde : s.de with
  | none => exact redirectWire_none_of_de hde
  | some e => rw [redirectWire_of_de hde, redirectOf_ordinary (h e hde).2.2]

/-- With zero words behind it the pipeline runs on: a cycle aborts only by its memory stage. -/
theorem step_zeros {n : Nat} {s : State} (hs : ZerosFollow (n + 1) s)
    {m : Option MWPayload × Option (Nat × Word)} (hm : memoryStage s = .ok m) :
    ∃ f, step s = .next (commit s.decodeOut f m s) ∧ NopInExecute (commit s.decodeOut f m s) ∧
      ZerosFollow n (commit s.decodeOut f m s) := by
  obtain ⟨hstall, hsaved, hde⟩ := decodeOut_zeros hs
  have hnop : ∀ f, NopInExecute (commit s.decodeOut f m s) := fun _ => hde
  have hwire := fun f => redirectWire_of_nop (hnop f)
  have hwords := hs.words
  cases hr : s.redirectWire with
  | some a =>
    have hf : fetchStage s.stallWire s.redirectWire s = .ok (a, none) := by simp [fetchStage, hr]
    refine ⟨_, step_next.mpr ⟨m, _, hm, hf, rfl⟩, hnop _, hsaved, by simp, ?_⟩
    rw [hr, Option.getD_some] at hwords
    rw [hwire]
    exact zeroWordsFrom_mono hwords (Nat.le_succ n)
  | none =>
    rw [hr, Option.getD_none] at hwords
    obtain ⟨j, hj, hzero⟩ := zeroWordsFrom_head hwords
    have hf : fetchStage s.stallWire s.redirectWire s =
        .ok (s.pc + 4#32, some { inst := imemRead s.imem j, pc := s.pc }) := by
      simp [fetchStage, hr, State.stallWire, hstall, hj]
    refine ⟨_, step_next.mpr ⟨m, _, hm, hf, rfl⟩, hnop _, hsaved, by simp [hzero], ?_⟩
    rw [hwire]
    exact zeroWordsFrom_tail hwords

/-- A no-operation from execute stores nothing in its memory cycle. -/
theorem memoryStage_of_nop {s : State} {d : DecodeOut} {f : Word × Option FDPayload}
    {m : Option MWPayload × Option (Nat × Word)} (h : NopInExecute s) :
    ∃ w, memoryStage (commit d f m s) = .ok (w, none) := by
  cases hde : s.de with
  | none => exact ⟨none, memoryStage_none (by simp [hde])⟩
  | some e =>
    refine ⟨some { val := linkOrResult e, dest := e.dest }, ?_⟩
    simp [memoryStage, hde, accessMemory, executePayload, (h e hde).2.1]

/-! ## The four cycles of the instruction -/

/-- What the pseudocode leaves where it does not abort, by the payload's memory access. -/
theorem finish_next {a b : Arch} {pc : Word} {e : DEPayload} (h : a.finish pc (some e) = .next b) :
    ∃ r, accessMemory a.params a.dmem (executePayload e) = .ok r ∧ b.pc = pc ∧
      b.rf = commitRf a.rf (writeBack (some r.1)) ∧ b.dmem = commitDmem a.params a.dmem r.2 := by
  cases ha : accessMemory a.params a.dmem (executePayload e) with
  | error ea => simp [finish_of_access_error pc ha] at h
  | ok r =>
    cases (finish_of_access_ok pc ha).symm.trans h
    exact ⟨r, rfl, rfl, rfl, rfl⟩

section
variable {s : State} {p : FDPayload} {i : Instr} (h : Alone s p i)
include h

theorem alone_decodeHolds : s.decodeHolds p i := by
  obtain ⟨hfd, hdec, -, hsaved, -⟩ := h
  exact ⟨(candidate_fd hsaved).trans hfd, hdec⟩

/-- With no lock there is no hazard. -/
theorem alone_no_hazard : hazard (controlOf i) p s = false := by
  obtain ⟨-, -, -, -, -, -, -, -, hsb⟩ := h
  rw [← Bool.not_eq_true, hazard_eq_true]
  rintro ⟨r, hl, -⟩
  simpa [hsb] using (locked_released.mp hl).2.1

/-- The issue cycle of an instruction alone goes on, with the zero words behind it still to come. -/
theorem alone_issues (hw : ZeroWordsFrom s (issuePayload (controlOf i) p s).nextPc 4) :
    ∃ f, step s = .next (commit s.decodeOut f (none, none) s) ∧
      ZerosFollow 3 (commit s.decodeOut f (none, none) s) := by
  have hd := decodeOut_of_issue (alone_decodeHolds h) (alone_no_hazard h)
  obtain ⟨-, -, hpc, -, hde, hem, -⟩ := h
  have hr := redirectWire_none_of_de hde
  have hm := memoryStage_none hem
  have hwire : ∀ f, (commit s.decodeOut f (none, none) s).redirectWire =
      redirectOf (issuePayload (controlOf i) p s) := fun f => redirectWire_of_de (by simp [hd])
  have hsaved : ∀ f, (commit s.decodeOut f (none, none) s).saved = none := fun f => by simp [hd]
  by_cases hb : (controlOf i).br = .none
  · have hbr : (issuePayload (controlOf i) p s).br = .none := hb
    have hnext : (issuePayload (controlOf i) p s).nextPc = s.pc :=
      (nextPc_ordinary hbr).trans hpc.symm
    rw [hnext] at hw
    obtain ⟨j, hj, hzero⟩ := zeroWordsFrom_head hw
    have hf : fetchStage s.stallWire s.redirectWire s =
        .ok (s.pc + 4#32, some { inst := imemRead s.imem j, pc := s.pc }) := by
      simp [fetchStage, hr, State.stallWire, hd, hb, hj]
    refine ⟨_, step_next.mpr ⟨_, _, hm, hf, rfl⟩, hsaved _, by simp [hzero], ?_⟩
    rw [hwire, redirectOf_ordinary hbr]
    exact zeroWordsFrom_tail hw
  · have hf : fetchStage s.stallWire s.redirectWire s = .ok (s.pc, none) := by
      simp [fetchStage, hr, State.stallWire, hd, hb]
    refine ⟨_, step_next.mpr ⟨_, _, hm, hf, rfl⟩, hsaved _, by simp, ?_⟩
    rw [hwire, commit_pc, hpc]
    exact zeroWordsFrom_mono hw (by omega)

end

/-- The three cycles behind an issue with nothing older in flight: the payload's memory access and its
register write are carried out, and the no-operations behind it change nothing. -/
theorem cycles_zeros {t : State} {e : DEPayload} {r : MWPayload × Option (Nat × Word)}
    (hf : ZerosFollow 3 t) (hde : t.de = some e) (hem : t.em = none) (hmw : t.mw = none)
    (ha : accessMemory t.params t.dmem (executePayload e) = .ok r) :
    ∃ u, cycles 3 t = .next u ∧ u.rf = commitRf t.rf (writeBack (some r.1)) ∧
      u.dmem = commitDmem t.params t.dmem r.2 ∧ u.imem = t.imem ∧ u.params = t.params := by
  obtain ⟨f, ht, hnop, hf2⟩ := step_zeros hf (memoryStage_none hem)
  have hm2 : memoryStage (commit t.decodeOut f (none, none) t) = .ok (some r.1, r.2) := by
    simp [memoryStage, hde, ha]
  obtain ⟨f2, ht2, -, hf3⟩ := step_zeros hf2 hm2
  obtain ⟨w, hm3⟩ := memoryStage_of_nop hnop
  obtain ⟨f3, ht3, -⟩ := step_zeros hf3 hm3
  refine ⟨_, cycles_succ_next.mpr ⟨_, ht, cycles_succ_next.mpr ⟨_, ht2, cycles_succ_next.mpr
    ⟨_, ht3, rfl⟩⟩⟩, ?_, ?_, rfl, rfl⟩
  · simp [hmw]
  · simp

/-- Settles O36: the pseudocode is what memory and write-back make of the payload issued, and zero
words behind it let the pipeline run on. -/
theorem aloneMatchesPseudocode : Obligations.AloneMatchesPseudocode := by
  unfold Obligations.AloneMatchesPseudocode
  intro s p i a h hx hw
  have hp := alone_decodeHolds h
  have hz := alone_no_hazard h
  rw [exec_eq_finish (carries_issuePayload hp)] at hx
  obtain ⟨r, ha, hapc, harf, hadm⟩ := finish_next hx
  rw [hapc] at hw
  obtain ⟨f, hst, hfollow⟩ := alone_issues h hw
  obtain ⟨-, -, hpc, -, hde, hem, hmw, -, -⟩ := h
  obtain ⟨u, hu, hrf, hdm, himem, hparams⟩ :=
    cycles_zeros (e := issuePayload (controlOf i) p s) hfollow
      (by simp [decodeOut_of_issue hp hz]) (by simp [hde]) rfl ha
  refine ⟨_, u, step_of_holds hp ▸ hst, ?_, hu, ?_, hdm.trans hadm.symm, himem, hparams⟩
  · rw [hapc]
    exact nextIssuePc_of_issue hst (redirectWire_none_of_de hde) hpc hp hz
  · rw [hrf, commit_rf, hmw, harf]
    rfl

end Sys2Proof.Machine
end

section
/-! An instruction that computes a value into its destination, followed through execute, memory and
write-back (R144, R151, R155). -/

namespace Sys2Proof.Machine

open Sys2Proof.Claims

/-! ## The payload of an issued instruction, stage by stage -/

/-- The issue cycle leaves a payload in DE that carries the instruction. -/
theorem issuable_issues {s : State} {p : FDPayload} {i : Instr} (h : Issuable s p i) :
    ∃ t e, exec i s = .next t ∧ t.de = some e ∧
      Carries e (controlOf i) { s.arch with pc := p.pc } := by
  obtain ⟨t, e, hx, hde, -, hdest, halu, hbr, hmem, himm, hpc, hv1, hv2, -⟩ :=
    issueWritesPayload s p i h
  exact ⟨t, e, hx, hde, hdest, halu, hbr, hmem, himm, hpc, hv1 _, hv2 _⟩

theorem step_em {s t : State} (h : step s = .next t) : t.em = s.de.map executePayload := by
  obtain ⟨m, f, -, -, rfl⟩ := step_next.mp h
  rfl

/-- Write-back delivers the value in MW, if the memory cycle before it changed no memory. -/
theorem delivers_of_mw {rd : RegIdx} {v : Word} {t2 t3 u : State}
    (hmw : t3.mw = some { val := v, dest := some rd }) (hdm : t3.dmem = t2.dmem)
    (h : step t3 = .next u) : Delivers rd v t2 t3 u := by
  obtain ⟨-, hzero, hwrite⟩ := writeBackStage t3 u h
  by_cases h0 : rd = 0#5
  · subst h0
    obtain ⟨hwbc, hrf⟩ := hzero v hmw
    exact ⟨hdm, by simp, fun x _ => by rw [State.readReg, hrf, State.readReg], by simp [hwbc]⟩
  · obtain ⟨hwbc, hrd, hother⟩ := hwrite v rd hmw h0
    exact ⟨hdm, by simp [hrd, h0], hother, by simp [hwbc, h0]⟩

/-- A payload in execute that uses no memory delivers its write-back value. -/
theorem delivers_of_de {rd : RegIdx} {e : DEPayload} {t t2 t3 u : State} (hde : t.de = some e)
    (hm : e.mem = .none) (hd : e.dest = some rd) (h : step t = .next t2)
    (h2 : step t2 = .next t3) (h3 : step t3 = .next u) :
    Delivers rd (linkOrResult e) t2 t3 u := by
  have hem : t2.em = some (executePayload e) := by rw [step_em h, hde, Option.map_some]
  obtain ⟨⟨val, dest⟩, hmw, hdest, hnone, -⟩ := (memoryStageAccess t2 t3 h2).2 _ hem
  obtain ⟨hval, hdm⟩ := hnone hm
  obtain rfl : dest = some rd := hdest.trans hd
  obtain rfl : val = linkOrResult e := hval
  exact delivers_of_mw hmw hdm h3

/-! ## Instructions whose pseudocode writes rd and goes on at pc + 4 (R170) -/

/-- `i` is no load, store, branch or jump, and its pseudocode puts `v` of the state before it in
rd. -/
structure Computes (i : Instr) (rd : RegIdx) (v : Arch → Word) : Prop where
  mem_none : (controlOf i).mem = .none
  br_none : (controlOf i).br = .none
  dest_eq : destOf i = some rd
  exec_eq : ∀ a, Arch.exec i a = .next (a.put rd (v a))

/-- Such an instruction, issued, delivers the value of its pseudocode on the registers as committed
before the issue cycle. -/
theorem Computes.lifetime {i : Instr} {rd : RegIdx} {v : Arch → Word} {s : State} {p : FDPayload}
    (hc : Computes i rd v) (h : Issuable s p i) :
    Lifetime i s fun _ t2 t3 u => Delivers rd (v { s.arch with pc := p.pc }) t2 t3 u := by
  obtain ⟨t, e, hx, hde, he⟩ := issuable_issues h
  refine ⟨t, hx, fun t2 t3 u h1 h2 h3 => ?_⟩
  have hbr : e.br = .none := he.br_eq.trans hc.br_none
  have hput := hc.exec_eq { s.arch with pc := p.pc }
  rw [exec_eq_finish he, he.finish_alu hc.mem_none hc.br_none hc.dest_eq] at hput
  obtain ⟨hdm, hrd, hframe⟩ := delivers_of_de hde (he.mem_eq.trans hc.mem_none)
    (he.dest_eq.trans hc.dest_eq) h1 h2 h3
  rw [linkOrResult_of_ne_jump (by simp [hbr]) (by simp [hbr]), ← Arch.reg_put_same,
    Host.Outcome.next.inj hput, Arch.reg_put_same] at hrd
  exact ⟨hdm, hrd, hframe⟩

/-! ## The instruction families -/

theorem computes_rTypeCases {rd rs1 rs2 : RegIdx} {c : Instr × (Word → Word → Word)}
    (hc : c ∈ rTypeCases rd rs1 rs2) : Computes c.1 rd fun a => c.2 (a.reg rs1) (a.reg rs2) := by
  simp only [rTypeCases, List.mem_cons, List.not_mem_nil, or_false] at hc
  rcases hc with rfl | rfl | rfl | rfl | rfl | rfl | rfl | rfl | rfl | rfl <;>
    exact ⟨rfl, rfl, rfl, fun _ => rfl⟩

theorem computes_iTypeCases {rd rs1 : RegIdx} {imm : BitVec 12} {c : Instr × (Word → Word)}
    (hc : c ∈ iTypeCases rd rs1 imm) : Computes c.1 rd fun a => c.2 (a.reg rs1) := by
  simp only [iTypeCases, List.mem_cons, List.not_mem_nil, or_false] at hc
  rcases hc with rfl | rfl | rfl | rfl | rfl | rfl <;> exact ⟨rfl, rfl, rfl, fun _ => rfl⟩

theorem computes_shiftCases {rd rs1 : RegIdx} {shamt : BitVec 5} {c : Instr × (Word → Word)}
    (hc : c ∈ shiftCases rd rs1 shamt) : Computes c.1 rd fun a => c.2 (a.reg rs1) := by
  simp only [shiftCases, List.mem_cons, List.not_mem_nil, or_false] at hc
  rcases hc with rfl | rfl | rfl <;> exact ⟨rfl, rfl, rfl, fun _ => rfl⟩

/-- Settles O27: each R-type result is that of the pseudocode, which the stages deliver. -/
theorem rTypeResults : Obligations.RTypeResults := by
  unfold Obligations.RTypeResults
  exact fun _ _ _ _ _ _ hc h => (computes_rTypeCases hc).lifetime h

/-- Settles O28: each I-type result is that of the pseudocode, which the stages deliver. -/
theorem iTypeResults : Obligations.ITypeResults := by
  unfold Obligations.ITypeResults
  exact fun _ _ _ _ _ _ hc h => (computes_iTypeCases hc).lifetime h

/-- Settles O29: the shift of the pseudocode is by the five-bit amount, and the stages deliver it. -/
theorem shiftImmediateResults : Obligations.ShiftImmediateResults := by
  unfold Obligations.ShiftImmediateResults
  exact fun _ _ _ _ _ _ hc h => (computes_shiftCases hc).lifetime h

end Sys2Proof.Machine
end

section
/-! The frame of the instruction-level pseudocode: what the stages make of a payload (R151, R155). -/

namespace Sys2Proof.Machine

open Sys2Proof.Claims

/-- The pseudocode that goes on, by the memory access of the instruction's payload. -/
theorem exec_next {i : Instr} {a b : Arch} (h : Arch.exec i a = .next b) :
    ∃ w st, accessMemory a.params a.dmem (executePayload (a.payload (controlOf i))) = .ok (w, st) ∧
      b = { a with pc := (a.payload (controlOf i)).nextPc,
                   rf := commitRf a.rf (writeBack (some w)),
                   dmem := commitDmem a.params a.dmem st } := by
  rw [exec_eq_finish (carries_payload a (controlOf i))] at h
  cases hacc : accessMemory a.params a.dmem (executePayload (a.payload (controlOf i))) with
  | error ea => simp [finish_of_access_error _ hacc] at h
  | ok r => exact ⟨r.1, r.2, rfl, Host.Outcome.next.inj (h.symm.trans (finish_of_access_ok _ hacc))⟩

/-- Only a store writes memory, at the word index of its address (R151). -/
theorem accessMemory_write {p : Params} {dm : Memory} {m : EMPayload} {w : MWPayload} {j : Nat}
    {v : Word} (h : accessMemory p dm m = .ok (w, some (j, v))) :
    m.mem = .store ∧ j = wordIndex m.res := by
  obtain ⟨-, ⟨-, -, hst⟩ | ⟨-, _, -, -, hst⟩ | ⟨hm, k, hk, -, hst⟩⟩ := accessMemory_ok h
  · cases hst
  · cases hst
  · cases hst
    exact ⟨hm, (dataIndex_some.mp hk).1⟩

/-- Settles O38: the register write names the destination of the payload, the memory write is a
store's, and only a branch or jump redirects. -/
theorem pseudocodeFrame : Obligations.PseudocodeFrame := by
  unfold Obligations.PseudocodeFrame
  intro i a b h
  obtain ⟨w, st, hacc, rfl⟩ := exec_next h
  refine ⟨rfl, rfl, fun r hr => ?_, fun hm => ?_, fun rs2 rs1 imm hi x hx => ?_, fun hb => nextPc_ordinary hb⟩
  · refine read_commitRf_writeBack a.rf fun v hw => hr ?_
    have hdest : w.dest = destOf i := (accessMemory_ok hacc).1
    cases hw
    exact hdest.symm
  · obtain _ | ⟨j, v⟩ := st
    · rfl
    · exact absurd (accessMemory_write hacc).1 hm
  · subst hi
    obtain _ | ⟨j, v⟩ := st
    · rfl
    · obtain rfl : j = wordIndex (a.reg rs1 + imm.signExtend 32) := (accessMemory_write hacc).2
      simp [commitDmem, dmemWrite, Memory.readByte_writeWord, hx]

end Sys2Proof.Machine
end

section
/-! Loads and stores: the address of the payload, the memory cycle on it, and its abort outside DMem
(R150, R151, R200 to R202). -/

namespace Sys2Proof.Machine

open Sys2Proof.Claims

/-! ## The memory cycle of a payload in execute -/

theorem step_params {s t : State} (h : step s = .next t) : t.params = s.params := by
  obtain ⟨m, f, -, -, rfl⟩ := step_next.mp h
  rfl

section
variable {t t2 : State} {e : DEPayload} (hde : t.de = some e) (h : step t = .next t2)
include hde h

theorem step_em_of_de : t2.em = some (executePayload e) := by
  rw [step_em h, hde, Option.map_some]

/-- A memory access outside DMem is an error of the memory stage in the cycle after execute (R150). -/
theorem memoryStage_out_of_bounds (hm : e.mem ≠ .none)
    (hout : t.params.dmemWords ≤ wordIndex (aluResult e)) :
    memoryStage t2 = .error (aluResult e) :=
  memoryStage_error.mpr ⟨_, step_em_of_de hde h, hm, rfl, step_params h ▸ hout⟩

end

/-! ## Instructions that access memory at x[rs1] + imm (R200) -/

/-- `i` accesses memory, at the address `x[rs1] + sext_12(imm)` (R98, R200). -/
structure Addresses (i : Instr) (rs1 : RegIdx) (imm : BitVec 12) : Prop where
  mem_ne_none : (controlOf i).mem ≠ .none
  alu_add : (controlOf i).alu = .add
  imm_eq : (controlOf i).imm = some (sext12 imm)
  src1_eq : (controlOf i).src1 = some rs1

theorem addresses_lw (rd rs1 : RegIdx) (imm : BitVec 12) : Addresses (.lw rd rs1 imm) rs1 imm where
  mem_ne_none := nofun
  alu_add := rfl
  imm_eq := rfl
  src1_eq := rfl

theorem addresses_sw (rs2 rs1 : RegIdx) (imm : BitVec 12) : Addresses (.sw rs2 rs1 imm) rs1 imm where
  mem_ne_none := nofun
  alu_add := rfl
  imm_eq := rfl
  src1_eq := rfl

section
variable {i : Instr} {rs1 : RegIdx} {imm : BitVec 12} {s t t2 t3 : State} {p : FDPayload}
  (ha : Addresses i rs1 imm) (h : Issuable s p i)
include ha h

/-- The issue cycle puts the instruction in DE, and its ALU result there is the effective address. -/
theorem Addresses.issues : ∃ t e, exec i s = .next t ∧ t.de = some e ∧
    Carries e (controlOf i) { s.arch with pc := p.pc } ∧
    aluResult e = s.readReg rs1 + imm.signExtend 32 := by
  obtain ⟨t, e, hx, hde, he⟩ := issuable_issues h
  refine ⟨t, e, hx, hde, he, ?_⟩
  rw [aluResult_of_imm (he.imm_eq.trans ha.imm_eq), he.alu_eq, ha.alu_add, he.v1_eq ha.src1_eq]
  rfl

/-- Outside DMem the memory cycle aborts with the effective address (R150, R241). -/
theorem Addresses.aborts
    (hout : s.params.dmemWords ≤ wordIndex (s.readReg rs1 + imm.signExtend 32))
    (hx : exec i s = .next t) (h1 : step t = .next t2) :
    ∃ f, step t2 = .fault f ∧
      .dataOutOfBounds (s.readReg rs1 + imm.signExtend 32) ∈ f.reasons := by
  obtain ⟨_, e, hx', hde, he, hea⟩ := ha.issues h
  cases hx'.symm.trans hx
  rw [← step_params ((step_of_holds h.1).trans hx), ← hea] at hout
  have hm := memoryStage_out_of_bounds hde h1 (he.mem_eq ▸ ha.mem_ne_none) hout
  obtain ⟨f, hf⟩ := step_aborts.mpr (.inl ⟨_, hm⟩)
  exact ⟨f, hf, (step_fault hf _).mpr (.inl ⟨_, hm, by rw [hea]⟩)⟩

/-- Where the memory cycle goes on, the address is inside DMem. -/
theorem Addresses.in_bounds (hx : exec i s = .next t) (h1 : step t = .next t2)
    (h2 : step t2 = .next t3) :
    wordIndex (s.readReg rs1 + imm.signExtend 32) < s.params.dmemWords := by
  by_contra hout
  obtain ⟨f, hf, -⟩ := ha.aborts h (Nat.le_of_not_lt hout) hx h1
  simp [hf] at h2

end

/-- Settles O31: the memory stage reads the word at the payload's address, write-back delivers it, and
outside DMem the memory cycle is an abort. -/
theorem loadResult : Obligations.LoadResult := by
  unfold Obligations.LoadResult
  intro s p rd rs1 imm h
  have ha := addresses_lw rd rs1 imm
  refine ⟨?_, fun hout t t2 => ha.aborts h hout⟩
  obtain ⟨t, e, hx, hde, he, hea⟩ := ha.issues h
  refine ⟨t, hx, fun t2 t3 u h1 h2 h3 => ⟨ha.in_bounds h hx h1 h2, ?_⟩⟩
  obtain ⟨⟨val, dest⟩, hmw, hdest, -, hload, -⟩ :=
    (memoryStageAccess t2 t3 h2).2 _ (step_em_of_de hde h1)
  obtain ⟨hval, hdm⟩ := hload he.mem_eq
  obtain rfl : dest = some rd := hdest.trans he.dest_eq
  rw [← hea, ← show val = dmemRead t2.params t2.dmem (wordIndex (aluResult e)) from hval]
  exact delivers_of_mw hmw hdm h3

/-- Settles O32: the memory stage stores the second source at the payload's address, write-back has no
destination, and outside DMem the memory cycle is an abort. -/
theorem storeResult : Obligations.StoreResult := by
  unfold Obligations.StoreResult
  intro s p rs2 rs1 imm h
  have ha := addresses_sw rs2 rs1 imm
  refine ⟨?_, fun hout t t2 => ha.aborts h hout⟩
  obtain ⟨t, e, hx, hde, he, hea⟩ := ha.issues h
  refine ⟨t, hx, fun t2 t3 u h1 h2 h3 => ⟨ha.in_bounds h hx h1 h2, ?_⟩⟩
  obtain ⟨⟨val, dest⟩, hmw, hdest, -, -, hstore⟩ :=
    (memoryStageAccess t2 t3 h2).2 _ (step_em_of_de hde h1)
  obtain ⟨-, hword, hframe⟩ := hstore he.mem_eq
  obtain rfl : dest = none := hdest.trans he.dest_eq
  obtain ⟨hwbc, hrf⟩ := (writeBackStage t3 u h3).1 (.inr ⟨val, hmw⟩)
  have hv2 : e.v2 = s.readReg rs2 := he.v2_eq rfl
  rw [← hea, ← hv2]
  exact ⟨hword, hframe, hrf, hwbc⟩

/-! ## A load or store outside DMem, alone in the pipeline (R243) -/

/-- Carrying a payload out aborts only on a memory access outside DMem, with its address. -/
theorem finish_fault {a : Arch} {pc : Word} {e : DEPayload} {f : Fault}
    (h : a.finish pc (some e) = .fault f) :
    f = .dataOutOfBounds (aluResult e) ∧ e.mem ≠ .none ∧
      a.params.dmemWords ≤ wordIndex (aluResult e) := by
  cases hacc : accessMemory a.params a.dmem (executePayload e) with
  | ok r => simp [finish_of_access_ok pc hacc] at h
  | error ea =>
    obtain ⟨hm, rfl, hi⟩ := accessMemory_error.mp hacc
    cases (finish_of_access_error pc hacc).symm.trans h
    exact ⟨rfl, hm, dataIndex_none.mp hi⟩

/-- No branch or jump accesses memory (R98). -/
theorem controlOf_br_of_mem {i : Instr} (h : (controlOf i).mem ≠ .none) :
    (controlOf i).br = .none := by
  cases i
  case beq | bne | blt | bge | bltu | bgeu | jal | jalr => exact absurd rfl h
  all_goals rfl

/-- Alone, an instruction that is no branch or jump issues while fetch reads the first of the zero
words from PC on. -/
theorem alone_issues_ordinary {s : State} {p : FDPayload} {i : Instr} {n : Nat} (h : Alone s p i)
    (hb : (controlOf i).br = .none) (hw : ZeroWordsFrom s s.pc (n + 1)) :
    ∃ t, step s = .next t ∧ t.de = some (issuePayload (controlOf i) p s) ∧ t.em = none ∧
      ZerosFollow n t := by
  have hd := decodeOut_of_issue (alone_decodeHolds h) (alone_no_hazard h)
  obtain ⟨-, -, -, -, hde, hem, -⟩ := h
  have hr := redirectWire_none_of_de hde
  obtain ⟨j, hj, hzero⟩ := zeroWordsFrom_head hw
  have hf : fetchStage s.stallWire s.redirectWire s =
      .ok (s.pc + 4#32, some { inst := imemRead s.imem j, pc := s.pc }) := by
    simp [fetchStage, hr, State.stallWire, hd, hb, hj]
  refine ⟨_, step_next.mpr ⟨_, _, memoryStage_none hem, hf, rfl⟩, by simp [hd], by simp [hde],
    by simp [hd], by simp [hzero], ?_⟩
  rw [redirectWire_of_de (e := issuePayload (controlOf i) p s) (by simp [hd]), redirectOf_ordinary hb]
  exact zeroWordsFrom_tail hw

/-- With a zero word at the address it reads, fetch does not abort. -/
theorem fetchStage_zeros {n : Nat} {s : State} (hs : ZerosFollow (n + 1) s) :
    ∃ f, fetchStage s.stallWire s.redirectWire s = .ok f := by
  cases hf : fetchStage s.stallWire s.redirectWire s with
  | ok f => exact ⟨f, rfl⟩
  | error a =>
    obtain ⟨hr, -, hi⟩ := fetchStage_error.mp hf
    have hwords := hs.words
    rw [hr, Option.getD_none] at hwords
    obtain ⟨j, hj, -⟩ := zeroWordsFrom_head hwords
    simp [hi] at hj

/-- Settles O37: the pseudocode aborts as the payload's memory access does, and the zero words keep
fetch from aborting before or with it. -/
theorem aloneAbortsAsPseudocode : Obligations.AloneAbortsAsPseudocode := by
  unfold Obligations.AloneAbortsAsPseudocode
  intro s p i f h hx hw
  have hp := alone_decodeHolds h
  rw [exec_eq_finish (carries_issuePayload hp)] at hx
  obtain ⟨rfl, hm, hout⟩ := finish_fault hx
  obtain ⟨t, ht, hde, hem, hzeros⟩ := alone_issues_ordinary h (controlOf_br_of_mem hm) hw
  obtain ⟨_, ht2, -, hzeros2⟩ := step_zeros hzeros (memoryStage_none hem)
  have hmem := memoryStage_out_of_bounds hde ht2 hm (step_params ht ▸ hout)
  obtain ⟨g, hg⟩ := fetchStage_zeros hzeros2
  have hfault := (step_eq_cycle _).trans (cycleWith_fault.mpr (.inl ⟨_, g, hmem, hg, rfl⟩))
  exact ⟨t, _, rfl, step_of_holds hp ▸ ht, by simp [cycles, ht2, hfault]⟩

end Sys2Proof.Machine
end

section
/-! Conditional branches: the stalled issue cycle, the redirect of execute, and nothing after it (R132,
R143, R210 to R216, R284). -/

namespace Sys2Proof.Machine

open Sys2Proof.Claims

/-! ## The issue cycle of a branch or jump -/

theorem stallWire_of_issuable {s : State} {p : FDPayload} {i : Instr} (h : Issuable s p i) :
    s.stallWire = ((controlOf i).br != .none) := by
  obtain ⟨hp, hz, -⟩ := h
  rw [State.stallWire, decodeOut_of_issue hp hz]

/-- With nothing in decode there is no stall (R133). -/
theorem stallWire_of_empty {s : State} (h : s.candidate = none) : s.stallWire = false := by
  rw [State.stallWire, decodeOut_nothing h, decodeNothing]

/-- With a branch or jump in execute, decode holds nothing and stalls nothing, and PC is the address
behind it (R53, R132). -/
theorem PipelineInv.control_in_execute {t : State} {e : DEPayload} (ht : PipelineInv t)
    (hde : t.de = some e) (hb : e.br ≠ .none) :
    t.fd = none ∧ t.stallWire = false ∧ t.pc = e.pc + 4#32 := by
  obtain ⟨hfd, hsaved⟩ := ht.controlAlone e hde hb
  exact ⟨hfd, stallWire_of_empty (candidate_none.mpr ⟨hsaved, hfd⟩), ht.fetchPath.2 e hde hb⟩

/-! ## A payload without memory access and destination -/

/-- Such a payload in execute leaves DMEM in its memory cycle, and RF and the completion in its
write-back cycle (R151, R155). -/
theorem silent_of_de {e : DEPayload} {t t2 t3 u : State} (hde : t.de = some e) (hm : e.mem = .none)
    (hd : e.dest = none) (h : step t = .next t2) (h2 : step t2 = .next t3)
    (h3 : step t3 = .next u) : t3.dmem = t2.dmem ∧ u.rf = t3.rf ∧ u.wbc = none := by
  obtain ⟨⟨val, dest⟩, hmw, hdest, hnone, -⟩ :=
    (memoryStageAccess t2 t3 h2).2 _ (step_em_of_de hde h)
  obtain rfl : dest = none := hdest.trans hd
  obtain ⟨hwbc, hrf⟩ := (writeBackStage t3 u h3).1 (.inr ⟨val, hmw⟩)
  exact ⟨(hnone hm).2, hrf, hwbc⟩

/-! ## Instructions that branch by a comparison (R210) -/

/-- `i` is a conditional branch, by `off` iff `cond` holds of its two sources. -/
def BranchesIf (i : Instr) (rs1 rs2 : RegIdx) (off : BitVec 13) (cond : Word → Word → Bool) : Prop :=
  ∃ k, controlOf i = branchType k rs1 rs2 (sext13 off) ∧ k ≠ .none ∧ k ≠ .jalr ∧
    ∀ a b, taken k a b = cond a b

theorem branchesIf_branchCases {rs1 rs2 : RegIdx} {off : BitVec 13}
    {c : Instr × (Word → Word → Bool)} (hc : c ∈ branchCases rs1 rs2 off) :
    BranchesIf c.1 rs1 rs2 off c.2 := by
  simp only [branchCases, List.mem_cons, List.not_mem_nil, or_false] at hc
  rcases hc with rfl | rfl | rfl | rfl | rfl | rfl <;>
    exact ⟨_, rfl, nofun, nofun, fun a b => Bool.eq_iff_iff.mpr
      (by simp [taken, signedLess, unsignedLess])⟩

/-- In execute such a branch drives its target iff its condition holds of the source values (R143). -/
theorem Carries.redirectOf_branch {e : DEPayload} {a : Arch} {k : BrKind} {rs1 rs2 : RegIdx}
    {off : BitVec 13} (he : Carries e (branchType k rs1 rs2 (sext13 off)) a) (hk : k ≠ .jalr) :
    redirectOf e = if taken k (a.reg rs1) (a.reg rs2) = true then some (a.pc + off.signExtend 32)
      else none := by
  have hbr : e.br = k := he.br_eq
  rw [redirectOf_relative he.imm_eq (hbr ▸ hk), hbr, he.v1_eq rfl, he.v2_eq rfl, he.pc_eq, sext13]

/-- Settles O33: the branch in execute has decode to itself, so fetch follows its redirect, else the
PC behind it; and its payload carries no memory access and no destination. -/
theorem branchResults : Obligations.BranchResults := by
  unfold Obligations.BranchResults
  intro s p rs1 rs2 off c hc hs h
  obtain ⟨k, hctl, hk, hjalr, hcond⟩ := branchesIf_branchCases hc
  obtain ⟨t, e, hx, hde, he⟩ := issuable_issues h
  have hstall := stallWire_of_issuable h
  rw [hctl] at he hstall
  have ht := stepKeepsPipelineInv s t hs ((step_of_holds h.1).trans hx)
  obtain ⟨hfd, hgo, hpc⟩ := ht.control_in_execute hde (he.br_eq ▸ hk)
  rw [he.pc_eq] at hpc
  have hwire := (redirectWire_of_de hde).trans (he.redirectOf_branch hjalr)
  rw [hcond] at hwire
  refine ⟨t, hx, fun t2 t3 u h1 h2 h3 => ?_⟩
  obtain ⟨hredirect, -, hfetch⟩ := fetchPriority t t2 h1
  refine ⟨hstall.trans (bne_iff_ne.mpr hk), hfd, hpc, hgo, fun htrue => ?taken,
    fun hfalse => ?notTaken, silent_of_de hde he.mem_eq he.dest_eq h1 h2 h3⟩
  case taken => exact hredirect _ (hwire.trans (if_pos htrue))
  case notTaken =>
    obtain ⟨hpc2, j, -, hfd2⟩ := hfetch (hwire.trans (if_neg (Bool.eq_false_iff.mp hfalse))) hgo
    rw [hpc] at hpc2 hfd2
    exact ⟨by rw [hpc2, BitVec.add_assoc]; rfl, _, hfd2⟩

end Sys2Proof.Machine
end

section
/-! JAL and JALR: the stalled issue cycle, the redirect of execute, and the link that write-back
delivers (R132, R143, R144, R220 to R222, R284). -/

namespace Sys2Proof.Machine

open Sys2Proof.Claims

/-- Both jump kinds write back the address behind the jump (R144). -/
theorem linkOrResult_of_jump {e : DEPayload} (h : e.br = .jal ∨ e.br = .jalr) :
    linkOrResult e = e.pc + 4#32 := by
  rcases h with hb | hb <;> simp [linkOrResult, hb]

/-- `i` links to rd, and in execute its payload drives `target` of the state whose pc and sources it
carries. -/
structure Jumps (i : Instr) (rd : RegIdx) (target : Arch → Word) : Prop where
  br_jump : (controlOf i).br = .jal ∨ (controlOf i).br = .jalr
  mem_none : (controlOf i).mem = .none
  dest_eq : destOf i = some rd
  redirect_eq : ∀ {e a}, Carries e (controlOf i) a → redirectOf e = some (target a)

theorem jumps_jal (rd : RegIdx) (off : BitVec 21) :
    Jumps (.jal rd off) rd fun a => a.pc + off.signExtend 32 where
  br_jump := .inl rfl
  mem_none := rfl
  dest_eq := rfl
  redirect_eq {e _} he := by
    have hbr : e.br = .jal := he.br_eq
    rw [redirectOf_relative he.imm_eq (hbr ▸ nofun), hbr, he.pc_eq]
    rfl

theorem jumps_jalr (rd rs1 : RegIdx) (imm : BitVec 12) :
    Jumps (.jalr rd rs1 imm) rd fun a => (a.reg rs1 + imm.signExtend 32) &&& 0xFFFFFFFE#32 where
  br_jump := .inr rfl
  mem_none := rfl
  dest_eq := rfl
  redirect_eq he := by
    rw [redirectOf_jalr he.imm_eq he.br_eq, he.v1_eq rfl]
    rfl

/-- A jump, issued, stalls fetch; then decode has it to itself in execute, fetch follows its redirect
with a second bubble, and its link is delivered. -/
theorem Jumps.lifetime {i : Instr} {rd : RegIdx} {target : Arch → Word} {s : State} {p : FDPayload}
    (hj : Jumps i rd target) (hs : PipelineInv s) (h : Issuable s p i) :
    Lifetime i s fun t t2 t3 u =>
      s.stallWire = true ∧ t.fd = none ∧ t.stallWire = false ∧
      t2.pc = target { s.arch with pc := p.pc } ∧ t2.fd = none ∧
      Delivers rd (p.pc + 4#32) t2 t3 u := by
  obtain ⟨t, e, hx, hde, he⟩ := issuable_issues h
  have hbr : e.br = .jal ∨ e.br = .jalr := he.br_eq ▸ hj.br_jump
  have hcontrol : (controlOf i).br ≠ .none := by
    rcases hj.br_jump with hb | hb <;> simp [hb]
  have hstall : s.stallWire = true := (stallWire_of_issuable h).trans (bne_iff_ne.mpr hcontrol)
  have ht := stepKeepsPipelineInv s t hs ((step_of_holds h.1).trans hx)
  obtain ⟨hfd, hgo, -⟩ := ht.control_in_execute hde (he.br_eq ▸ hcontrol)
  have hwire := (redirectWire_of_de hde).trans (hj.redirect_eq he)
  refine ⟨t, hx, fun t2 t3 u h1 h2 h3 => ?_⟩
  obtain ⟨hpc2, hfd2⟩ := (fetchPriority t t2 h1).1 _ hwire
  have hlink := delivers_of_de hde (he.mem_eq.trans hj.mem_none) (he.dest_eq.trans hj.dest_eq)
    h1 h2 h3
  rw [linkOrResult_of_jump hbr, he.pc_eq] at hlink
  exact ⟨hstall, hfd, hgo, hpc2, hfd2, hlink⟩

/-- Settles O34: both jumps stall, redirect and link alike; they differ in the target. -/
theorem jumpResults : Obligations.JumpResults := by
  unfold Obligations.JumpResults
  exact fun _ _ rd rs1 imm off hs =>
    ⟨(jumps_jal rd off).lifetime hs, (jumps_jalr rd rs1 imm).lifetime hs⟩

end Sys2Proof.Machine
end

section
/-! LUI and AUIPC: the value of the pseudocode, followed through execute, memory and write-back
(R230 to R232). -/

namespace Sys2Proof.Machine

/-- LUI puts the 20 bits over twelve zeros in rd (R231). -/
theorem computes_lui (rd : RegIdx) (imm20 : BitVec 20) :
    Computes (.lui rd imm20) rd fun _ => imm20 ++ 0x000#12 :=
  ⟨rfl, rfl, rfl, fun _ => rfl⟩

/-- AUIPC adds them to its own pc (R232). -/
theorem computes_auipc (rd : RegIdx) (imm20 : BitVec 20) :
    Computes (.auipc rd imm20) rd fun a => a.pc + (imm20 ++ 0x000#12) :=
  ⟨rfl, rfl, rfl, fun _ => rfl⟩

/-- Settles O30: both results are those of the pseudocode at the instruction's own pc, which the
stages deliver. -/
theorem upperImmediateResults : Obligations.UpperImmediateResults := by
  unfold Obligations.UpperImmediateResults
  exact fun _ _ rd imm20 => ⟨(computes_lui rd imm20).lifetime, (computes_auipc rd imm20).lifetime⟩

end Sys2Proof.Machine
end

section
/-! The no-operation: issued with no lock and no stall, then silent in execute, memory and write-back
(R131, R132, R143, R151, R155, R235). -/

namespace Sys2Proof.Machine

open Sys2Proof.Claims

/-- The issue cycle releases the completed register, then locks the instruction's destination (R125,
R131). -/
theorem sb_of_issuable {s t : State} {p : FDPayload} {i : Instr} (h : Issuable s p i)
    (hx : exec i s = .next t) : t.sb = lockDest s.released (controlOf i).dest := by
  obtain ⟨hp, hz, -⟩ := h
  rw [step_sb ((step_of_holds hp).trans hx), decodeOut_of_issue hp hz]

/-- Settles O35: the payload issued has no destination to lock or write, no branch kind to stall or
redirect for, and no memory access. -/
theorem nopResult : Obligations.NopResult := by
  unfold Obligations.NopResult
  intro s p w h
  obtain ⟨t, e, hx, hde, he⟩ := issuable_issues h
  have hlock : t.sb = s.released := sb_of_issuable h hx
  have hstall : s.stallWire = false := stallWire_of_issuable h
  have hredirect : t.redirectWire = none :=
    (redirectWire_of_de hde).trans (redirectOf_ordinary he.br_eq)
  exact ⟨t, hx, fun _ _ _ h1 h2 h3 =>
    ⟨hlock, hstall, hredirect, silent_of_de hde he.mem_eq he.dest_eq h1 h2 h3⟩⟩

end Sys2Proof.Machine
end

section
/-! A run of several cores: when a cycle goes on, when it aborts, and with which reasons (R243, R244,
R251 to R253). -/

namespace Sys2Proof.Machine

/-! ## One cycle of a run (R251, R243) -/

theorem allNext_eq_some {os : List (Host.Outcome State Fault Refusal)} {ts : List State} :
    allNext os = some ts ↔ os = ts.map .next := by
  induction os generalizing ts with
  | nil => cases ts <;> simp [allNext]
  | cons o os ih =>
    cases o with
    | next t => cases ts <;> simp [allNext, ih, and_comm]
    | fault f => cases ts <;> simp [allNext]
    | refused r => cases ts <;> simp [allNext]

/-- No step answers a refusal, so only a fault stops a core. -/
theorem allNext_step_eq_none {cores : List State} :
    allNext (cores.map step) = none ↔ ∃ s ∈ cores, ∃ f, step s = .fault f := by
  induction cores with
  | nil => simp [allNext]
  | cons s cores ih =>
    cases h : step s with
    | next t => simp [allNext, h, ih]
    | fault f => simp [allNext, h]
    | refused r => exact absurd h (step_not_refused s r)

theorem Run.cycle_eq_running {cores next : List State} :
    Run.cycle (.running cores) = .running next ↔ cores.map step = next.map .next := by
  rw [← allNext_eq_some]
  cases h : allNext (cores.map step) <;> simp [Run.cycle, h]

theorem Run.cycle_eq_aborted {cores last : List State} {rs : List CoreAbort} :
    Run.cycle (.running cores) = .aborted rs last ↔
      (∃ s ∈ cores, ∃ f, step s = .fault f) ∧
        rs = abortReasons 0 (cores.map step) ∧ last = cores := by
  rw [← allNext_step_eq_none]
  cases h : allNext (cores.map step) <;> simp [Run.cycle, h, eq_comm]

@[simp] theorem Run.cycles_aborted (k : Nat) (rs : List CoreAbort) (last : List State) :
    Run.cycles k (.aborted rs last) = .aborted rs last := by
  induction k with
  | zero => rfl
  | succ k ih => exact ih

/-! ## The reasons of a cycle (R244) -/

/-- The reasons one core's step gives an aborting cycle: those of its fault, and none otherwise. -/
def stopReasons : Host.Outcome State Fault Refusal → List AbortReason
  | .fault f => f.reasons
  | .next _ => []
  | .refused _ => []

theorem mem_stopReasons {o : Host.Outcome State Fault Refusal} {x : AbortReason} :
    x ∈ stopReasons o ↔ ∃ f, o = .fault f ∧ x ∈ f.reasons := by
  cases o <;> simp [stopReasons]

theorem stopReasons_ordered (o : Host.Outcome State Fault Refusal) :
    (stopReasons o).Pairwise (fun x y => x.rank < y.rank) := by
  cases o with
  | fault f => exact reasons_ordered f
  | next t => exact .nil
  | refused r => exact .nil

theorem abortReasons_cons (n : Nat) (o : Host.Outcome State Fault Refusal)
    (os : List (Host.Outcome State Fault Refusal)) :
    abortReasons n (o :: os) = (stopReasons o).map (⟨n, ·⟩) ++ abortReasons (n + 1) os := by
  cases o <;> rfl

/-- Counting from `n`, a reason stands in the list iff its core has an outcome that gives it. -/
theorem mem_abortReasons {os : List (Host.Outcome State Fault Refusal)} {n : Nat} {a : CoreAbort} :
    a ∈ abortReasons n os ↔
      ∃ k o, a.core = n + k ∧ os[k]? = some o ∧ a.reason ∈ stopReasons o := by
  induction os generalizing n with
  | nil => simp [abortReasons]
  | cons o os ih =>
    rw [abortReasons_cons, List.mem_append, ih, List.mem_map]
    constructor
    · rintro (⟨x, hx, rfl⟩ | ⟨k, o', hk, ho', hx⟩)
      · exact ⟨0, o, rfl, rfl, hx⟩
      · exact ⟨k + 1, o', by omega, ho', hx⟩
    · rintro ⟨k | k, o', hk, ho', hx⟩
      · obtain rfl : o = o' := by simpa using ho'
        obtain rfl : a.core = n := hk
        exact .inl ⟨a.reason, hx, rfl⟩
      · exact .inr ⟨k, o', by omega, ho', hx⟩

/-- The order of R244: lowest core first, and within a core by rank. -/
theorem abortReasons_ordered (n : Nat) (os : List (Host.Outcome State Fault Refusal)) :
    (abortReasons n os).Pairwise (fun x y => x.core < y.core ∨
      (x.core = y.core ∧ x.reason.rank < y.reason.rank)) := by
  induction os generalizing n with
  | nil => exact .nil
  | cons o os ih =>
    rw [abortReasons_cons, List.pairwise_append, List.pairwise_map]
    refine ⟨(stopReasons_ordered o).imp fun hxy => .inr ⟨rfl, hxy⟩, ih (n + 1), ?_⟩
    intro a ha b hb
    obtain ⟨x, -, rfl⟩ := List.mem_map.mp ha
    obtain ⟨k, -, hk, -⟩ := mem_abortReasons.mp hb
    exact .inl (show n < b.core by omega)

/-- The reasons of a cycle are those of the cores' own steps. -/
theorem mem_cycleReasons {cores : List State} {n : Nat} {x : AbortReason} :
    (⟨n, x⟩ : CoreAbort) ∈ abortReasons 0 (cores.map step) ↔
      ∃ s f, cores[n]? = some s ∧ step s = .fault f ∧ x ∈ f.reasons := by
  simp [mem_abortReasons, mem_stopReasons]

theorem named_mem_reasons (f : Fault) : f.named ∈ f.reasons :=
  List.mem_of_head? (head_reasons f)

theorem cycleReasons_ne_nil {cores : List State} {s : State} {f : Fault} (hs : s ∈ cores)
    (hf : step s = .fault f) : abortReasons 0 (cores.map step) ≠ [] := by
  obtain ⟨n, hn⟩ := List.mem_iff_getElem?.mp hs
  exact List.ne_nil_of_mem (mem_cycleReasons.mpr ⟨s, f, hn, hf, named_mem_reasons f⟩)

/-- Settles O59: the outcomes of a cycle that goes on are its next states, core by core. -/
theorem coresAreIndependent : Obligations.CoresAreIndependent := by
  unfold Obligations.CoresAreIndependent
  intro cores next h
  have hall : cores.map step = next.map .next := Run.cycle_eq_running.mp h
  refine ⟨by simpa using (congrArg List.length hall).symm, fun n s hs => ?_⟩
  have hn : (next.map .next)[n]? = some (step s) := by rw [← hall, List.getElem?_map, hs]; rfl
  obtain ⟨t, ht, hst⟩ := by simpa using hn
  exact ⟨t, hst.symm, ht⟩

/-- Settles O58: membership and order of the list of reasons, counted from core 0. -/
theorem abortReasonOrder : Obligations.AbortReasonOrder := by
  unfold Obligations.AbortReasonOrder
  intro cores last rs h
  obtain ⟨-, rfl, -⟩ := Run.cycle_eq_aborted.mp h
  exact ⟨fun n x => mem_cycleReasons, abortReasons_ordered 0 _⟩

/-- Settles O57: a cycle that does not go on has a core that faults, whose named reason is in the
list; an aborted run is a fixed point of the cycle. -/
theorem abortEndsTheRun : Obligations.AbortEndsTheRun := by
  unfold Obligations.AbortEndsTheRun
  refine ⟨fun cores => ⟨by simp [Run.cycle_eq_aborted], fun rs last h => ?_⟩, Run.cycles_aborted⟩
  obtain ⟨⟨s, hs, f, hf⟩, rfl, rfl⟩ := Run.cycle_eq_aborted.mp h
  exact ⟨rfl, cycleReasons_ne_nil hs hf⟩

/-! ## Cores launched alike (R253) -/

theorem Run.launch_eq_some {n : Nat} {l : LaunchInput} {r : Run} (h : Run.launch n l = some r) :
    0 < n ∧ r = .running (List.replicate n (State.launch l)) := by
  unfold Run.launch at h
  split_ifs at h with hn
  exact ⟨hn.1, (Option.some.inj h).symm⟩

theorem cycle_replicate_next {s t : State} (n : Nat) (h : step s = .next t) :
    Run.cycle (.running (List.replicate n s)) = .running (List.replicate n t) := by
  simp [Run.cycle_eq_running, h]

theorem cycle_replicate_fault {n : Nat} {s : State} {f : Fault} (hn : 0 < n)
    (h : step s = .fault f) :
    ∃ rs, Run.cycle (.running (List.replicate n s)) = .aborted rs (List.replicate n s) :=
  ⟨_, Run.cycle_eq_aborted.mpr ⟨⟨s, List.mem_replicate.mpr ⟨hn.ne', rfl⟩, f, h⟩, rfl, rfl⟩⟩

/-- Cores that start in one state stay equal to one core run alone from it, up to the cycle in which
that core aborts, which ends the run. -/
theorem cycles_replicate {n : Nat} (hn : 0 < n) (k : Nat) (s : State) :
    (∃ u, cycles k s = .next u ∧
      Run.cycles k (.running (List.replicate n s)) = .running (List.replicate n u)) ∨
    (∃ f j u rs, cycles k s = .fault f ∧ j < k ∧ cycles j s = .next u ∧ step u = .fault f ∧
      Run.cycles k (.running (List.replicate n s)) = .aborted rs (List.replicate n u)) := by
  induction k generalizing s with
  | zero => exact .inl ⟨s, rfl, rfl⟩
  | succ k ih =>
    cases h : step s with
    | next t =>
      have hrun : Run.cycles (k + 1) (.running (List.replicate n s)) =
          Run.cycles k (.running (List.replicate n t)) :=
        congrArg (Run.cycles k) (cycle_replicate_next n h)
      have hcore : ∀ j, cycles (j + 1) s = cycles j t := fun j => by simp [cycles, h]
      rw [hrun, hcore]
      rcases ih t with hnext | ⟨f, j, u, rs, hf, hj, hu, huf, hr⟩
      · exact .inl hnext
      · exact .inr ⟨f, j + 1, u, rs, hf, by omega, (hcore j).trans hu, huf, hr⟩
    | fault f =>
      obtain ⟨rs, hrs⟩ := cycle_replicate_fault hn h
      exact .inr ⟨f, 0, s, rs, by simp [cycles, h], k.succ_pos, rfl, h,
        (congrArg (Run.cycles k) hrs).trans (Run.cycles_aborted k rs _)⟩
    | refused r => exact absurd h (step_not_refused s r)

/-- Settles O56: launch starts all cores in one state. -/
theorem coresStayEqual : Obligations.CoresStayEqual := by
  unfold Obligations.CoresStayEqual
  intro n l r h k
  obtain ⟨hn, rfl⟩ := Run.launch_eq_some h
  exact cycles_replicate hn k (State.launch l)

end Sys2Proof.Machine
end

section
/-! The stall of a reader, and the bubbles of a control transfer (R282, R284). -/

namespace Sys2Proof.Machine

/-! ## How long a reader is held (R282) -/

theorem cycles_add {j k : Nat} {s t u : State} (h : cycles j s = .next t)
    (h' : cycles k t = .next u) : cycles (j + k) s = .next u := by
  induction j generalizing s with
  | zero =>
    cases h
    rwa [Nat.zero_add]
  | succ j ih =>
    obtain ⟨x, hx, hxt⟩ := cycles_succ_next.mp h
    rw [Nat.add_right_comm]
    exact cycles_succ_next.mpr ⟨x, hx, ih hxt⟩

/-- Decode holds, as payload `q`, an instruction that reads register `r`. -/
structure HoldsReader (q : FDPayload) (r : RegIdx) (s : State) : Prop where
  candidate_eq : s.candidate = some q
  reads : (candidateControl s q).src1 = some r ∨ (candidateControl s q).src2 = some r

section
variable {q : FDPayload} {r : RegIdx} {s t : State} (hq : HoldsReader q r s)
include hq

/-- A locked register holds its reader back (R128). -/
theorem HoldsReader.hazardStall (hl : locked s.released r = true) : s.hazardStall = true := by
  have hp : s.decodeHolds q (decodeWord s.params.narrowMem q.inst) := ⟨hq.candidate_eq, rfl⟩
  rw [hazardStall_of_holds hp, hazard_eq_true]
  exact ⟨r, hl, .inl (hq.reads.imp (source1_of_src1 hp) (source2_of_src2 hp))⟩

/-- A cycle in which the register is locked leaves its reader in decode (R129). -/
theorem HoldsReader.step (hl : locked s.released r = true) (h : step s = .next t) :
    HoldsReader q r t where
  candidate_eq := (candidate_of_hazardStall h (hq.hazardStall hl)).trans hq.candidate_eq
  reads := by
    rw [candidateControl, step_params h]
    exact hq.reads

/-- While the register stays locked, its reader stays in decode. -/
theorem HoldsReader.cycles {n : Nat}
    (hl : ∀ j v, j < n → cycles j s = .next v → locked v.released r = true)
    (h : cycles n s = .next t) : HoldsReader q r t := by
  induction n generalizing s with
  | zero =>
    cases h
    exact hq
  | succ n ih =>
    obtain ⟨x, hx, hxt⟩ := cycles_succ_next.mp h
    refine ih (hq.step (hl 0 s n.succ_pos rfl) hx) (fun j v hj hv => ?_) hxt
    exact hl (j + 1) v (Nat.succ_lt_succ hj) (cycles_succ_next.mpr ⟨x, hx, hv⟩)

end

/-- Settles O50: the register is locked in the three cycles after the writer's issue, and in the
fourth, if all three were stalls, nothing is left in flight. -/
theorem rawStallLength : Obligations.RawStallLength := by
  unfold Obligations.RawStallLength
  intro s t i rd k u q hs hi hrd h0 h hk1 hk3 hu hc hsrc
  obtain ⟨hlocked, hfree⟩ := lockHeldThreeCycles s t i rd hs hi hrd h0 h
  have hq : HoldsReader q rd u := ⟨hc, hsrc⟩
  have hlock : ∀ j v, j < 4 - k → cycles j u = .next v → locked v.released rd = true :=
    fun j v hj hv => hlocked (k - 1 + j) v (by omega) (cycles_add hu hv)
  have hread : ∀ j v, j ≤ 4 - k → cycles j u = .next v → HoldsReader q rd v :=
    fun j v hj hv => hq.cycles (fun i w hij => hlock i w (hij.trans_le hj)) hv
  have hheld : ∀ j v, j < 4 - k → cycles j u = .next v → v.hazardStall = true :=
    fun j v hj hv => (hread j v hj.le hv).hazardStall (hlock j v hj hv)
  refine ⟨fun j v hj hv => ⟨(hread j v hj.le hv).candidate_eq, hheld j v hj hv⟩,
    fun v hv => ⟨(hread _ v le_rfl hv).candidate_eq, ?free, ?issues⟩⟩
  case free =>
    have hthree : k - 1 + (4 - k) = 3 := by omega
    exact (hfree v (hthree ▸ cycles_add hu hv)).1
  case issues =>
    rintro rfl
    obtain ⟨u1, hu1, hv⟩ := cycles_succ_next.mp hv
    obtain ⟨u2, hu2, hv⟩ := cycles_succ_next.mp hv
    obtain ⟨u3, hu3, ⟨⟩⟩ := cycles_succ_next.mp hv
    have hnone : ∀ j v, j < 3 → cycles j u = .next v → v.issued = none :=
      fun j v hj hv => issued_none.mpr (.inr (hheld j v hj hv))
    have hgood := goodState_cycles (goodState_step hs h) hu
    exact issued_after_three hgood hu1 hu2 hu3 (hnone 0 u (by omega) rfl)
      (hnone 1 u1 (by omega) (cycles_succ_next.mpr ⟨u1, hu1, rfl⟩))
      (hnone 2 u2 (by omega)
        (cycles_succ_next.mpr ⟨u1, hu1, cycles_succ_next.mpr ⟨u2, hu2, rfl⟩⟩))

/-! ## Bubbles (R284) -/

/-- Where decode holds nothing it next holds what fetch leaves (R126, R133). -/
theorem candidate_of_empty {s t : State} (hc : s.candidate = none) (h : step s = .next t) :
    t.candidate = t.fd := by
  obtain ⟨hsaved, hfd⟩ := candidate_none.mp hc
  obtain ⟨-, -, hidle, -⟩ := savedPayloadFirst s t h
  obtain ⟨-, hnone, -⟩ := hidle hsaved hfd
  exact candidate_fd hnone

/-- Where decode holds nothing and execute drives no redirect, the word at PC is next in decode. -/
theorem fetch_of_empty {s t : State} (hc : s.candidate = none) (hr : s.redirectWire = none)
    (h : step s = .next t) : ∃ w, t.candidate = some { inst := w, pc := s.pc } := by
  obtain ⟨-, -, hfetch⟩ := fetchPriority s t h
  obtain ⟨-, j, -, hfd⟩ := hfetch hr (stallWire_of_empty hc)
  exact ⟨_, (candidate_of_empty hc h).trans hfd⟩

/-- A cycle that issues a branch or jump stalls fetch, and leaves decode empty and PC behind the
instruction (R53, R132). -/
theorem control_issue {s t : State} {p : FDPayload} {i : Instr} (hs : PipelineInv s)
    (hp : s.decodeHolds p i) (hi : s.issued = some i) (hb : (controlOf i).br ≠ .none)
    (h : step s = .next t) :
    s.stallWire = true ∧ t.candidate = none ∧ t.pc = p.pc + 4#32 := by
  obtain ⟨q, hq, hz⟩ := issued_some.mp hi
  obtain rfl : p = q := Option.some.inj (hp.1.symm.trans hq.1)
  have hd := decodeOut_of_issue hp hz
  have hde : t.de = some (issuePayload (controlOf i) p s) := by rw [step_de h, hd]
  have ht := stepKeepsPipelineInv s t hs h
  obtain ⟨hfd, hsaved⟩ := ht.controlAlone _ hde hb
  refine ⟨?_, candidate_none.mpr ⟨hsaved, hfd⟩, ht.fetchPath.2 _ hde hb⟩
  rw [State.stallWire, hd]
  exact bne_iff_ne.mpr hb

/-- Settles O51: with the instruction in execute decode is empty, so fetch follows its redirect and
reads the target a cycle later, or else reads on behind it at once. -/
theorem controlTransferBubbles : Obligations.ControlTransferBubbles := by
  unfold Obligations.ControlTransferBubbles
  intro s t t2 p i hs hp hi hb h h2
  obtain ⟨hstall, hc, hpc⟩ := control_issue hs hp hi hb h
  refine ⟨hstall, hc, stallWire_of_empty hc, fun a ha => ?taken, fun hr => ?notTaken⟩
  case taken =>
    obtain ⟨hpc2, hfd2⟩ := (fetchPriority t t2 h2).1 a ha
    have hc2 : t2.candidate = none := (candidate_of_empty hc h2).trans hfd2
    have hde2 : t2.de = none := de_of_no_issue h2 (issued_none.mpr (.inl hc))
    refine ⟨hc2, hpc2, fun t3 h3 => ?_⟩
    rw [← hpc2]
    exact fetch_of_empty hc2 (redirectWire_none_of_de hde2) h3
  case notTaken =>
    rw [← hpc]
    exact fetch_of_empty hc hr h2

end Sys2Proof.Machine
end

section
/-! The first cycle after launch (R122, R271, R275). -/

namespace Sys2Proof.Machine

theorem withFetchWord_toNat (s : State) (w : Word) :
    s.withFetchWord 32 w.toNat = s.presentWord w := by
  rw [State.withFetchWord, Nat.mod_eq_of_lt w.isLt, BitVec.ofNat_toNat, BitVec.setWidth_eq]

/-- From launch the first cycle fetches the image's word at PC 0 and leaves all else as launched. -/
theorem step_launch {l : LaunchInput} {i : Nat} (hi : fetchIndex l.params 0#32 = .ok i) :
    step (State.launch l) = .next { State.launch l with
      pc := 4#32, fd := some { inst := l.image.getD i 0#32, pc := 0#32 } } := by
  have hf : fetchStage (State.launch l).stallWire (State.launch l).redirectWire (State.launch l) =
      .ok (4#32, some { inst := imemRead (imageOf l.image) i, pc := 0#32 }) := by
    rw [stallWire_of_empty rfl, redirectWire_none_of_de rfl]
    simp [fetchStage, State.launch, hi]
  refine step_next.mpr ⟨_, _, memoryStage_none rfl, hf, ?_⟩
  rw [decodeOut_nothing rfl, imemRead_imageOf]
  rfl

/-- Settles O47: the one-word image is what `presentWord` writes at PC 0. -/
theorem firstInstructionAfterReset : Obligations.FirstInstructionAfterReset := by
  unfold Obligations.FirstInstructionAfterReset
  intro w
  rw [withFetchWord_toNat]
  refine ⟨?_, step_of_holds ⟨presentWord_candidate _ w, rfl⟩⟩
  rw [step_launch (i := 0) rfl, reset_eq_launch]
  rfl

end Sys2Proof.Machine
end

section
/-! The idle loop `JAL x0, 0` (R276). -/

namespace Sys2Proof.Machine

/-! ## A copy of the loop, stage by stage -/

theorem decodeWord_idle (nm : NarrowMem) : decodeWord nm 0x0000006F#32 = .jal 0#5 0#21 := by
  cases nm <;> decide

theorem redirectOf_idleIssue (pc : Word) : redirectOf (idleIssue pc) = some pc := by
  simp [redirectOf, idleIssue, taken, branchTarget]

/-- The loop reads register 0 or nothing (R99). -/
theorem issuePayload_idle (s : State) (pc : Word) :
    issuePayload (controlOf (.jal 0#5 0#21)) (idleFetch pc) s = idleIssue pc := by
  cases hs : s.params.hazardSources <;>
    simp [issuePayload, idleIssue, idleFetch, controlOf, jalType, sext21, source1, source2, hs,
      sourceValue, rs1Of, rs2Of]

/-- With no lock decode issues the loop, which locks nothing (R131). -/
theorem decodeOut_idle {s : State} {pc : Word} (hsb : s.sb = 0#32) (hwbc : s.wbc = none)
    (hc : s.candidate = some (idleFetch pc)) :
    s.decodeOut = { stall := true, de := some (idleIssue pc), saved := none, sb := 0#32 } := by
  have hp : s.decodeHolds (idleFetch pc) (.jal 0#5 0#21) := ⟨hc, decodeWord_idle _⟩
  have hz : hazard (controlOf (.jal 0#5 0#21)) (idleFetch pc) s = false := by
    rw [← Bool.not_eq_true, hazard_eq_true]
    rintro ⟨r, hl, -⟩
    obtain ⟨-, hbit, -⟩ := locked_released.mp hl
    simp [hsb] at hbit
  rw [decodeOut_of_issue hp hz, issuePayload_idle]
  simp [controlOf, jalType, lockDest, State.released, hwbc, hsb]

/-- What the memory stage makes of a copy of the loop. -/
def idleDone (pc : Word) : MWPayload := { val := pc + 4#32, dest := some 0#5 }

theorem memoryStage_idle {s : State} {pc : Word}
    (h : s.em = none ∨ s.em = some (executePayload (idleIssue pc))) :
    ∃ w, memoryStage s = .ok (w, none) ∧ (w = none ∨ w = some (idleDone pc)) := by
  rcases h with h | h
  · exact ⟨none, memoryStage_none h, .inl rfl⟩
  · exact ⟨_, by rw [memoryStage_some h]; rfl, .inr rfl⟩

theorem writeBack_idle {mw : Option MWPayload} {pc : Word}
    (h : mw = none ∨ mw = some (idleDone pc)) : writeBack mw = none := by
  rcases h with rfl | rfl <;> rfl

/-! ## The phases of the loop -/

/-- In every phase write-back writes nothing, and the memory stage stores nothing and passes on at
most a copy of the loop. -/
theorem Idle.memory {pc : Word} {s : State} (h : Idle pc s) :
    writeBack s.mw = none ∧
      ∃ w, memoryStage s = .ok (w, none) ∧ (w = none ∨ w = some (idleDone pc)) := by
  obtain ⟨-, -, -, -, hphase⟩ := h
  rcases hphase with ⟨-, -, -, hmw, hem⟩ | ⟨-, -, -, hem, hmw⟩ | ⟨-, -, -, hem, hmw⟩
  · exact ⟨writeBack_idle (pc := pc) (.inl hmw), memoryStage_idle hem⟩
  · exact ⟨writeBack_idle hmw, memoryStage_idle (.inl hem)⟩
  · exact ⟨writeBack_idle (pc := pc) (.inl hmw), memoryStage_idle (.inl hem)⟩

/-- The committed state is the drained one, and the loop is next to issue. -/
theorem Idle.drain {pc : Word} {s : State} (h : Idle pc s) :
    s.drain = .next { s.arch with pc := pc } := by
  obtain ⟨hmw, w, hm, hw⟩ := h.memory
  obtain ⟨-, -, hsaved, -, hphase⟩ := h
  have hsettled : s.settled (w, none) = s.arch := by
    rw [State.settled, hmw, writeBack_idle hw]
    rfl
  rw [drain_of_memory_ok hm, hsettled]
  rcases hphase with ⟨hfd, hde, hpc, -⟩ | ⟨hfd, hde, -⟩ | ⟨-, hde, -⟩
  · have hc := candidate_none.mpr ⟨hsaved, hfd⟩
    rw [nextIssuePc_empty (redirectWire_none_of_de hde) hc, hde, hpc]
    rfl
  · rw [nextIssuePc_candidate (redirectWire_none_of_de hde) ((candidate_fd hsaved).trans hfd), hde]
    rfl
  · rw [nextIssuePc_redirect ((redirectWire_of_de hde).trans (redirectOf_idleIssue pc)), hde,
      finish_write rfl rfl, RegFile.write_zero]

/-- The cycle from each phase goes on to the next one: fetch reads the loop, decode issues it, and
execute redirects to it. -/
theorem Idle.step {pc : Word} {s : State} (h : Idle pc s) :
    ∃ t, step s = .next t ∧ Idle pc t ∧ t.rf = s.rf ∧ t.dmem = s.dmem := by
  obtain ⟨hmw, w, hm, hw⟩ := h.memory
  obtain ⟨hsb, hwbc, hsaved, hword, hphase⟩ := h
  have hrf : commitRf s.rf (writeBack s.mw) = s.rf := by rw [hmw, commitRf_none]
  have hdone : (writeBack s.mw).map Prod.fst = none := by rw [hmw, Option.map_none]
  have hrel : s.released = 0#32 := by rw [State.released, hwbc, hsb]
  rcases hphase with ⟨hfd, hde, hpc, -⟩ | ⟨hfd, hde, hpc, hem, -⟩ | ⟨hfd, hde, -, hem, -⟩
  · have hc := candidate_none.mpr ⟨hsaved, hfd⟩
    have hf : fetchStage s.stallWire s.redirectWire s = .ok (pc + 4#32, some (idleFetch pc)) := by
      obtain ⟨i, hi, hinst⟩ := hword
      simp [fetchStage, stallWire_of_empty hc, redirectWire_none_of_de hde, hpc, hi, hinst,
        idleFetch]
    refine ⟨_, step_next.mpr ⟨_, _, hm, hf, rfl⟩, ?_, hrf, rfl⟩
    rw [decodeOut_nothing hc]
    exact ⟨hrel, hdone, rfl, hword, .inr (.inl ⟨rfl, rfl, rfl, by simp [hde], hw⟩)⟩
  · have hd := decodeOut_idle hsb hwbc ((candidate_fd hsaved).trans hfd)
    have hf : fetchStage s.stallWire s.redirectWire s = .ok (pc + 4#32, none) := by
      simp [fetchStage, State.stallWire, hd, redirectWire_none_of_de hde, hpc]
    have hw : w = none := by simpa [memoryStage_none hem] using hm.symm
    refine ⟨_, step_next.mpr ⟨_, _, hm, hf, rfl⟩, ?_, hrf, rfl⟩
    rw [hd]
    exact ⟨rfl, hdone, rfl, hword, .inr (.inr ⟨rfl, rfl, rfl, by simp [hde], hw⟩)⟩
  · have hf : fetchStage s.stallWire s.redirectWire s = .ok (pc, none) := by
      simp [fetchStage, redirectWire_of_de hde, redirectOf_idleIssue]
    have hw : w = none := by simpa [memoryStage_none hem] using hm.symm
    refine ⟨_, step_next.mpr ⟨_, _, hm, hf, rfl⟩, ?_, hrf, rfl⟩
    rw [decodeOut_nothing (candidate_none.mpr ⟨hsaved, hfd⟩)]
    exact ⟨hrel, hdone, rfl, hword, .inl ⟨rfl, rfl, rfl, hw, .inr (by simp [hde])⟩⟩

/-- Settles O55, by induction on the cycles. -/
theorem idleCoreStaysIdle : Obligations.IdleCoreStaysIdle := by
  unfold Obligations.IdleCoreStaysIdle
  refine fun k pc s h => ⟨h.drain, ?_⟩
  induction k generalizing s with
  | zero => exact ⟨s, rfl, h, rfl, rfl⟩
  | succ k ih =>
    obtain ⟨t, hst, ht, hrf, hdm⟩ := h.step
    obtain ⟨u, htu, hu, hrf', hdm'⟩ := ih t ht
    exact ⟨u, cycles_succ_next.mpr ⟨t, hst, htu⟩, hu, hrf'.trans hrf, hdm'.trans hdm⟩

end Sys2Proof.Machine
end
